-- ==== Sys2Proof/Word.lean ====
section
/-! DEFINITION. The word types of the block and nothing else (00_scope.md R5, 92_eei_decisions.md D8). -/

namespace Sys2Proof

/-- One byte, of packet memory or of caller memory (20_memory.md R54, R57). -/
abbrev Byte := BitVec 8

/-- A packet-memory word, two bytes (20_memory.md R51). -/
abbrev PmWord := BitVec 16

/-- A packet-memory address: a 16-bit byte offset (20_memory.md R52). -/
abbrev PmAddr := BitVec 16

/-- A host address, `LEN_W` bits (20_memory.md R54, R55). -/
abbrev HostAddr := BitVec 32

/-- A byte length of `LEN_W` bits (00_scope.md R5). -/
abbrev Len := BitVec 32

/-- A byte count of the buffer-descriptor table, `COUNT_W` bits (10_state.md R40, R42). -/
abbrev Count := BitVec 10

/-- A command word `W[79:0]` (30_encoding.md R76). -/
abbrev CommandWord := BitVec 80

end Sys2Proof
end

