-- ==== Sys2Proof/Syntax.lean ====
section
/-! DEFINITION. The seventeen operations and their operands (30_encoding.md R80). -/

namespace Sys2Proof

/-- The direction of an endpoint record (10_state.md R16): OUT moves bytes from the host to the device, IN from the
device to the host (00_scope.md, glossary). -/
inductive Direction where
  | OUT
  | IN
  deriving DecidableEq, Repr

/-- The four transfer types (10_state.md R17). -/
inductive EpType where
  | control
  | isochronous
  | bulk
  | interrupt
  deriving DecidableEq, Repr

/-- The buffering mode of a record (10_state.md R19). -/
inductive Buffering where
  | single
  | double
  deriving DecidableEq, Repr

/-- An endpoint address `ea`: a direction and an endpoint number (30_encoding.md R82). -/
structure EpAddr where
  dir : Direction
  num : Nat
  deriving DecidableEq, Repr

/-- The operands `buffering_kind` and `memory_address` of `configure`: one address for Single, the pair for Double
(30_encoding.md R83, R85). -/
inductive MemTarget where
  | single (address : PmAddr)
  | double (address0 address1 : PmAddr)
  deriving DecidableEq, Repr

/-- One constructor per row of 30_encoding.md R80. Endpoint numbers are plain numbers, bounded by `WellFormed`. -/
inductive Instr where
  | configure (ea : EpAddr) (target : MemTarget)
  | write (buffer : HostAddr) (address : PmAddr) (byteCount : BitVec 16)
  | read (address : PmAddr) (buffer : HostAddr) (byteCount : BitVec 16)
  | activate (ea : EpAddr) (typeCode : BitVec 8) (maxPacketSize : Len)
  | deactivate (ea : EpAddr)
  | stall (ea : EpAddr)
  | startTransfer (ea : EpAddr)
  | init (endpointCount : BitVec 8) (handlePresent instancePresent : Bool)
  | enableInterrupts
  | disableInterrupts
  | start
  | activateRemoteWakeup
  | deactivateRemoteWakeup
  | send (number : Nat) (buffer : HostAddr) (length : Len)
  | receive (number : Nat) (buffer : HostAddr) (length : Len)
  | completeIn (number : Nat)
  | completeOut (number : Nat)
  deriving DecidableEq, Repr

end Sys2Proof
end

