-- ==== Sys2Proof/WellFormed.lean ====
section
/-! DEFINITION. What an instruction's operands must satisfy for it to have an encoding: an endpoint number fits the
seven bits `A[6:0]` (30_encoding.md R82). Every other operand is bounded by its type. -/

namespace Sys2Proof

/-- An endpoint number fits `A[6:0]` (30_encoding.md R82). -/
def numberFits (n : Nat) : Bool := decide (n < 128)

/-- The check on each constructor's operands. -/
def Instr.wellFormed : Instr → Bool
  | .configure ea _ => numberFits ea.num
  | .write _ _ _ => true
  | .read _ _ _ => true
  | .activate ea _ _ => numberFits ea.num
  | .deactivate ea => numberFits ea.num
  | .stall ea => numberFits ea.num
  | .startTransfer ea => numberFits ea.num
  | .init _ _ _ => true
  | .enableInterrupts => true
  | .disableInterrupts => true
  | .start => true
  | .activateRemoteWakeup => true
  | .deactivateRemoteWakeup => true
  | .send n _ _ => numberFits n
  | .receive n _ _ => numberFits n
  | .completeIn n => numberFits n
  | .completeOut n => numberFits n

/-- An instruction that has an encoding. -/
abbrev WellFormed (i : Instr) : Prop := i.wellFormed = true

end Sys2Proof
end

