-- ==== Sys2Proof/Decode.lean ====
section
/-! DEFINITION. The decoder, total on all `2^80` command words (30_encoding.md R89), and the encoder, both written
from the tables of 30_encoding.md R76, R80 and R82 to R87. -/

namespace Sys2Proof

/-- Why a word is illegal (30_encoding.md R88): its `OP` is none of `0x01 .. 0x11`, or a must-be-zero bit of the row is
set. Both are answered `IllegalCommand`. -/
inductive DecodeError where
  | reservedOpcode (op : BitVec 8)
  | mustBeZeroBitSet (op : BitVec 8)
  deriving DecidableEq, Repr

/-- Field `OP`, `W[79:72]` (30_encoding.md R76). -/
def opField (w : CommandWord) : BitVec 8 := w.extractLsb' 72 8

/-- Field `A`, `W[71:64]` (30_encoding.md R76). -/
def aField (w : CommandWord) : BitVec 8 := w.extractLsb' 64 8

/-- Field `B`, `W[63:32]` (30_encoding.md R76). -/
def bField (w : CommandWord) : BitVec 32 := w.extractLsb' 32 32

/-- Field `C`, `W[31:0]` (30_encoding.md R76). -/
def cField (w : CommandWord) : BitVec 32 := w.extractLsb' 0 32

/-- The four fields joined, `OP` most significant (30_encoding.md R76, R77). -/
def pack (op a : BitVec 8) (b c : BitVec 32) : CommandWord := op ++ a ++ b ++ c

/-- `A[6:0]` as an endpoint number (30_encoding.md R82). -/
def numberOf (a : BitVec 8) : Nat := (a.extractLsb' 0 7).toNat

/-- `ea`: bit 7 set is IN, clear is OUT; the number is bits 6:0 (30_encoding.md R82). -/
def epAddrOf (a : BitVec 8) : EpAddr :=
  { dir := if a.getLsbD 7 then .IN else .OUT, num := numberOf a }

/-- The low half of a 32-bit operand. -/
def lowHalf (c : BitVec 32) : BitVec 16 := c.extractLsb' 0 16

/-- The high half of a 32-bit operand. -/
def highHalf (c : BitVec 32) : BitVec 16 := c.extractLsb' 16 16

/-- `buffering_kind` and `memory_address` of CONFIGURE (30_encoding.md R83, R85): with `B[0] = 0` the half `C[31:16]` is
ignored. -/
def memTargetOf (kind : Bool) (c : BitVec 32) : MemTarget :=
  if kind then .double (lowHalf c) (highHalf c) else .single (lowHalf c)

/-- An instruction, if the row's must-be-zero bits are all zero (30_encoding.md R88). -/
def ifZero (op : BitVec 8) (zero : Bool) (i : Instr) : Except DecodeError Instr :=
  if zero then .ok i else .error (.mustBeZeroBitSet op)

/-- The decode procedure (30_encoding.md R89): `OP`, then the row's must-be-zero bits, then the operands. -/
def decode (w : CommandWord) : Except DecodeError Instr :=
  let op := opField w
  let a := aField w
  let b := bField w
  let c := cField w
  if op = 0x01 then
    ifZero op (b.extractLsb' 1 31 == 0) (.configure (epAddrOf a) (memTargetOf (b.getLsbD 0) c))
  else if op = 0x02 then ifZero op (a == 0) (.write b (lowHalf c) (highHalf c))
  else if op = 0x03 then ifZero op (a == 0) (.read (lowHalf c) b (highHalf c))
  else if op = 0x04 then
    ifZero op (b.extractLsb' 8 24 == 0) (.activate (epAddrOf a) (b.extractLsb' 0 8) c)
  else if op = 0x05 then ifZero op (b == 0 && c == 0) (.deactivate (epAddrOf a))
  else if op = 0x06 then ifZero op (b == 0 && c == 0) (.stall (epAddrOf a))
  else if op = 0x07 then ifZero op (b == 0 && c == 0) (.startTransfer (epAddrOf a))
  else if op = 0x08 then
    ifZero op (b.extractLsb' 2 30 == 0 && c == 0) (.init a (b.getLsbD 0) (b.getLsbD 1))
  else if op = 0x09 then ifZero op (a == 0 && b == 0 && c == 0) .enableInterrupts
  else if op = 0x0A then ifZero op (a == 0 && b == 0 && c == 0) .disableInterrupts
  else if op = 0x0B then ifZero op (a == 0 && b == 0 && c == 0) .start
  else if op = 0x0C then ifZero op (a == 0 && b == 0 && c == 0) .activateRemoteWakeup
  else if op = 0x0D then ifZero op (a == 0 && b == 0 && c == 0) .deactivateRemoteWakeup
  else if op = 0x0E then .ok (.send (numberOf a) b c)
  else if op = 0x0F then .ok (.receive (numberOf a) b c)
  else if op = 0x10 then ifZero op (b == 0 && c == 0) (.completeIn (numberOf a))
  else if op = 0x11 then ifZero op (b == 0 && c == 0) (.completeOut (numberOf a))
  else .error (.reservedOpcode op)

/-- The instruction the decoder reads from a word given as a number, bit 0 the least significant bit of `W`
(spec/opcode_table.json numbers the 80 bits as 30_encoding.md R76 does); bits above `nbits` are zero. -/
def decodeTableWord (nbits w : Nat) : Option Instr :=
  if w < 2 ^ 80 then (decode (BitVec.ofNat 80 (w % 2 ^ nbits))).toOption else none

/-- Field `A` of an endpoint address (30_encoding.md R82). -/
def encodeEpAddr (ea : EpAddr) : BitVec 8 :=
  BitVec.ofBool (decide (ea.dir = .IN)) ++ BitVec.ofNat 7 ea.num

/-- Field `A` of an endpoint number; the ignored bit `A[7]` is encoded 0 (30_encoding.md R80). -/
def encodeNumber (n : Nat) : BitVec 8 := (0 : BitVec 1) ++ BitVec.ofNat 7 n

/-- Fields `B` and `C` of CONFIGURE; the ignored half is encoded 0 (30_encoding.md R80, R83). -/
def encodeConfigure (ea : EpAddr) : MemTarget → CommandWord
  | .single address => pack 0x01 (encodeEpAddr ea) 0 ((0 : BitVec 16) ++ address)
  | .double address0 address1 => pack 0x01 (encodeEpAddr ea) 1 (address1 ++ address0)

/-- The command word of an instruction (30_encoding.md R80). -/
def encode : Instr → CommandWord
  | .configure ea target => encodeConfigure ea target
  | .write buffer address byteCount => pack 0x02 0 buffer (byteCount ++ address)
  | .read address buffer byteCount => pack 0x03 0 buffer (byteCount ++ address)
  | .activate ea typeCode mps => pack 0x04 (encodeEpAddr ea) ((0 : BitVec 24) ++ typeCode) mps
  | .deactivate ea => pack 0x05 (encodeEpAddr ea) 0 0
  | .stall ea => pack 0x06 (encodeEpAddr ea) 0 0
  | .startTransfer ea => pack 0x07 (encodeEpAddr ea) 0 0
  | .init count handle instancePtr =>
    pack 0x08 count ((0 : BitVec 30) ++ BitVec.ofBool instancePtr ++ BitVec.ofBool handle) 0
  | .enableInterrupts => pack 0x09 0 0 0
  | .disableInterrupts => pack 0x0A 0 0 0
  | .start => pack 0x0B 0 0 0
  | .activateRemoteWakeup => pack 0x0C 0 0 0
  | .deactivateRemoteWakeup => pack 0x0D 0 0 0
  | .send n buffer length => pack 0x0E (encodeNumber n) buffer length
  | .receive n buffer length => pack 0x0F (encodeNumber n) buffer length
  | .completeIn n => pack 0x10 (encodeNumber n) 0 0
  | .completeOut n => pack 0x11 (encodeNumber n) 0 0

/-- The bits of a word that decide what it means: all but the ignored bits of its row (30_encoding.md R80, column
"ignored bits"). -/
def meaningfulBits : Instr → CommandWord
  | .configure _ (.single _) => 0xFFFFFFFFFFFF0000FFFF
  | .configure _ (.double _ _) => 0xFFFFFFFFFFFFFFFFFFFF
  | .send _ _ _ => 0xFF7FFFFFFFFFFFFFFFFF
  | .receive _ _ _ => 0xFF7FFFFFFFFFFFFFFFFF
  | .completeIn _ => 0xFF7FFFFFFFFFFFFFFFFF
  | .completeOut _ => 0xFF7FFFFFFFFFFFFFFFFF
  | .write _ _ _ => 0xFFFFFFFFFFFFFFFFFFFF
  | .read _ _ _ => 0xFFFFFFFFFFFFFFFFFFFF
  | .activate _ _ _ => 0xFFFFFFFFFFFFFFFFFFFF
  | .deactivate _ => 0xFFFFFFFFFFFFFFFFFFFF
  | .stall _ => 0xFFFFFFFFFFFFFFFFFFFF
  | .startTransfer _ => 0xFFFFFFFFFFFFFFFFFFFF
  | .init _ _ _ => 0xFFFFFFFFFFFFFFFFFFFF
  | .enableInterrupts => 0xFFFFFFFFFFFFFFFFFFFF
  | .disableInterrupts => 0xFFFFFFFFFFFFFFFFFFFF
  | .start => 0xFFFFFFFFFFFFFFFFFFFF
  | .activateRemoteWakeup => 0xFFFFFFFFFFFFFFFFFFFF
  | .deactivateRemoteWakeup => 0xFFFFFFFFFFFFFFFFFFFF

/-- A row of the operation map: its mnemonic and its `match` / `mask` pair (30_encoding.md R80, last paragraph). -/
structure OpcodeRow where
  mnemonic : String
  pattern : CommandWord
  mask : CommandWord
  deriving DecidableEq, Repr

/-- A word selects a row when `W & mask = match` (30_encoding.md R80). -/
def OpcodeRow.selects (r : OpcodeRow) (w : CommandWord) : Bool := w &&& r.mask == r.pattern

/-- The operation map, rows CONFIGURE to INIT (30_encoding.md R80; the pairs of spec/opcode_table.json). -/
def opcodeRowsSetUp : List OpcodeRow :=
  [⟨"CONFIGURE", 0x01000000000000000000, 0xFF00FFFFFFFE00000000⟩,
   ⟨"WRITE", 0x02000000000000000000, 0xFFFF0000000000000000⟩,
   ⟨"READ", 0x03000000000000000000, 0xFFFF0000000000000000⟩,
   ⟨"ACTIVATE", 0x04000000000000000000, 0xFF00FFFFFF0000000000⟩,
   ⟨"DEACTIVATE", 0x05000000000000000000, 0xFF00FFFFFFFFFFFFFFFF⟩,
   ⟨"STALL", 0x06000000000000000000, 0xFF00FFFFFFFFFFFFFFFF⟩,
   ⟨"START_TRANSFER", 0x07000000000000000000, 0xFF00FFFFFFFFFFFFFFFF⟩,
   ⟨"INIT", 0x08000000000000000000, 0xFF00FFFFFFFCFFFFFFFF⟩]

/-- The operation map, rows ENABLE_INTERRUPTS to COMPLETE_OUT (30_encoding.md R80). -/
def opcodeRowsRun : List OpcodeRow :=
  [⟨"ENABLE_INTERRUPTS", 0x09000000000000000000, 0xFFFFFFFFFFFFFFFFFFFF⟩,
   ⟨"DISABLE_INTERRUPTS", 0x0A000000000000000000, 0xFFFFFFFFFFFFFFFFFFFF⟩,
   ⟨"START", 0x0B000000000000000000, 0xFFFFFFFFFFFFFFFFFFFF⟩,
   ⟨"ACTIVATE_REMOTE_WAKEUP", 0x0C000000000000000000, 0xFFFFFFFFFFFFFFFFFFFF⟩,
   ⟨"DEACTIVATE_REMOTE_WAKEUP", 0x0D000000000000000000, 0xFFFFFFFFFFFFFFFFFFFF⟩,
   ⟨"SEND", 0x0E000000000000000000, 0xFF000000000000000000⟩,
   ⟨"RECEIVE", 0x0F000000000000000000, 0xFF000000000000000000⟩,
   ⟨"COMPLETE_IN", 0x10000000000000000000, 0xFF00FFFFFFFFFFFFFFFF⟩,
   ⟨"COMPLETE_OUT", 0x11000000000000000000, 0xFF00FFFFFFFFFFFFFFFF⟩]

/-- The seventeen rows (30_encoding.md R80). -/
def opcodeRows : List OpcodeRow := opcodeRowsSetUp ++ opcodeRowsRun

/-- The row an instruction stands in. -/
def mnemonicOf : Instr → String
  | .configure _ _ => "CONFIGURE"
  | .write _ _ _ => "WRITE"
  | .read _ _ _ => "READ"
  | .activate _ _ _ => "ACTIVATE"
  | .deactivate _ => "DEACTIVATE"
  | .stall _ => "STALL"
  | .startTransfer _ => "START_TRANSFER"
  | .init _ _ _ => "INIT"
  | .enableInterrupts => "ENABLE_INTERRUPTS"
  | .disableInterrupts => "DISABLE_INTERRUPTS"
  | .start => "START"
  | .activateRemoteWakeup => "ACTIVATE_REMOTE_WAKEUP"
  | .deactivateRemoteWakeup => "DEACTIVATE_REMOTE_WAKEUP"
  | .send _ _ _ => "SEND"
  | .receive _ _ _ => "RECEIVE"
  | .completeIn _ => "COMPLETE_IN"
  | .completeOut _ => "COMPLETE_OUT"

end Sys2Proof
end

