-- ==== Sys2Proof/Config.lean ====
section
/-! DEFINITION. What one implementation fixes (the parameters of 00_scope.md R5, at their defaults) and the free
values, constants without a body of which no proof can see a value. -/

namespace Sys2Proof

/-- The two settings of `ODD_WRITE_POLICY` (20_memory.md R58). -/
inductive OddWritePolicy where
  | overread
  | maskZero
  deriving DecidableEq, Repr

/-- `N`, the endpoint slots per direction (00_scope.md R5, D3). DESIGN CHOICE: the spec's default, log 1. -/
abbrev Config.N : Nat := 8

/-- `PM_WORDS`, the 16-bit words of packet memory (00_scope.md R5, D4). DESIGN CHOICE: the default, log 1. -/
abbrev Config.pmWords : Nat := 512

/-- `BTABLE_FIXED` (00_scope.md R5, D6). DESIGN CHOICE: the default, log 1. -/
abbrev Config.btableFixed : BitVec 16 := 0

/-- `STALL_STRICT_GT` (00_scope.md R5, D29, 90_conflicts.md C1). DESIGN CHOICE: the default, log 1. -/
abbrev Config.stallStrictGt : Bool := true

/-- `ODD_WRITE_POLICY` (00_scope.md R5, D24). DESIGN CHOICE: the default, log 1. -/
abbrev Config.oddWritePolicy : OddWritePolicy := .overread

/-- The least byte count that does not fit a count field, `2^COUNT_W` (10_state.md R42). -/
abbrev Config.countLimit : Nat := 1024

/-- The number of host addresses, `2^LEN_W` (20_memory.md R54). -/
abbrev Config.hostSize : Nat := 4294967296

/-- FREE VALUE: the packet-memory byte at an offset after power-on, "unspecified (any value)" (10_state.md R47). Log 8. -/
opaque Config.powerOnPmByte : Nat → Byte

/-- FREE VALUE: what caller memory holds where neither the block nor the environment has written (20_memory.md R54). Log 9. -/
opaque Config.callerByte : Nat → Byte

/-- FREE VALUE: the address fields of the descriptor table after power-on, "unspecified (any value)" (10_state.md R47):
field `addr_tx` of entry `n` is index `2n`, field `addr_rx` index `2n + 1`. Log 10. -/
opaque Config.powerOnTableAddr : Nat → PmAddr

/-- FREE VALUE: the count fields of the descriptor table after power-on, indexed as `powerOnTableAddr`
(10_state.md R47). Log 10. -/
opaque Config.powerOnTableCount : Nat → Count

/-- FREE VALUE: the k-th byte drawn while the machine runs: the over-read byte outside the caller region
(20_memory.md R58) and the high byte of the last word of an odd received packet (45_requests_completion.md R174). Log 7. -/
opaque Config.drawnByte : Nat → Byte

end Sys2Proof
end

