-- ==== Sys2Proof/Machine/State.lean ====
section
/-! DEFINITION. The state of the block as plain data (10_state.md, 20_memory.md), the reasons a run stops, and the
power-on state. -/

namespace Sys2Proof.Machine

/-- A slot of a direction, an index below `N` (10_state.md R14). -/
abbrev Slot := Fin Config.N

/-- A byte-addressed memory: the bytes written so far, addresses strictly rising. -/
abbrev Memory := List Host.Cell

/-- The canonical form of a memory: strictly rising addresses. An unlisted address has no byte of its own (what it
reads as is a free value, log 8 and log 9), so no entry can equal it. -/
abbrev Memory.wf (m : Memory) : Prop := m.Pairwise (fun x y => x.1 < y.1)

/-- `dev.state` (10_state.md R28). -/
inductive DevState where
  | reset
  | busy
  | ready
  | error
  deriving DecidableEq, Repr

/-- The device context without its endpoint arrays (10_state.md R27 to R30). -/
structure DeviceContext where
  state : DevState
  address : BitVec 7
  /-- `configured_endpoint_count` (10_state.md R30). -/
  count : BitVec 8
  deriving DecidableEq, Repr

/-- Lifecycle state of a record (10_state.md R25). -/
inductive Lifecycle where
  | disabled
  | configured
  deriving DecidableEq, Repr

/-- The caller region of a transfer (20_memory.md R55; 45_requests_completion.md R161, R163). -/
structure Region where
  base : HostAddr
  len : Len
  deriving DecidableEq, Repr

/-- An endpoint record (10_state.md R14 to R25), with the caller region kept beside it
(45_requests_completion.md R161; log 6). -/
structure EndpointRecord where
  number : BitVec 7
  direction : Direction
  /-- The type code the command carried (10_state.md R17). -/
  typeCode : BitVec 8
  maxPacketSize : Len
  buffering : Buffering
  address : PmAddr
  address0 : PmAddr
  address1 : PmAddr
  transferBuffer : HostAddr
  remainingLength : Len
  remainingLengthSecondary : Len
  transferCount : Len
  stalled : Bool
  lifecycle : Lifecycle
  region : Option Region
  deriving DecidableEq, Repr

/-- The status of a direction (10_state.md R31, R33). -/
inductive Status where
  | disabled
  | stall
  | nak
  | valid
  deriving DecidableEq, Repr

/-- A per-endpoint register `epr[n]` (10_state.md R31). -/
structure EndpointRegister where
  epType : EpType
  kind : Bool
  statTx : Status
  statRx : Status
  dtogTx : Bool
  dtogRx : Bool
  ctrTx : Bool
  ctrRx : Bool
  deriving DecidableEq, Repr

/-- The late wire steps of an endpoint number, one per direction: a wire step that was enabled when `stall` or
`deactivate` took the status `Valid` away is not withdrawn (70_reset_and_hazards.md R217; log 26). `statusOnly`: the OUT
step was enabled for an empty packet only (45_requests_completion.md R175). A flag has meaning while the status of its
direction is not `Valid`. -/
structure LateWire where
  tx : Bool
  rx : Bool
  statusOnly : Bool
  deriving DecidableEq, Repr

/-- An entry of the buffer-descriptor table (10_state.md R40). Buffer 0 of a double-buffered endpoint number is
(`addrTx`, `countTx`), buffer 1 is (`addrRx`, `countRx`) (R41). -/
structure BdtEntry where
  addrTx : PmAddr
  countTx : Count
  addrRx : PmAddr
  countRx : Count
  deriving DecidableEq, Repr

/-- The global control / interrupt-mask register (10_state.md R35). -/
structure ControlRegister where
  ctrm : Bool
  wkupm : Bool
  suspm : Bool
  errm : Bool
  sofm : Bool
  esofm : Bool
  resetm : Bool
  l1reqm : Bool
  fres : Bool
  resume : Bool
  deriving DecidableEq, Repr

/-- The stored flags of the interrupt-status register; `istr.ctr` is computed (10_state.md R36). -/
structure InterruptStatus where
  wkup : Bool
  susp : Bool
  err : Bool
  sof : Bool
  esof : Bool
  reset : Bool
  l1req : Bool
  deriving DecidableEq, Repr

/-- The six sources of `bus_event` (60_exceptions.md R192). -/
inductive BusSource where
  | wakeup
  | suspend
  | error
  | startOfFrame
  | endOfFrame
  | lowPowerRequest
  deriving DecidableEq, Repr

/-- The seven stored flags of `istr` (60_exceptions.md R192): those of the six bus events, and `reset`. -/
inductive StoredFlag where
  | event (source : BusSource)
  | reset
  deriving DecidableEq, Repr

/-- What may come next between two steps: a command (30_encoding.md R76), or a step of the environment
(30_encoding.md R92; `callerWrite`: 70_reset_and_hazards.md R218, log 17; `lateWireIn`, `lateWireOut`: a wire step enabled
before `stall` or `deactivate`, R217, log 26). -/
inductive Input where
  | command (word : CommandWord)
  | wireIn (n : Nat)
  | wireOut (n : Nat) (bytes : List Byte)
  | lateWireIn (n : Nat)
  | lateWireOut (n : Nat) (bytes : List Byte)
  | busEvent (source : BusSource)
  | clearFlag (flag : StoredFlag)
  | busReset
  | fatal
  | callerWrite (address : HostAddr) (byte : Byte)
  deriving DecidableEq, Repr

/-- The answer to a command (30_encoding.md R78). -/
inductive Response where
  | ok
  | nullHandle
  | nullInstance
  | invalidEndpointType
  | illegalCommand
  deriving DecidableEq, Repr

/-- How the wire answers a request it does not serve (45_requests_completion.md R173, R175). -/
inductive Handshake where
  | notReady
  | stalled
  | ignored
  deriving DecidableEq, Repr

/-- What leaves the block in a step: `in_done`, `out_done` (45_requests_completion.md R170), `tx_packet` with its data and
toggle (R172), and a handshake of the wire (R173, R175). -/
inductive Signal where
  | inDone (n : Nat)
  | outDone (n : Nat) (count : Len)
  | txPacket (n : Nat) (data : List Byte) (toggle : Bool)
  | handshake (n : Nat) (dir : Direction) (answer : Handshake)
  deriving DecidableEq, Repr

/-- The whole state (10_state.md, summary). `inputs`, `response` and `signals` are the block's ports (log 2, log 4);
`draws` is the model's own counter of free bytes drawn (log 7). -/
structure State where
  dev : DeviceContext
  epIn : Vector EndpointRecord Config.N
  epOut : Vector EndpointRecord Config.N
  epr : Vector EndpointRegister Config.N
  lateWire : Vector LateWire Config.N
  bdt : Vector BdtEntry Config.N
  cntr : ControlRegister
  istr : InterruptStatus
  btable : BitVec 16
  pullup : Bool
  pm : Memory
  host : Memory
  inputs : List Input
  response : Option Response
  signals : List Signal
  draws : Nat
  deriving DecidableEq, Repr

/-- No stop of the spec is a fault of the machine: an error is an answer (60_exceptions.md R181, R203) and everything
else that stops a run is a refusal (R186). Nothing raises a fault. Safe. Log 12. -/
inductive Fault where
  deriving DecidableEq, Repr

/-- Why a run has no next state. But for `notModelled`, each is a `refuse(reason)` of the spec (60_exceptions.md R186)
or an environment step the spec does not enable; all are safe: the run ends and nothing is claimed of it. -/
inductive Refusal where
  /-- An instruction without a meaning; raised by no arm of `exec`. Safe. -/
  | notModelled (mnemonic : String)
  /-- A slot `n >= dev.configured_endpoint_count`, or `n >= N`; every endpoint command (10_state.md R26; `stall`: 42_lifecycle.md
  R121). Safe. -/
  | slotOutOfRange
  /-- An odd address at `configure` (40_registry.md R96). Safe. -/
  | oddPacketAddress
  /-- A packet-memory request that is odd or runs past the end (20_memory.md R53). Safe. -/
  | packetMemoryRange
  /-- `activate` with `max_packet_size = 0` (42_lifecycle.md R112). Safe. -/
  | zeroMaxPacket
  /-- A byte count that does not fit a count field (10_state.md R42). Safe. -/
  | countTooLarge
  /-- `init` with `endpoint_count > N` (44_bringup.md R146). Safe. -/
  | countExceedsSlots
  /-- A scheduling step on an IN double-buffered Control or Interrupt record (43_scheduler.md R135). Safe. -/
  | inDoubleOtherType
  /-- A completion on a double-buffered record, the parameter `DbCompletion` absent (45_requests_completion.md R167). Safe. -/
  | dbCompletionOpen
  /-- A completion with no flag pending (45_requests_completion.md R166, R168). Safe. -/
  | noCompletionPending
  /-- A command other than `init` while `dev.state` is not `Ready` (60_exceptions.md R188). Safe. -/
  | notReady
  /-- A caller-memory access outside the caller region (20_memory.md R55, 60_exceptions.md R186). Safe. -/
  | outsideCallerRegion
  /-- A wire step while `pullup = 0` or for a number `>= N` (45_requests_completion.md R171), or a late wire step where none
  is left over from `stall` or `deactivate` (70_reset_and_hazards.md R217). Safe. -/
  | wireStepNotEnabled
  /-- A wire step on an endpoint number in double-buffer mode, the parameter `WireDb` absent (45_requests_completion.md R176). Safe. -/
  | wireDbOpen
  /-- A received packet longer than the receive buffer (45_requests_completion.md R174). Safe. -/
  | packetTooLong
  /-- A bus reset while `pullup = 0` (60_exceptions.md R193). Safe. -/
  | busResetNotEnabled
  deriving DecidableEq, Repr

/-- A record at construction: every field zero (10_state.md R47), no region borrowed (log 6). -/
def EndpointRecord.zero : EndpointRecord where
  number := 0
  direction := .OUT
  typeCode := 0
  maxPacketSize := 0
  buffering := .single
  address := 0
  address0 := 0
  address1 := 0
  transferBuffer := 0
  remainingLength := 0
  remainingLengthSecondary := 0
  transferCount := 0
  stalled := false
  lifecycle := .disabled
  region := none

/-- A per-endpoint register at power-on: every field 0 (10_state.md R47). -/
def EndpointRegister.zero : EndpointRegister where
  epType := .bulk
  kind := false
  statTx := .disabled
  statRx := .disabled
  dtogTx := false
  dtogRx := false
  ctrTx := false
  ctrRx := false

/-- No late wire step is left over. -/
def LateWire.none : LateWire where
  tx := false
  rx := false
  statusOnly := false

/-- Entry `n` of the table at power-on: any value (10_state.md R47), log 10. -/
def BdtEntry.powerOn (n : Nat) : BdtEntry where
  addrTx := Config.powerOnTableAddr (2 * n)
  countTx := Config.powerOnTableCount (2 * n)
  addrRx := Config.powerOnTableAddr (2 * n + 1)
  countRx := Config.powerOnTableCount (2 * n + 1)

/-- The control register at power-on: every field 0 (10_state.md R47). -/
def ControlRegister.zero : ControlRegister where
  ctrm := false
  wkupm := false
  suspm := false
  errm := false
  sofm := false
  esofm := false
  resetm := false
  l1reqm := false
  fres := false
  resume := false

/-- The interrupt-status register at power-on: every stored flag 0 (10_state.md R47). -/
def InterruptStatus.zero : InterruptStatus where
  wkup := false
  susp := false
  err := false
  sof := false
  esof := false
  reset := false
  l1req := false

/-- The state after power-on (10_state.md R47): the block waits for commands, and nothing is queued. -/
def State.reset : State where
  dev := { state := .reset, address := 0, count := 0 }
  epIn := Vector.replicate Config.N EndpointRecord.zero
  epOut := Vector.replicate Config.N EndpointRecord.zero
  epr := Vector.replicate Config.N EndpointRegister.zero
  lateWire := Vector.replicate Config.N LateWire.none
  bdt := Vector.ofFn (fun i => BdtEntry.powerOn i.val)
  cntr := ControlRegister.zero
  istr := InterruptStatus.zero
  btable := 0
  pullup := false
  pm := []
  host := []
  inputs := []
  response := none
  signals := []
  draws := 0

end Sys2Proof.Machine
end

