-- ==== Sys2Proof/Machine/Operands.lean ====
section
/-! DEFINITION. Operand forms and the arithmetic of the block: codes of the enumerations, unsigned arithmetic
(43_scheduler.md R143), packet-memory addresses (20_memory.md R52, R53), the caller region (20_memory.md R55). -/

namespace Sys2Proof.Machine

/-- Command-port type code to type; 4 to 255 are unrecognised (30_encoding.md R84). -/
def epTypeOfCode (code : BitVec 8) : Option EpType :=
  if code = 0 then some .control
  else if code = 1 then some .isochronous
  else if code = 2 then some .bulk
  else if code = 3 then some .interrupt
  else none

/-- The command-port code of a type (10_state.md R17). -/
def portTypeCode : EpType → BitVec 8
  | .control => 0
  | .isochronous => 1
  | .bulk => 2
  | .interrupt => 3

/-- The register code of a type, field `ep_type` (10_state.md R33). -/
def registerTypeCode : EpType → BitVec 2
  | .bulk => 0
  | .control => 1
  | .isochronous => 2
  | .interrupt => 3

/-- The code of a status (10_state.md R33). -/
def statusCode : Status → BitVec 2
  | .disabled => 0
  | .stall => 1
  | .nak => 2
  | .valid => 3

/-- The code of `dev.state` (10_state.md R28). -/
def devStateCode : DevState → BitVec 2
  | .reset => 0
  | .busy => 1
  | .ready => 2
  | .error => 3

/-- The 8-bit response code (30_encoding.md R78). -/
def responseCode : Response → BitVec 8
  | .ok => 0x00
  | .nullHandle => 0x01
  | .nullInstance => 0x02
  | .invalidEndpointType => 0x03
  | .illegalCommand => 0xFF

/-- `ceil_div2` (43_scheduler.md R143). -/
def ceilDiv2 (n : Nat) : Nat := (n + 1) / 2

/-- `round_up_even`, the bytes a buffer for packets of up to `m` bytes occupies (41_transfer_engine.md R107). -/
def roundUpEven (m : Nat) : Nat := 2 * ceilDiv2 m

/-- `-sat` and the guarded subtractions: never below zero (43_scheduler.md R143). -/
def satSub (x : Len) (n : Nat) : Len := BitVec.ofNat 32 (x.toNat - n)

/-- `+w`, addition modulo `2^LEN_W` (43_scheduler.md R143). -/
def addW (x : BitVec 32) (n : Nat) : BitVec 32 := x + BitVec.ofNat 32 n

/-- A byte count as a count field holds it, once it is known to fit (10_state.md R42). -/
def countOf (n : Nat) : Count := BitVec.ofNat 10 n

/-- An address is even: bit 0 is clear (20_memory.md R53). -/
def evenAddr (a : PmAddr) : Bool := !a.getLsbD 0

/-- The byte offset at which the word named by `a`, `PM[a / 2]`, begins (20_memory.md R52). -/
def wordBase (a : PmAddr) : Nat := 2 * (a.toNat / 2)

/-- A request of `n` bytes at `a` ends inside packet memory (20_memory.md R53). -/
def fitsPacketMemory (a : PmAddr) (n : Nat) : Bool := decide (a.toNat / 2 + ceilDiv2 n ≤ Config.pmWords)

/-- A Transfer Engine request is admitted: even address, inside packet memory (20_memory.md R53). -/
def admitted (a : PmAddr) (n : Nat) : Bool := evenAddr a && fitsPacketMemory a n

/-- The host address `x` is an address and lies in the region (20_memory.md R55). -/
def Region.holds (r : Region) (x : Nat) : Bool :=
  decide (r.base.toNat ≤ x) && decide (x < r.base.toNat + r.len.toNat) && decide (x < Config.hostSize)

/-- The `n` bytes from `buf` on are addresses inside the caller region; no byte needs no region (20_memory.md R55). -/
def regionAdmits (r : Option Region) (buf : HostAddr) (n : Nat) : Bool :=
  match r with
  | none => n == 0
  | some r =>
    n == 0 ||
      (decide (r.base.toNat ≤ buf.toNat) && decide (buf.toNat + n ≤ r.base.toNat + r.len.toNat) &&
        decide (buf.toNat + n ≤ Config.hostSize))

/-- The over-read address lies in the caller region (20_memory.md R58). -/
def regionHolds (r : Option Region) (x : Nat) : Bool :=
  match r with
  | none => false
  | some r => r.holds x

/-- `address{k}` of a record: buffer 1 for a set toggle, buffer 0 for a clear one (43_scheduler.md R130, R131). -/
def EndpointRecord.bufferAddress (e : EndpointRecord) (k : Bool) : PmAddr :=
  if k then e.address1 else e.address0

/-- The other direction of an endpoint number. -/
def otherDirection : Direction → Direction
  | .IN => .OUT
  | .OUT => .IN

/-- The type of a record by its stored code (10_state.md R17). -/
def EndpointRecord.epType (e : EndpointRecord) : Option EpType := epTypeOfCode e.typeCode

end Sys2Proof.Machine
end

