-- ==== Sys2Proof/Machine/Flags.lean ====
section
/-! DEFINITION. Every flag the spec computes or writes as a group: `istr.ctr`, `irq`, the eight enables, the reset of a
per-endpoint register, the statuses a fresh activation writes, the wire side's buffer mode. -/

namespace Sys2Proof.Machine

/-- `istr.ctr`: some completion flag is set (10_state.md R36). -/
def istrCtr (s : State) : Bool := s.epr.toList.any (fun r => r.ctrTx || r.ctrRx)

/-- The interrupt output: some source is pending and enabled (10_state.md R39). -/
def irq (s : State) : Bool :=
  (istrCtr s && s.cntr.ctrm) || (s.istr.wkup && s.cntr.wkupm) || (s.istr.susp && s.cntr.suspm) ||
    (s.istr.err && s.cntr.errm) || (s.istr.sof && s.cntr.sofm) || (s.istr.esof && s.cntr.esofm) ||
    (s.istr.reset && s.cntr.resetm) || (s.istr.l1req && s.cntr.l1reqm)

/-- The eight enables written together; `fres` and `resume` stay (44_bringup.md R151, R152). -/
def ControlRegister.setEnables (c : ControlRegister) (v : Bool) : ControlRegister :=
  { c with ctrm := v, wkupm := v, suspm := v, errm := v, sofm := v, esofm := v, resetm := v, l1reqm := v }

/-- What the reset pulse does to `cntr`: the enables and `resume` become 0 (44_bringup.md R148). -/
def ControlRegister.pulsed (c : ControlRegister) : ControlRegister := { c.setEnables false with resume := false }

/-- What a reset does to one per-endpoint register: every field but the completion flags (44_bringup.md R148). -/
def EndpointRegister.afterReset (r : EndpointRegister) : EndpointRegister :=
  { r with
    epType := .bulk, kind := false, statTx := .disabled, statRx := .disabled, dtogTx := false, dtogRx := false }

/-- The completion flags of one register cleared (44_bringup.md R147). -/
def EndpointRegister.clearCompletions (r : EndpointRegister) : EndpointRegister :=
  { r with ctrTx := false, ctrRx := false }

/-- `stat_tx` after an activation: `Disabled` for Isochronous, else `Nak` (42_lifecycle.md R114, R116). -/
def freshStatTx (ty : EpType) : Status := if ty = .isochronous then .disabled else .nak

/-- `stat_rx` after a single-buffered activation: `Valid` for endpoint 0, else `Nak` (42_lifecycle.md R114, R115). -/
def freshStatRx (n : Nat) : Status := if n = 0 then .valid else .nak

/-- `kind` after a double-buffered activation: 1 for Bulk (42_lifecycle.md R116). -/
def freshKind (ty : EpType) : Bool := decide (ty = .bulk)

/-- The endpoint number is in single-buffer mode on the wire side (45_requests_completion.md R172). -/
def EndpointRegister.wireSingle (r : EndpointRegister) : Bool :=
  match r.epType with
  | .control => true
  | .interrupt => true
  | .bulk => !r.kind
  | .isochronous => false

/-- The OUT-status indicator is set on a control endpoint: only an empty packet is enabled (45_requests_completion.md
R175). -/
def EndpointRegister.statusOnly (r : EndpointRegister) : Bool := decide (r.epType = .control) && r.kind

/-- The late wire step of a direction whose status `stall` or `deactivate` is about to take (70_reset_and_hazards.md R217):
of a `Valid` direction exactly what was enabled, by the pull-up, the buffer mode and the status stage
(45_requests_completion.md R171, R172, R174, R175); of any other direction the one left over before. -/
def LateWire.aborted (l : LateWire) (pullup : Bool) (r : EndpointRegister) : Direction → LateWire
  | .IN => { l with tx := if r.statTx = .valid then pullup && r.wireSingle else l.tx }
  | .OUT =>
    { l with
      rx := if r.statRx = .valid then pullup && r.wireSingle else l.rx,
      statusOnly := if r.statRx = .valid then pullup && r.statusOnly else l.statusOnly }

/-- The late wire step of a direction is over: taken, or its status initialised anew (log 26). -/
def LateWire.ended (l : LateWire) : Direction → LateWire
  | .IN => { l with tx := false }
  | .OUT => { l with rx := false, statusOnly := false }

/-- How the wire answers a request of a direction that is not `Valid` (45_requests_completion.md R173; none for `Valid`). -/
def handshakeOf : Status → Option Handshake
  | .nak => some .notReady
  | .stall => some .stalled
  | .disabled => some .ignored
  | .valid => none

/-- The pending flag a bus event sets (60_exceptions.md R189, R192). -/
def InterruptStatus.set (f : InterruptStatus) (source : BusSource) (v : Bool) : InterruptStatus :=
  match source with
  | .wakeup => { f with wkup := v }
  | .suspend => { f with susp := v }
  | .error => { f with err := v }
  | .startOfFrame => { f with sof := v }
  | .endOfFrame => { f with esof := v }
  | .lowPowerRequest => { f with l1req := v }

/-- A stored flag cleared by the environment (60_exceptions.md R192). -/
def InterruptStatus.clear (f : InterruptStatus) : StoredFlag → InterruptStatus
  | .event source => f.set source false
  | .reset => { f with reset := false }

end Sys2Proof.Machine
end

