-- ==== Sys2Proof/Machine/Ops.lean ====
section
/-! DEFINITION. The shared operations: reads and updates of the state, the two memories, the gates every command
passes, the answers, and the two primitives of the Transfer Engine. The block takes no exception (60_exceptions.md
R195); what stands in its place is the error answer `raise` (R181). -/

namespace Sys2Proof.Machine

/-- What a command or an environment step answers. -/
abbrev Result := Host.Outcome State Fault Refusal

/-- Go on with the next state; a stop stays a stop. -/
def andThen (r : Result) (f : State → Result) : Result :=
  match r with
  | .next s => f s
  | .fault e => .fault e
  | .refused e => .refused e

/-! ### Records, registers, table -/

/-- `ep(d, n)` (10_state.md R14). -/
def State.ep (s : State) (d : Direction) (i : Slot) : EndpointRecord :=
  match d with
  | .IN => s.epIn[i]
  | .OUT => s.epOut[i]

/-- `ep(d, n)` replaced by a function of itself. -/
def State.updEp (s : State) (d : Direction) (i : Slot) (f : EndpointRecord → EndpointRecord) : State :=
  { s with
    epIn := match d with
      | .IN => s.epIn.set i.val (f s.epIn[i]) i.isLt
      | .OUT => s.epIn
    epOut := match d with
      | .IN => s.epOut
      | .OUT => s.epOut.set i.val (f s.epOut[i]) i.isLt }

/-- `epr[n]` (10_state.md R31). -/
def State.reg (s : State) (i : Slot) : EndpointRegister := s.epr[i]

/-- `epr[n]` replaced by a function of itself: exact and isolated field updates (10_state.md R32). -/
def State.updReg (s : State) (i : Slot) (f : EndpointRegister → EndpointRegister) : State :=
  { s with epr := s.epr.set i.val (f s.epr[i]) i.isLt }

/-- The late wire steps of endpoint number `n` (70_reset_and_hazards.md R217). -/
def State.late (s : State) (i : Slot) : LateWire := s.lateWire[i]

/-- The late wire steps of endpoint number `n` replaced by a function of themselves. -/
def State.updLate (s : State) (i : Slot) (f : LateWire → LateWire) : State :=
  { s with lateWire := s.lateWire.set i.val (f s.lateWire[i]) i.isLt }

/-- No late wire step is left over, of any endpoint number (log 26). -/
def State.endLate (s : State) : State := { s with lateWire := Vector.replicate Config.N LateWire.none }

/-- `bdt[n]` (10_state.md R40). -/
def State.table (s : State) (i : Slot) : BdtEntry := s.bdt[i]

/-- `bdt[n]` replaced by a function of itself. -/
def State.updTable (s : State) (i : Slot) (f : BdtEntry → BdtEntry) : State :=
  { s with bdt := s.bdt.set i.val (f s.bdt[i]) i.isLt }

/-- `count{k}`: `count_rx` is count 1, `count_tx` is count 0 (10_state.md R41, 43_scheduler.md R131). -/
def State.setCount (s : State) (i : Slot) (k : Bool) (n : Nat) : State :=
  s.updTable i (fun b =>
    if k then { b with countRx := countOf n } else { b with countTx := countOf n })

/-- `stat_tx <- v`, no other field (10_state.md R32). -/
def State.setStatTx (s : State) (i : Slot) (v : Status) : State := s.updReg i (fun r => { r with statTx := v })

/-- `stat_rx <- v`, no other field (10_state.md R32). -/
def State.setStatRx (s : State) (i : Slot) (v : Status) : State := s.updReg i (fun r => { r with statRx := v })

/-- `kind <- v`, no other field (10_state.md R32, R34). -/
def State.setKind (s : State) (i : Slot) (v : Bool) : State := s.updReg i (fun r => { r with kind := v })

/-- Every per-endpoint register replaced by a function of itself. -/
def State.mapRegs (s : State) (f : EndpointRegister → EndpointRegister) : State :=
  { s with epr := Vector.ofFn (fun i => f s.epr[i]) }

/-- Every record of both directions replaced by a function of itself. -/
def State.mapEps (s : State) (f : EndpointRecord → EndpointRecord) : State :=
  { s with epIn := Vector.ofFn (fun i => f s.epIn[i]), epOut := Vector.ofFn (fun i => f s.epOut[i]) }

/-! ### Ports -/

/-- The answer to the command (30_encoding.md R76, R78). -/
def State.respond (s : State) (r : Response) : State := { s with response := some r }

/-- An output towards the upstream stack or the host (45_requests_completion.md R170, R172). -/
def State.emit (s : State) (x : Signal) : State := { s with signals := s.signals ++ [x] }

/-- The next input taken from the schedule, the outputs of the last step withdrawn (log 2, log 4). -/
def State.take (s : State) (rest : List Input) : State :=
  { s with inputs := rest, response := none, signals := [] }

/-- `return Ok`. -/
def answerOk (s : State) : Result := .next (s.respond .ok)

/-- `raise <Error>`: the response code and no state change (60_exceptions.md R181). -/
def raise (e : Response) (s : State) : Result := .next (s.respond e)

/-- The first input of the schedule and the state without it; none while the block waits (10_state.md R13). -/
def fetch (s : State) : Option (Input × State) :=
  match s.inputs with
  | [] => none
  | x :: rest => some (x, s.take rest)

/-! ### The gates of a command -/

/-- Every command but `init` needs `dev.state = Ready` (60_exceptions.md R188). -/
def requireReady (s : State) (k : Result) : Result :=
  if s.dev.state = .ready then k else .refused .notReady

/-- The slot named by a number: below the configured count, and existing (10_state.md R26, 70_reset_and_hazards.md R219;
log 18). -/
def withSlot (s : State) (n : Nat) (k : Slot → Result) : Result :=
  if h : n < Config.N then
    if n < s.dev.count.toNat then k ⟨n, h⟩ else .refused .slotOutOfRange
  else .refused .slotOutOfRange

/-! ### Memories -/

/-- The byte listed at an address. -/
def memGet : Memory → Nat → Option Byte
  | [], _ => none
  | c :: m, x => if x = c.1 then some c.2 else memGet m x

/-- A byte stored, the canonical form kept. -/
def memSet : Memory → Nat → Byte → Memory
  | [], x, v => [(x, v)]
  | c :: m, x, v =>
    if x < c.1 then (x, v) :: c :: m
    else if x = c.1 then (x, v) :: m
    else c :: memSet m x v

/-- Bytes stored at rising addresses from `x` on. -/
def storeBytes : Memory → Nat → List Byte → Memory
  | m, _, [] => m
  | m, x, v :: vs => storeBytes (memSet m x v) (x + 1) vs

/-- `n` bytes read at rising addresses from `x` on. -/
def loadBytes (read : Nat → Byte) : Nat → Nat → List Byte
  | _, 0 => []
  | x, n + 1 => read x :: loadBytes read (x + 1) n

/-- A byte of packet memory at a byte offset; any value where nothing has been written (10_state.md R47; log 8). -/
def pmByte (s : State) (x : Nat) : Byte := (memGet s.pm x).getD (Config.powerOnPmByte x)

/-- `PM[i]`: the byte at the lower offset in bits 7:0, the next in bits 15:8 (20_memory.md R51, R57). -/
def pmWord (s : State) (i : Nat) : PmWord := pmByte s (2 * i + 1) ++ pmByte s (2 * i)

/-- `MemRead(addr, 1)` (20_memory.md R55); any value where nothing has been written (log 9). -/
def hostByte (s : State) (x : Nat) : Byte := (memGet s.host x).getD (Config.callerByte x)

/-- Bytes stored to packet memory. -/
def State.storePm (s : State) (x : Nat) (vs : List Byte) : State := { s with pm := storeBytes s.pm x vs }

/-- Bytes stored to caller memory. -/
def State.storeHost (s : State) (x : Nat) (vs : List Byte) : State := { s with host := storeBytes s.host x vs }

/-- Free bytes taken: the counter advances (log 7). -/
def State.addDraws (s : State) (k : Nat) : State := { s with draws := s.draws + k }

/-! ### The Transfer Engine's primitives -/

/-- The high byte of the last word of an odd `write`: zero under `mask_zero`; under `overread` the byte past the end, a
free byte when that address is outside the caller region (20_memory.md R58, 41_transfer_engine.md R101, R103). -/
def padByte (policy : OddWritePolicy) (region : Option Region) (x : Nat) (s : State) : Byte :=
  match policy with
  | .maskZero => 0
  | .overread => if regionHolds region x then hostByte s x else Config.drawnByte s.draws

/-- The bytes `write` stores: the `n` bytes of the buffer, and for odd `n` the high byte of the last word
(41_transfer_engine.md R101). -/
def packetBytes (policy : OddWritePolicy) (region : Option Region) (buf : HostAddr) (n : Nat) (s : State) : List Byte :=
  loadBytes (hostByte s) buf.toNat n ++
    (if n % 2 = 1 then [padByte policy region (buf.toNat + n) s] else [])

/-- How many free bytes this `write` draws. -/
def padDraws (policy : OddWritePolicy) (region : Option Region) (buf : HostAddr) (n : Nat) : Nat :=
  if n % 2 = 1 ∧ policy = .overread ∧ regionHolds region (buf.toNat + n) = false then 1 else 0

/-- The state after an admitted `write`: the words from `PM[a/2]` on (41_transfer_engine.md R101). -/
def afterWrite (policy : OddWritePolicy) (region : Option Region) (buf : HostAddr) (a : PmAddr) (n : Nat) (s : State) :
    State :=
  (s.storePm (wordBase a) (packetBytes policy region buf n s)).addDraws (padDraws policy region buf n)

/-- Primitive `PmaWrite(buf, a, n)` (41_transfer_engine.md R101): the range check, the caller region, then the words. -/
def pmaWrite (policy : OddWritePolicy) (region : Option Region) (buf : HostAddr) (a : PmAddr) (n : Nat) (s : State) :
    Result :=
  if admitted a n then
    if regionAdmits region buf n then .next (afterWrite policy region buf a n s)
    else .refused .outsideCallerRegion
  else .refused .packetMemoryRange

/-- The state after an admitted `read`: exactly `n` caller bytes, the high byte of the last word of an odd request
dropped (41_transfer_engine.md R104). -/
def afterRead (a : PmAddr) (buf : HostAddr) (n : Nat) (s : State) : State :=
  s.storeHost buf.toNat (loadBytes (pmByte s) (wordBase a) n)

/-- Primitive `PmaRead(a, buf, n)` (41_transfer_engine.md R104): the range check, the caller region, then the bytes. -/
def pmaRead (region : Option Region) (a : PmAddr) (buf : HostAddr) (n : Nat) (s : State) : Result :=
  if admitted a n then
    if regionAdmits region buf n then .next (afterRead a buf n s)
    else .refused .outsideCallerRegion
  else .refused .packetMemoryRange

end Sys2Proof.Machine
end

