-- ==== Sys2Proof/Machine/Bringup.lean ====
section
/-! DEFINITION. Controller Bring-up: `init`, the interrupt masks, `start`, remote wakeup (44_bringup.md). -/

namespace Sys2Proof.Machine

/-- A record after `init`: descriptor and transfer fields zero; `buffering`, the addresses and `stalled` kept
(44_bringup.md R147); no transfer borrows a buffer (log 6). -/
def EndpointRecord.initialised (e : EndpointRecord) : EndpointRecord :=
  { e with
    direction := .OUT, number := 0, typeCode := 0, maxPacketSize := 0, transferBuffer := 0,
    remainingLength := 0, remainingLengthSecondary := 0, transferCount := 0, lifecycle := .disabled,
    region := none }

/-- The reset pulse (44_bringup.md R148): every per-endpoint register but its completion flags, the enables, `resume`. -/
def peripheralReset (s : State) : State :=
  { s.mapRegs (·.afterReset) with cntr := s.cntr.pulsed }

/-- `fres <- v` (44_bringup.md R147). -/
def State.setFres (s : State) (v : Bool) : State := { s with cntr := { s.cntr with fres := v } }

/-- The effects of a successful `init`, in the order of 44_bringup.md R147; a transfer in flight is abandoned, its late wire
steps too (R149; log 26). -/
def initEffects (count : BitVec 8) (s : State) : State :=
  let s1 := { s with dev := { s.dev with state := .busy, count := count } }
  let s2 := s1.mapEps (·.initialised)
  let s3 := (peripheralReset (s2.setFres true)).setFres false
  let s4 := { s3 with istr := InterruptStatus.zero }
  let s5 := s4.mapRegs (·.clearCompletions)
  let s6 := { s5 with btable := Config.btableFixed }
  { s6.endLate with dev := { s6.dev with address := 0, state := .ready } }

/-- INIT, accepted in every `dev.state`: the handle first, then the instance, then the count (44_bringup.md R146,
60_exceptions.md R194). -/
def execInit (count : BitVec 8) (handlePresent instancePresent : Bool) (s : State) :
    Host.Outcome State Fault Refusal :=
  if !handlePresent then raise .nullHandle s
  else if !instancePresent then raise .nullInstance s
  else if Config.N < count.toNat then .refused .countExceedsSlots
  else answerOk (initEffects count s)

/-- The eight enables in one write (44_bringup.md R151, R152). -/
def State.writeEnables (s : State) (v : Bool) : State := { s with cntr := s.cntr.setEnables v }

/-- ENABLE_INTERRUPTS (44_bringup.md R151). -/
def execEnableInterrupts (s : State) : Host.Outcome State Fault Refusal :=
  requireReady s <| answerOk (s.writeEnables true)

/-- DISABLE_INTERRUPTS (44_bringup.md R152). -/
def execDisableInterrupts (s : State) : Host.Outcome State Fault Refusal :=
  requireReady s <| answerOk (s.writeEnables false)

/-- START: the enables, then the pull-up (44_bringup.md R154). -/
def execStart (s : State) : Host.Outcome State Fault Refusal :=
  requireReady s <| answerOk { s.writeEnables true with pullup := true }

/-- The resume bit (44_bringup.md R156, R157). -/
def State.writeResume (s : State) (v : Bool) : State := { s with cntr := { s.cntr with resume := v } }

/-- ACTIVATE_REMOTE_WAKEUP (44_bringup.md R156). -/
def execActivateRemoteWakeup (s : State) : Host.Outcome State Fault Refusal :=
  requireReady s <| answerOk (s.writeResume true)

/-- DEACTIVATE_REMOTE_WAKEUP (44_bringup.md R157). -/
def execDeactivateRemoteWakeup (s : State) : Host.Outcome State Fault Refusal :=
  requireReady s <| answerOk (s.writeResume false)

end Sys2Proof.Machine
end

