-- ==== Sys2Proof/Machine/Lifecycle.lean ====
section
/-! DEFINITION. The Endpoint Lifecycle State Machine: `activate`, `deactivate`, `stall` (42_lifecycle.md). -/

namespace Sys2Proof.Machine

/-- The descriptor load (42_lifecycle.md R112) and the lifecycle state of an activated record (R111). -/
def EndpointRecord.loaded (e : EndpointRecord) (d : Direction) (i : Slot) (typeCode : BitVec 8) (mps : Len) :
    EndpointRecord :=
  { e with
    number := BitVec.ofNat 7 i.val, direction := d, typeCode := typeCode, maxPacketSize := mps,
    lifecycle := .configured }

/-- The register after a single-buffered activation: only the activated direction's toggle and status
(42_lifecycle.md R113, R114). -/
def EndpointRegister.activatedSingle (r : EndpointRegister) (d : Direction) (i : Slot) (ty : EpType) :
    EndpointRegister :=
  match d with
  | .IN => { r with epType := ty, kind := false, dtogTx := false, statTx := freshStatTx ty }
  | .OUT => { r with epType := ty, kind := false, dtogRx := false, statRx := freshStatRx i.val }

/-- The register after a double-buffered activation: both directions (42_lifecycle.md R113, R116). -/
def EndpointRegister.activatedDouble (r : EndpointRegister) (d : Direction) (ty : EpType) : EndpointRegister :=
  match d with
  | .IN =>
    { r with
      epType := ty, kind := freshKind ty, dtogTx := false, dtogRx := false,
      statTx := freshStatTx ty, statRx := .disabled }
  | .OUT =>
    { r with
      epType := ty, kind := freshKind ty, dtogTx := false, dtogRx := false,
      statRx := .valid, statTx := .disabled }

/-- The table entry after an activation: the direction's address, or both (42_lifecycle.md R114, R116). -/
def BdtEntry.activated (b : BdtEntry) (d : Direction) (e : EndpointRecord) : BdtEntry :=
  match e.buffering, d with
  | .single, .IN => { b with addrTx := e.address }
  | .single, .OUT => { b with addrRx := e.address }
  | .double, _ => { b with addrTx := e.address0, addrRx := e.address1 }

/-- The register after an activation, by the record's buffering mode (42_lifecycle.md R111). -/
def EndpointRegister.activated (r : EndpointRegister) (d : Direction) (i : Slot) (ty : EpType) (b : Buffering) :
    EndpointRegister :=
  match b with
  | .single => r.activatedSingle d i ty
  | .double => r.activatedDouble d ty

/-- The late wire steps after an activation: the directions whose status it initialises have none (log 26). -/
def LateWire.activated (l : LateWire) (d : Direction) : Buffering → LateWire
  | .single => l.ended d
  | .double => LateWire.none

/-- The state after a successful `activate` (42_lifecycle.md R111 to R116). -/
def activateSlot (d : Direction) (i : Slot) (ty : EpType) (typeCode : BitVec 8) (mps : Len) (s : State) : State :=
  let e := s.ep d i
  (((s.updEp d i (·.loaded d i typeCode mps)).updReg i (·.activated d i ty e.buffering)).updTable i
    (·.activated d e)).updLate i (·.activated d e.buffering)

/-- ACTIVATE: slot, type, packet size, then the effects (42_lifecycle.md R111, R112). -/
def execActivate (ea : EpAddr) (typeCode : BitVec 8) (mps : Len) (s : State) : Host.Outcome State Fault Refusal :=
  requireReady s <| withSlot s ea.num fun i =>
    match epTypeOfCode typeCode with
    | none => raise .invalidEndpointType s
    | some ty =>
      if mps = 0 then .refused .zeroMaxPacket
      else answerOk (activateSlot ea.dir i ty typeCode mps s)

/-- The register after `deactivate`: the record's own direction, or both when double-buffered (42_lifecycle.md R118). -/
def EndpointRegister.deactivated (r : EndpointRegister) (d : Direction) (b : Buffering) : EndpointRegister :=
  match b, d with
  | .single, .IN => { r with dtogTx := false, statTx := .disabled }
  | .single, .OUT => { r with dtogRx := false, statRx := .disabled }
  | .double, _ => { r with dtogRx := false, dtogTx := false, statRx := .disabled, statTx := .disabled }

/-- The late wire steps after `deactivate`, of the register before it: it withdraws no step of a direction it disables
(70_reset_and_hazards.md R217). -/
def LateWire.deactivated (l : LateWire) (pullup : Bool) (r : EndpointRegister) (d : Direction) : Buffering → LateWire
  | .single => l.aborted pullup r d
  | .double => (l.aborted pullup r .IN).aborted pullup r .OUT

/-- The state after `deactivate` (42_lifecycle.md R118, 70_reset_and_hazards.md R217). -/
def deactivateSlot (d : Direction) (i : Slot) (s : State) : State :=
  let b := (s.ep d i).buffering
  ((s.updReg i (·.deactivated d b)).updEp d i (fun e => { e with lifecycle := .disabled })).updLate i
    (·.deactivated s.pullup (s.reg i) d b)

/-- DEACTIVATE (42_lifecycle.md R118). -/
def execDeactivate (ea : EpAddr) (s : State) : Host.Outcome State Fault Refusal :=
  requireReady s <| withSlot s ea.num fun i => answerOk (deactivateSlot ea.dir i s)

/-- `stall` ignores the request: `n > count` as built, `n >= count` under the other setting (42_lifecycle.md R121,
90_conflicts.md C1). -/
def stallIgnored (strictGt : Bool) (n count : Nat) : Bool :=
  if strictGt then decide (count < n) else decide (count ≤ n)

/-- The register after `stall`: the addressed direction's status (42_lifecycle.md R121). -/
def EndpointRegister.stalled (r : EndpointRegister) : Direction → EndpointRegister
  | .IN => { r with statTx := .stall }
  | .OUT => { r with statRx := .stall }

/-- The state after `stall`: the flag, the status, and a wire step already enabled not withdrawn (42_lifecycle.md R121,
70_reset_and_hazards.md R217). -/
def stallSlot (d : Direction) (i : Slot) (s : State) : State :=
  ((s.updEp d i (fun e => { e with stalled := true })).updReg i (·.stalled d)).updLate i
    (·.aborted s.pullup (s.reg i) d)

/-- `stall` under either setting of `STALL_STRICT_GT` (42_lifecycle.md R121). -/
def stallWith (strictGt : Bool) (ea : EpAddr) (s : State) : Result :=
  requireReady s <|
    if stallIgnored strictGt ea.num s.dev.count.toNat then answerOk s
    else if h : ea.num < Config.N then answerOk (stallSlot ea.dir ⟨ea.num, h⟩ s)
    else .refused .slotOutOfRange

/-- STALL (42_lifecycle.md R121). -/
def execStall (ea : EpAddr) (s : State) : Host.Outcome State Fault Refusal := stallWith Config.stallStrictGt ea s

end Sys2Proof.Machine
end

