-- ==== Sys2Proof/Machine/Registry.lean ====
section
/-! DEFINITION. The Endpoint Registry: `configure` (40_registry.md). -/

namespace Sys2Proof.Machine

/-- The addresses of a `configure` are even (40_registry.md R96). -/
def targetEven : MemTarget → Bool
  | .single a => evenAddr a
  | .double a0 a1 => evenAddr a0 && evenAddr a1

/-- The record after `configure`: the mode and its address or addresses, the other mode's addresses kept
(40_registry.md R96). -/
def EndpointRecord.configured (e : EndpointRecord) : MemTarget → EndpointRecord
  | .single a => { e with buffering := .single, address := a }
  | .double a0 a1 => { e with buffering := .double, address0 := a0, address1 := a1 }

/-- CONFIGURE (40_registry.md R96). -/
def execConfigure (ea : EpAddr) (target : MemTarget) (s : State) : Host.Outcome State Fault Refusal :=
  requireReady s <| withSlot s ea.num fun i =>
    if targetEven target then answerOk (s.updEp ea.dir i (·.configured target))
    else .refused .oddPacketAddress

end Sys2Proof.Machine
end

