-- ==== Sys2Proof/Machine/Scheduler.lean ====
section
/-! DEFINITION. The Transfer Scheduler: one scheduling step, nine paths (43_scheduler.md R126, R127). -/

namespace Sys2Proof.Machine

/-- One packet of `len` bytes from the record's cursor to `address`, under the record's caller region
(43_scheduler.md R128; 41_transfer_engine.md R101). -/
def writePacket (e : EndpointRecord) (cursor : HostAddr) (address : PmAddr) (len : Nat) (s : State) : Result :=
  pmaWrite Config.oddWritePolicy e.region cursor address len s

/-- `min(mps, remaining_length)` (43_scheduler.md R128, R134). -/
def EndpointRecord.packetLength (e : EndpointRecord) : Nat := min e.maxPacketSize.toNat e.remainingLength.toNat

/-- IN, single buffer (43_scheduler.md R128). -/
def inSingle (i : Slot) (s : State) : Result :=
  let e := s.ep .IN i
  let len := e.packetLength
  if Config.countLimit ≤ len then .refused .countTooLarge
  else andThen (writePacket e e.transferBuffer e.address len s) fun t =>
    .next ((t.setCount i false len).setStatTx i .valid)

/-- IN, double buffer, Bulk, more than one packet left: two fills (43_scheduler.md R130, R131). -/
def inDoubleFill (i : Slot) (s : State) : Result :=
  let e := s.ep .IN i
  let mps := e.maxPacketSize.toNat
  if Config.countLimit ≤ mps then .refused .countTooLarge
  else
    let free := (s.reg i).dtogTx
    let left := satSub e.remainingLengthSecondary mps
    let len2 := min mps left.toNat
    let cursor2 := addW e.transferBuffer mps
    andThen (writePacket e e.transferBuffer (e.bufferAddress free) mps
        ((s.setKind i true).setCount i free mps)) fun t =>
    andThen (writePacket e cursor2 (e.bufferAddress (!free)) len2 (t.setCount i (!free) len2)) fun u =>
      .next ((u.updEp .IN i (fun r =>
        { r with transferBuffer := cursor2, remainingLengthSecondary := satSub left len2 })).setStatTx i .valid)

/-- IN, double buffer, Bulk, one packet or less left: the switch to single-buffer semantics (43_scheduler.md R132). -/
def inAutoSwitch (i : Slot) (s : State) : Result :=
  let e := s.ep .IN i
  let len := e.remainingLengthSecondary.toNat
  if Config.countLimit ≤ len then .refused .countTooLarge
  else andThen (writePacket e e.transferBuffer e.address0 len ((s.setKind i false).setCount i false len)) fun t =>
    .next ((t.updEp .IN i (fun r => { r with remainingLengthSecondary := 0 })).setStatTx i .valid)

/-- IN, double buffer, Bulk: the condition is tested once a call (43_scheduler.md R131, R132, 90_conflicts.md C3). -/
def inDoubleBulk (i : Slot) (s : State) : Result :=
  let e := s.ep .IN i
  if e.maxPacketSize.toNat < e.remainingLengthSecondary.toNat then inDoubleFill i s else inAutoSwitch i s

/-- IN, double buffer, Isochronous: one packet into the free buffer (43_scheduler.md R134). -/
def inDoubleIso (i : Slot) (s : State) : Result :=
  let e := s.ep .IN i
  let len := e.packetLength
  if Config.countLimit ≤ len then .refused .countTooLarge
  else
    let free := (s.reg i).dtogTx
    andThen (writePacket e e.transferBuffer (e.bufferAddress free) len (s.setCount i free len)) fun t =>
      .next ((t.updEp .IN i (fun r =>
        { r with remainingLengthSecondary := satSub e.remainingLengthSecondary len })).setStatTx i .valid)

/-- The status stage of a control transfer: nothing left and type Control (43_scheduler.md R136). -/
def EndpointRecord.statusStage (e : EndpointRecord) : Bool :=
  decide (e.remainingLength = 0) && decide (e.epType = some .control)

/-- `remaining_length` after an OUT single-buffer step: one packet less, or zero (43_scheduler.md R137). -/
def EndpointRecord.preDecremented (e : EndpointRecord) : Len :=
  if e.maxPacketSize.toNat < e.remainingLength.toNat then satSub e.remainingLength e.maxPacketSize.toNat else 0

/-- OUT, single buffer (43_scheduler.md R136, R137). -/
def outSingle (i : Slot) (s : State) : State :=
  let e := s.ep .OUT i
  if e.statusStage then (s.setKind i true).setStatRx i .valid
  else ((s.setKind i false).updEp .OUT i (fun r => { r with remainingLength := e.preDecremented })).setStatRx i .valid

/-- The buffer-release mechanism (43_scheduler.md R139). -/
def releaseBuffer (i : Slot) (s : State) : State := s.updReg i (fun r => { r with dtogTx := !r.dtogTx })

/-- OUT, double buffer, Bulk (43_scheduler.md R138). -/
def outDoubleBulk (i : Slot) (s : State) : State :=
  let blocked := decide ((s.ep .OUT i).transferCount ≠ 0) && ((s.reg i).dtogRx == (s.reg i).dtogTx)
  (if blocked then releaseBuffer i s else s).setStatRx i .valid

/-- OUT, double buffer, Isochronous (43_scheduler.md R140). -/
def outDoubleIso (i : Slot) (s : State) : State :=
  (s.updEp .OUT i (fun r => { r with remainingLength := 0 })).setStatRx i .valid

/-- The dispatch on the IN side, by the record's buffering and type (43_scheduler.md R126, R135). -/
def scheduleIn (i : Slot) (s : State) : Result :=
  let e := s.ep .IN i
  match e.buffering with
  | .single => inSingle i s
  | .double =>
    match e.epType with
    | some .bulk => inDoubleBulk i s
    | some .isochronous => inDoubleIso i s
    | some .control => .refused .inDoubleOtherType
    | some .interrupt => .refused .inDoubleOtherType
    | none => .refused .inDoubleOtherType

/-- The dispatch on the OUT side; any other type is a no-op (43_scheduler.md R126, R141). -/
def scheduleOut (i : Slot) (s : State) : State :=
  let e := s.ep .OUT i
  match e.buffering with
  | .single => outSingle i s
  | .double =>
    match e.epType with
    | some .bulk => outDoubleBulk i s
    | some .isochronous => outDoubleIso i s
    | some .control => s
    | some .interrupt => s
    | none => s

/-- One scheduling step on `ep(d, n)` (43_scheduler.md R126); it gives no answer of its own. -/
def schedule (d : Direction) (i : Slot) (s : State) : Result :=
  match d with
  | .IN => scheduleIn i s
  | .OUT => .next (scheduleOut i s)

/-- START_TRANSFER (43_scheduler.md R126). -/
def execStartTransfer (ea : EpAddr) (s : State) : Host.Outcome State Fault Refusal :=
  requireReady s <| withSlot s ea.num fun i => andThen (schedule ea.dir i s) answerOk

end Sys2Proof.Machine
end

