-- ==== Sys2Proof/Machine/Requests.lean ====
section
/-! DEFINITION. Transfer requests and the completion interface: `send`, `receive`, `complete_in`, `complete_out`
(45_requests_completion.md R161 to R170). -/

namespace Sys2Proof.Machine

/-- The bookkeeping of a request, and the caller region `[buffer, buffer + length)` (45_requests_completion.md R161, R163). -/
def EndpointRecord.requested (e : EndpointRecord) (buffer : HostAddr) (length : Len) : EndpointRecord :=
  { e with
    transferBuffer := buffer, remainingLength := length, remainingLengthSecondary := length, transferCount := 0,
    region := some ⟨buffer, length⟩ }

/-- A request on `ep(d, n)`: the bookkeeping, then one scheduling step in the same step of the block
(45_requests_completion.md R161, R163). -/
def request (d : Direction) (n : Nat) (buffer : HostAddr) (length : Len) (s : State) : Result :=
  requireReady s <| withSlot s n fun i =>
    andThen (schedule d i (s.updEp d i (·.requested buffer length))) answerOk

/-- SEND (45_requests_completion.md R161). -/
def execSend (n : Nat) (buffer : HostAddr) (length : Len) (s : State) : Host.Outcome State Fault Refusal :=
  request .IN n buffer length s

/-- RECEIVE (45_requests_completion.md R163). -/
def execReceive (n : Nat) (buffer : HostAddr) (length : Len) (s : State) : Host.Outcome State Fault Refusal :=
  request .OUT n buffer length s

/-- The parameter `DbCompletion` (00_scope.md R5, 45_requests_completion.md R166 to R168): what a completion on a
double-buffered record does. -/
structure DbCompletion where
  onIn : Slot → State → Result
  onOut : Slot → State → Result

/-- `DbCompletion` as this model takes it: absent, the default (00_scope.md R5, D27). DESIGN CHOICE, log 16. -/
def dbCompletion : Option DbCompletion := none

/-- The cursor and the count advanced by a completed packet (45_requests_completion.md R166, R168). -/
def EndpointRecord.advanced (e : EndpointRecord) (n : Nat) : EndpointRecord :=
  { e with transferBuffer := addW e.transferBuffer n, transferCount := addW e.transferCount n }

/-- The IN record after a completed packet: the external decrement, then the advance (45_requests_completion.md R166). -/
def EndpointRecord.sent (e : EndpointRecord) (n : Nat) : EndpointRecord :=
  { e.advanced n with remainingLength := satSub e.remainingLength n }

/-- The caller's buffer is no longer borrowed (45_requests_completion.md R170; log 6). -/
def EndpointRecord.released (e : EndpointRecord) : EndpointRecord := { e with region := none }

/-- A served completion of a single-buffered IN record (45_requests_completion.md R166). -/
def completeInSingle (i : Slot) (s : State) : Result :=
  let s1 := (s.updReg i (fun r => { r with ctrTx := false })).updEp .IN i (·.sent (s.table i).countTx.toNat)
  if (s1.ep .IN i).remainingLength = 0 then .next ((s1.updEp .IN i (·.released)).emit (.inDone i.val))
  else schedule .IN i s1

/-- `complete_in` under either presence of `DbCompletion` (45_requests_completion.md R166). -/
def completeInWith (db : Option DbCompletion) (n : Nat) (s : State) : Result :=
  requireReady s <| withSlot s n fun i =>
    match (s.ep .IN i).buffering with
    | .double =>
      match db with
      | some p => andThen (p.onIn i s) answerOk
      | none => .refused .dbCompletionOpen
    | .single =>
      if (s.reg i).ctrTx then andThen (completeInSingle i s) answerOk else .refused .noCompletionPending

/-- COMPLETE_IN (45_requests_completion.md R166). -/
def execCompleteIn (n : Nat) (s : State) : Host.Outcome State Fault Refusal := completeInWith dbCompletion n s

/-- A served completion of a single-buffered OUT record: the read, the advance, then a further step or the signal
(45_requests_completion.md R168). -/
def completeOutSingle (i : Slot) (s : State) : Result :=
  let e := s.ep .OUT i
  let got := (s.table i).countRx.toNat
  andThen (pmaRead e.region e.address e.transferBuffer got (s.updReg i (fun r => { r with ctrRx := false }))) fun t =>
    let u := t.updEp .OUT i (·.advanced got)
    if (u.ep .OUT i).remainingLength = 0 then
      .next ((u.updEp .OUT i (·.released)).emit (.outDone i.val (u.ep .OUT i).transferCount))
    else schedule .OUT i u

/-- `complete_out` under either presence of `DbCompletion` (45_requests_completion.md R168). -/
def completeOutWith (db : Option DbCompletion) (n : Nat) (s : State) : Result :=
  requireReady s <| withSlot s n fun i =>
    match (s.ep .OUT i).buffering with
    | .double =>
      match db with
      | some p => andThen (p.onOut i s) answerOk
      | none => .refused .dbCompletionOpen
    | .single =>
      if (s.reg i).ctrRx then andThen (completeOutSingle i s) answerOk else .refused .noCompletionPending

/-- COMPLETE_OUT (45_requests_completion.md R168). -/
def execCompleteOut (n : Nat) (s : State) : Host.Outcome State Fault Refusal := completeOutWith dbCompletion n s

end Sys2Proof.Machine
end

