-- ==== Sys2Proof/Machine/TransferEngine.lean ====
section
/-! DEFINITION. The commands WRITE and READ over the two primitives (41_transfer_engine.md R102, R105). -/

namespace Sys2Proof.Machine

/-- WRITE: the caller region is `[buffer, buffer + byte_count)` (41_transfer_engine.md R102). -/
def execWrite (buffer : HostAddr) (address : PmAddr) (byteCount : BitVec 16) (s : State) :
    Host.Outcome State Fault Refusal :=
  requireReady s <|
    andThen (pmaWrite Config.oddWritePolicy (some ⟨buffer, byteCount.setWidth 32⟩) buffer address byteCount.toNat s)
      answerOk

/-- READ: the caller region is `[buffer, buffer + byte_count)` (41_transfer_engine.md R105). -/
def execRead (address : PmAddr) (buffer : HostAddr) (byteCount : BitVec 16) (s : State) :
    Host.Outcome State Fault Refusal :=
  requireReady s <|
    andThen (pmaRead (some ⟨buffer, byteCount.setWidth 32⟩) address buffer byteCount.toNat s) answerOk

end Sys2Proof.Machine
end

