-- ==== Sys2Proof/Machine/Dispatch.lean ====
section
/-! DEFINITION. One arm per constructor of `Instr`. -/

namespace Sys2Proof.Machine

/-- The effect of a command (30_encoding.md R80). -/
def exec (i : Instr) (s : State) : Host.Outcome State Fault Refusal :=
  match i with
  | .configure ea target => Sys2Proof.Machine.execConfigure ea target s
  | .write buffer address byteCount => Sys2Proof.Machine.execWrite buffer address byteCount s
  | .read address buffer byteCount => Sys2Proof.Machine.execRead address buffer byteCount s
  | .activate ea typeCode mps => Sys2Proof.Machine.execActivate ea typeCode mps s
  | .deactivate ea => Sys2Proof.Machine.execDeactivate ea s
  | .stall ea => Sys2Proof.Machine.execStall ea s
  | .startTransfer ea => Sys2Proof.Machine.execStartTransfer ea s
  | .init count hp ip => Sys2Proof.Machine.execInit count hp ip s
  | .enableInterrupts => Sys2Proof.Machine.execEnableInterrupts s
  | .disableInterrupts => Sys2Proof.Machine.execDisableInterrupts s
  | .start => Sys2Proof.Machine.execStart s
  | .activateRemoteWakeup => Sys2Proof.Machine.execActivateRemoteWakeup s
  | .deactivateRemoteWakeup => Sys2Proof.Machine.execDeactivateRemoteWakeup s
  | .send n buffer length => Sys2Proof.Machine.execSend n buffer length s
  | .receive n buffer length => Sys2Proof.Machine.execReceive n buffer length s
  | .completeIn n => Sys2Proof.Machine.execCompleteIn n s
  | .completeOut n => Sys2Proof.Machine.execCompleteOut n s

end Sys2Proof.Machine
end

