-- ==== Sys2Proof/Machine/Events.lean ====
section
/-! DEFINITION. The other environment steps: bus events, clearing of a stored flag, bus reset, the unrecoverable fault,
and the caller's writes to its own memory (60_exceptions.md R187, R192, R193; 70_reset_and_hazards.md R218). -/

namespace Sys2Proof.Machine

/-- `bus_event(source)`: the pending flag is set, nothing else (60_exceptions.md R192). -/
def busEvent (source : BusSource) (s : State) : Result := .next { s with istr := s.istr.set source true }

/-- The environment clears a stored flag (60_exceptions.md R192). -/
def clearFlag (flag : StoredFlag) (s : State) : Result := .next { s with istr := s.istr.clear flag }

/-- `bus_reset`, enabled while the pull-up is asserted: `istr.reset` is set and every per-endpoint register is reset,
its completion flags kept (60_exceptions.md R193); it leaves no late wire step over (log 26). -/
def busReset (s : State) : Result :=
  if s.pullup then .next { (s.mapRegs (·.afterReset)).endLate with istr := { s.istr with reset := true } }
  else .refused .busResetNotEnabled

/-- `fatal`: `dev.state` becomes `Error`, nothing else (60_exceptions.md R187). -/
def fatal (s : State) : Result := .next { s with dev := { s.dev with state := .error } }

/-- The caller writes a byte of its own memory (70_reset_and_hazards.md R218; log 17). -/
def callerWrite (address : HostAddr) (byte : Byte) (s : State) : Result :=
  .next (s.storeHost address.toNat [byte])

/-- A word that matches no row: `IllegalCommand`, no state change, in every `dev.state` (30_encoding.md R88,
60_exceptions.md R194; log 5). -/
def illegalCommand (s : State) : Result := raise .illegalCommand s

end Sys2Proof.Machine
end

