-- ==== Sys2Proof/Machine/Wire.lean ====
section
/-! DEFINITION. The wire agent, an environment agent with a contract (45_requests_completion.md R171 to R177). -/

namespace Sys2Proof.Machine

/-- The parameter `WireDb` (00_scope.md R5, 45_requests_completion.md R176): the wire steps of an endpoint number in
double-buffer mode. An instance gives the whole next state, the late wire steps included. -/
structure WireDb where
  onIn : Slot → State → Result
  onOut : Slot → List Byte → State → Result

/-- `WireDb` as this model takes it: absent, the default (00_scope.md R5, D28). DESIGN CHOICE, log 16. -/
def wireDb : Option WireDb := none

/-- A wire step is possible: the pull-up is asserted and the number exists (45_requests_completion.md R171). -/
def withWire (s : State) (n : Nat) (k : Slot → Result) : Result :=
  if h : n < Config.N then
    if s.pullup then k ⟨n, h⟩ else .refused .wireStepNotEnabled
  else .refused .wireStepNotEnabled

/-- A wire access of `n` bytes at the table's address ends inside packet memory; no byte needs no memory (20_memory.md
R51, R57; log 14). -/
def wireFits (a : PmAddr) (n : Nat) : Bool := n == 0 || fitsPacketMemory a n

/-- The bytes the wire agent sends: byte `k` of the buffer for `k < count_tx` (45_requests_completion.md R172). -/
def txData (b : BdtEntry) (s : State) : List Byte := loadBytes (pmByte s) (wordBase b.addrTx) b.countTx.toNat

/-- A register after the wire sent a packet (45_requests_completion.md R172). -/
def EndpointRegister.afterTx (r : EndpointRegister) : EndpointRegister :=
  { r with dtogTx := !r.dtogTx, statTx := .nak, ctrTx := true }

/-- A register after the wire stored a packet (45_requests_completion.md R174). -/
def EndpointRegister.afterRx (r : EndpointRegister) : EndpointRegister :=
  { r with dtogRx := !r.dtogRx, statRx := .nak, ctrRx := true }

/-- The state after a packet was sent: the register, and a late wire step of the direction is over
(45_requests_completion.md R172, 70_reset_and_hazards.md R217). -/
def sendPacket (i : Slot) (s : State) : State := (s.updReg i (·.afterTx)).updLate i (·.ended .IN)

/-- The host collects a packet from a single-buffered IN direction (45_requests_completion.md R172). -/
def wireInSingle (i : Slot) (s : State) : Result :=
  let b := s.table i
  if wireFits b.addrTx b.countTx.toNat then
    .next ((sendPacket i s).emit (.txPacket i.val (txData b s) (s.reg i).dtogTx))
  else .refused .packetMemoryRange

/-- An enabled wire step of an IN direction, by the buffer mode of the wire side (45_requests_completion.md R172, R176). -/
def serveIn (db : Option WireDb) (i : Slot) (s : State) : Result :=
  if (s.reg i).wireSingle then wireInSingle i s
  else
    match db with
    | some p => p.onIn i s
    | none => .refused .wireDbOpen

/-- `wire_in(n)`, a new request of the host, under either presence of `WireDb` (45_requests_completion.md R171 to R173,
R176): the status decides. -/
def wireInWith (db : Option WireDb) (n : Nat) (s : State) : Result :=
  withWire s n fun i =>
    match handshakeOf (s.reg i).statTx with
    | some h => .next (s.emit (.handshake i.val .IN h))
    | none => serveIn db i s

/-- A `wire_in(n)` that was enabled before `stall` or `deactivate` took the status: it is not withdrawn
(70_reset_and_hazards.md R217; log 26) and has the effect of 45_requests_completion.md R172. -/
def lateWireInWith (db : Option WireDb) (n : Nat) (s : State) : Result :=
  withWire s n fun i =>
    if (s.late i).tx ∧ (s.reg i).statTx ≠ .valid then serveIn db i s else .refused .wireStepNotEnabled

/-- `wire_in(n)` (45_requests_completion.md R172). -/
def wireIn (n : Nat) (s : State) : Result := wireInWith wireDb n s

/-- The late `wire_in(n)` (70_reset_and_hazards.md R217). -/
def lateWireIn (n : Nat) (s : State) : Result := lateWireInWith wireDb n s

/-- The bytes a received packet leaves in packet memory: its own, and for an odd length any value in the high byte of
the last word (45_requests_completion.md R174; log 7). -/
def rxBytes (bytes : List Byte) (s : State) : List Byte :=
  if bytes.length % 2 = 1 then bytes ++ [Config.drawnByte s.draws] else bytes

/-- The state after a received packet has been stored; a late wire step of the direction is over
(45_requests_completion.md R174, 70_reset_and_hazards.md R217). -/
def storePacket (i : Slot) (bytes : List Byte) (s : State) : State :=
  let s1 := (s.storePm (wordBase (s.table i).addrRx) (rxBytes bytes s)).addDraws (bytes.length % 2)
  ((s1.updTable i (fun b => { b with countRx := countOf bytes.length })).updReg i (·.afterRx)).updLate i (·.ended .OUT)

/-- The host delivers a packet to a single-buffered OUT direction (45_requests_completion.md R174). -/
def wireOutSingle (i : Slot) (bytes : List Byte) (s : State) : Result :=
  if (s.ep .OUT i).maxPacketSize.toNat < bytes.length then .refused .packetTooLong
  else if Config.countLimit ≤ bytes.length then .refused .countTooLarge
  else if wireFits (s.table i).addrRx bytes.length then .next (storePacket i bytes s)
  else .refused .packetMemoryRange

/-- An enabled wire step of an OUT direction, by the buffer mode of the wire side; a data packet in the status stage is
answered with a stall (45_requests_completion.md R174 to R176). -/
def serveOut (db : Option WireDb) (i : Slot) (bytes : List Byte) (s : State) : Result :=
  if (s.reg i).wireSingle then
    if (s.reg i).statusOnly && !bytes.isEmpty then .next (s.emit (.handshake i.val .OUT .stalled))
    else wireOutSingle i bytes s
  else
    match db with
    | some p => p.onOut i bytes s
    | none => .refused .wireDbOpen

/-- `wire_out(n, bytes)`, a new request of the host, under either presence of `WireDb` (45_requests_completion.md R171,
R174 to R176): the status decides. -/
def wireOutWith (db : Option WireDb) (n : Nat) (bytes : List Byte) (s : State) : Result :=
  withWire s n fun i =>
    match handshakeOf (s.reg i).statRx with
    | some h => .next (s.emit (.handshake i.val .OUT h))
    | none => serveOut db i bytes s

/-- The late OUT step that is left over takes these bytes: any, or none in a status stage (45_requests_completion.md R174,
R175). The capacity is that of R174 when the step is taken, since only a command that ends the step changes it. -/
def LateWire.takesOut (l : LateWire) (bytes : List Byte) : Bool := l.rx && (!l.statusOnly || bytes.isEmpty)

/-- A `wire_out(n, bytes)` that was enabled before `stall` or `deactivate` took the status: it is not withdrawn
(70_reset_and_hazards.md R217; log 26) and has the effect of 45_requests_completion.md R174. -/
def lateWireOutWith (db : Option WireDb) (n : Nat) (bytes : List Byte) (s : State) : Result :=
  withWire s n fun i =>
    if (s.late i).takesOut bytes ∧ (s.reg i).statRx ≠ .valid then serveOut db i bytes s
    else .refused .wireStepNotEnabled

/-- `wire_out(n, bytes)` (45_requests_completion.md R174). -/
def wireOut (n : Nat) (bytes : List Byte) (s : State) : Result := wireOutWith wireDb n bytes s

/-- The late `wire_out(n, bytes)` (70_reset_and_hazards.md R217). -/
def lateWireOut (n : Nat) (bytes : List Byte) (s : State) : Result := lateWireOutWith wireDb n bytes s

/-- The bytes of buffer `k` of a double-buffered endpoint number (10_state.md R41). -/
def bufferData (b : BdtEntry) (k : Bool) (s : State) : List Byte :=
  if k then loadBytes (pmByte s) (wordBase b.addrRx) b.countRx.toNat
  else loadBytes (pmByte s) (wordBase b.addrTx) b.countTx.toNat

/-- The three constraints of the source on any `WireDb` (45_requests_completion.md R176): with each completed packet the
hardware-side toggle flips, a completed IN packet holds the buffer that R130 does not call free, and OUT takes no packet
while the toggles are equal. DESIGN CHOICE, log 16: a call that answers next and does more than a handshake counts as a
completed packet, and a completed IN packet is the one signal of its step. R176 does not say which toggle the sent packet
carries, so it is left open. -/
def WireDb.lawful (p : WireDb) : Prop :=
  (∀ i s t, p.onIn i s = .next t → (∀ h, t ≠ s.emit (.handshake i.val .IN h)) →
    (t.reg i).dtogTx = !(s.reg i).dtogTx ∧
      ∃ toggle, t.signals = s.signals ++ [.txPacket i.val (bufferData (s.table i) (!(s.reg i).dtogTx) s) toggle]) ∧
  (∀ i bytes s t, p.onOut i bytes s = .next t → (∀ h, t ≠ s.emit (.handshake i.val .OUT h)) →
    (t.reg i).dtogRx = !(s.reg i).dtogRx ∧ (s.reg i).dtogRx ≠ (s.reg i).dtogTx)

end Sys2Proof.Machine
end

