-- ==== Sys2Proof/Machine/Step.lean ====
section
/-! DEFINITION. One step: the next input of the schedule, a command or a step of the environment, as one indivisible
step (20_memory.md R62, R63). -/

namespace Sys2Proof.Machine

/-- A command word: decoded and executed, or answered `IllegalCommand` (30_encoding.md R88, R89). -/
def runCommand (w : CommandWord) (s : State) : Host.Outcome State Fault Refusal :=
  match decode w with
  | .ok i => exec i s
  | .error _ => illegalCommand s

/-- One input, taken. -/
def runInput (x : Input) (s : State) : Host.Outcome State Fault Refusal :=
  match x with
  | .command w => runCommand w s
  | .wireIn n => wireIn n s
  | .wireOut n bytes => wireOut n bytes s
  | .lateWireIn n => lateWireIn n s
  | .lateWireOut n bytes => lateWireOut n bytes s
  | .busEvent source => busEvent source s
  | .clearFlag flag => clearFlag flag s
  | .busReset => busReset s
  | .fatal => fatal s
  | .callerWrite address byte => callerWrite address byte s

/-- One step; with nothing queued the block waits (10_state.md R47; log 2). -/
def step (s : State) : Host.Outcome State Fault Refusal :=
  match fetch s with
  | none => .next s
  | some (x, t) => runInput x t

/-- The state in which the given command word is the next input (30_encoding.md R76; log 3). -/
def State.withFetchWord (s : State) (nbits w : Nat) : State :=
  { s with inputs := .command (BitVec.ofNat 80 (w % 2 ^ nbits)) :: s.inputs }

end Sys2Proof.Machine
end

