-- ==== Sys2Proof/Safety.lean ====
section
/-! DEFINITION. The terms claims are made in: what a step leaves unchanged, when a command names a slot, the invariant of
the model, and the caller's duty `Partitioned` (20_memory.md R59). -/

namespace Sys2Proof.Machine

/-! ### What a step leaves unchanged -/

/-- The device context, the global registers, the late wire steps and the queue of inputs are unchanged. -/
structure KeepsGlobals (s t : State) : Prop where
  dev : t.dev = s.dev
  cntr : t.cntr = s.cntr
  istr : t.istr = s.istr
  btable : t.btable = s.btable
  pullup : t.pullup = s.pullup
  inputs : t.inputs = s.inputs
  lateWire : t.lateWire = s.lateWire

/-- Every byte of packet memory reads as before. -/
def KeepsPm (s t : State) : Prop := ∀ x, pmByte t x = pmByte s x

/-- Every byte of packet memory outside the `n` bytes from `x` on reads as before. -/
def KeepsPmOutside (s t : State) (x n : Nat) : Prop := ∀ y, y < x ∨ x + n ≤ y → pmByte t y = pmByte s y

/-- Every byte of caller memory reads as before. -/
def KeepsHost (s t : State) : Prop := ∀ x, hostByte t x = hostByte s x

/-- Every byte of caller memory outside the `n` bytes from `x` on reads as before. -/
def KeepsHostOutside (s t : State) (x n : Nat) : Prop := ∀ y, y < x ∨ x + n ≤ y → hostByte t y = hostByte s y

/-- Every endpoint record is unchanged. -/
def KeepsRecords (s t : State) : Prop := ∀ d i, t.ep d i = s.ep d i

/-- Every endpoint record but `ep(d, i)` is unchanged. -/
def KeepsOtherRecords (s t : State) (d : Direction) (i : Slot) : Prop :=
  ∀ d' j, ¬(d' = d ∧ j = i) → t.ep d' j = s.ep d' j

/-- Every per-endpoint register is unchanged. -/
def KeepsRegs (s t : State) : Prop := ∀ i, t.reg i = s.reg i

/-- Every per-endpoint register but `epr[i]` is unchanged. -/
def KeepsOtherRegs (s t : State) (i : Slot) : Prop := ∀ j, j ≠ i → t.reg j = s.reg j

/-- Every table entry is unchanged. -/
def KeepsTable (s t : State) : Prop := ∀ i, t.table i = s.table i

/-- Every table entry but `bdt[i]` is unchanged. -/
def KeepsOtherTable (s t : State) (i : Slot) : Prop := ∀ j, j ≠ i → t.table j = s.table j

/-- Of the device context, the global registers, the records, the registers and the table, nothing but `ep(d, i)`,
`epr[i]` and `bdt[i]` may differ. -/
structure OnlyTouches (s t : State) (d : Direction) (i : Slot) : Prop where
  globals : KeepsGlobals s t
  records : KeepsOtherRecords s t d i
  regs : KeepsOtherRegs s t i
  table : KeepsOtherTable s t i

/-- `OnlyTouches`, but that the late wire steps of endpoint number `i` may differ too. -/
structure OnlyTouchesWire (s t : State) (d : Direction) (i : Slot) : Prop where
  rest : OnlyTouches s { t with lateWire := s.lateWire } d i
  late : ∀ j, j ≠ i → t.late j = s.late j

/-- The status of one direction of a register (10_state.md R31). -/
def EndpointRegister.status (r : EndpointRegister) : Direction → Status
  | .IN => r.statTx
  | .OUT => r.statRx

/-- The data toggle of one direction of a register (10_state.md R31). -/
def EndpointRegister.toggle (r : EndpointRegister) : Direction → Bool
  | .IN => r.dtogTx
  | .OUT => r.dtogRx

/-! ### When a command is accepted -/

/-- The block is `Ready` and the number names slot `i`, below the configured count (60_exceptions.md R188,
10_state.md R26). -/
structure Names (s : State) (n : Nat) (i : Slot) : Prop where
  ready : s.dev.state = .ready
  number : n = i.val
  below : i.val < s.dev.count.toNat

/-- A packet of `len` bytes from `cursor` to `address` is admitted: packet memory and the record's caller region
(20_memory.md R53, R55). -/
def PacketAdmitted (e : EndpointRecord) (cursor : HostAddr) (address : PmAddr) (len : Nat) : Prop :=
  admitted address len = true ∧ regionAdmits e.region cursor len = true

/-- The `len` bytes of packet memory at `address` are the caller bytes at `cursor` (20_memory.md R57). -/
def PacketHolds (s t : State) (cursor : HostAddr) (address : PmAddr) (len : Nat) : Prop :=
  ∀ k, k < len → pmByte t (address.toNat + k) = hostByte s (cursor.toNat + k)

/-! ### The invariant -/

/-- What holds of `ep(d, i)` in every run: even addresses (20_memory.md R53, 40_registry.md R96), a recognised type code
(10_state.md R17), and of a configured record what its activation stored (10_state.md R26, 42_lifecycle.md R112,
90_conflicts.md C5). -/
structure RecordInv (count : Nat) (d : Direction) (i : Slot) (e : EndpointRecord) : Prop where
  address : evenAddr e.address = true
  address0 : evenAddr e.address0 = true
  address1 : evenAddr e.address1 = true
  type : e.epType ≠ none
  number : e.lifecycle = .configured → e.number = BitVec.ofNat 7 i.val
  direction : e.lifecycle = .configured → e.direction = d
  packet : e.lifecycle = .configured → e.maxPacketSize ≠ 0
  slot : e.lifecycle = .configured → i.val < count

/-- The invariant of the model: the device context (10_state.md R28, R29, R30), the force-reset bit between commands
(44_bringup.md R147), the table base (20_memory.md R59), both memories in canonical form and inside their spaces
(20_memory.md R51, R54), every record. -/
structure Inv (s : State) : Prop where
  count : s.dev.count.toNat ≤ Config.N
  notBusy : s.dev.state ≠ .busy
  address : s.dev.address = 0
  fres : s.cntr.fres = false
  btable : s.dev.state = .ready → s.btable = Config.btableFixed
  pmWf : Memory.wf s.pm
  pmInside : ∀ c ∈ s.pm, c.1 < 2 * Config.pmWords
  hostWf : Memory.wf s.host
  hostInside : ∀ c ∈ s.host, c.1 < Config.hostSize
  records : ∀ d i, RecordInv s.dev.count.toNat d i (s.ep d i)

/-! ### The caller's duty -/

/-- A packet-memory buffer of a record: its only one when single-buffered (`second` is false), or one of its two. -/
structure Buffer where
  dir : Direction
  slot : Slot
  second : Bool
  deriving DecidableEq, Repr

/-- The record a buffer belongs to. -/
def Buffer.record (b : Buffer) (s : State) : EndpointRecord := s.ep b.dir b.slot

/-- The first byte offset of a buffer (20_memory.md R59). -/
def Buffer.base (b : Buffer) (s : State) : Nat :=
  match (b.record s).buffering with
  | .single => (b.record s).address.toNat
  | .double => ((b.record s).bufferAddress b.second).toNat

/-- The bytes a buffer occupies, `round_up_even(max_packet_size)` (20_memory.md R59). -/
def Buffer.size (b : Buffer) (s : State) : Nat := roundUpEven (b.record s).maxPacketSize.toNat

/-- A buffer in use: of a configured record, and the second one only of a double-buffered record (log 19). -/
def Buffer.inUse (b : Buffer) (s : State) : Prop :=
  (b.record s).lifecycle = .configured ∧ ((b.record s).buffering = .single → b.second = false)

/-- Two ranges of byte offsets do not meet. -/
def Apart (x n y m : Nat) : Prop := x + n ≤ y ∨ y + m ≤ x

/-- The premise `Partitioned` (20_memory.md R59): the buffers in use are apart from each other and from the table's range,
and inside packet memory. -/
structure Partitioned (s : State) : Prop where
  apart : ∀ b c : Buffer, b.inUse s → c.inUse s → b ≠ c → Apart (b.base s) (b.size s) (c.base s) (c.size s)
  inside : ∀ b : Buffer, b.inUse s → b.base s + b.size s ≤ 2 * Config.pmWords
  table : ∀ b : Buffer, b.inUse s → Apart (b.base s) (b.size s) s.btable.toNat (8 * Config.N)

/-! ### Repeated commands -/

/-- The same command `k` times; a stop ends it. -/
def repeatCommand (i : Instr) : Nat → State → Result
  | 0, s => .next s
  | k + 1, s => andThen (exec i s) (repeatCommand i k)

/-- The bytes a bulk double-buffered IN step has just put into packet memory, by the flag and the counts it left
(43_scheduler.md R131, R132): both buffers, or the one of the automatic switch. -/
def armedBytes (i : Slot) (s : State) : Nat :=
  if (s.reg i).kind then (s.table i).countTx.toNat + (s.table i).countRx.toNat else (s.table i).countTx.toNat

/-- The bytes put into packet memory over `k` steps of the same command (43_scheduler.md R133). -/
def armedTotal (c : Instr) (i : Slot) : Nat → State → Nat
  | 0, _ => 0
  | k + 1, s =>
    match exec c s with
    | .next t => armedBytes i t + armedTotal c i k t
    | .fault _ => 0
    | .refused _ => 0

end Sys2Proof.Machine
end

