-- ==== Sys2Proof/Certificates/Slice0/Obligations.lean ====
section
/-! DEFINITION. The statements for the provers, each a definition `Obligations.<Name> : Prop`. -/

open Sys2Proof Sys2Proof.Machine

/-! ### Encoding -/

/-- 30_encoding.md R76, R80, R82 to R87: no operand bit is lost between the encoder and the decoder. -/
def Obligations.EncodedCommandDecodesToItself : Prop :=
  ∀ i : Instr, WellFormed i → decode (encode i) = .ok i

/-- 30_encoding.md R80, R83, R89: a word that decodes is the encoding of what it decodes to, but for its row's ignored
bits, which encode as 0. -/
def Obligations.DecodedWordIsItsEncoding : Prop :=
  ∀ (w : CommandWord) (i : Instr), decode w = .ok i → WellFormed i ∧ encode i = w &&& meaningfulBits i

/-- 30_encoding.md R80, R88, R89: a word decodes exactly when `W & mask = match` for a row of the operation map, and then
to an instruction of that row and of no other. -/
def Obligations.WordDecodesExactlyWhenARowSelectsIt : Prop :=
  (∀ w : CommandWord, (∃ i, decode w = .ok i) ↔ ∃ r ∈ opcodeRows, r.selects w = true) ∧
  (∀ (w : CommandWord) (i : Instr) (r : OpcodeRow),
    decode w = .ok i → r ∈ opcodeRows → r.selects w = true → r.mnemonic = mnemonicOf i)

/-- 30_encoding.md R88: an illegal word is answered `0xFF` and changes no state, whatever `dev.state` is; only the input
queue and the two output ports, which the model adds (log 2, log 4), move on. That it is answered in every `dev.state`
is the model's reading (log 5). -/
def Obligations.IllegalWordChangesNothing : Prop :=
  responseCode .illegalCommand = 0xFF ∧
  ∀ (s : State) (w : CommandWord) (rest : List Input), s.inputs = .command w :: rest →
    (∀ r ∈ opcodeRows, r.selects w = false) →
    step s = .next { s with inputs := rest, response := some .illegalCommand, signals := [] }

/-- Words written out from 30_encoding.md R76, R80, one of each family, decode to what they stand for. -/
def Obligations.SampleWordsDecode : Prop :=
  decode 0x01810000000012340040 = .ok (.configure ⟨.IN, 1⟩ (.single 64)) ∧
  decode 0x01820000000101400100 = .ok (.configure ⟨.IN, 2⟩ (.double 0x100 0x140)) ∧
  decode 0x02002000000000040040 = .ok (.write 0x20000000 64 4) ∧
  decode 0x03002000010000030040 = .ok (.read 64 0x20000100 3) ∧
  decode 0x04810000000200000040 = .ok (.activate ⟨.IN, 1⟩ 2 64) ∧
  decode 0x07820000000000000000 = .ok (.startTransfer ⟨.IN, 2⟩) ∧
  decode 0x08080000000300000000 = .ok (.init 8 true true) ∧
  decode 0x0B000000000000000000 = .ok .start ∧
  decode 0x0E8120000000000000C8 = .ok (.send 1 0x20000000 200) ∧
  decode 0x11020000000000000000 = .ok (.completeOut 2)

/-! ### Steps, reset, the invariant -/

/-- 20_memory.md R62, R63: the first input of the queue is taken, as one step; a command word that decodes runs its
instruction at that state, the outputs of the step before withdrawn (the model's ports, log 2, log 4); an environment
step runs as what it is; with nothing queued the block waits. -/
def Obligations.StepRunsDecodedCommand : Prop :=
  ∀ s : State,
    (∀ (w : CommandWord) (rest : List Input) (i : Instr), s.inputs = .command w :: rest → decode w = .ok i →
      step s = exec i { s with inputs := rest, response := none, signals := [] }) ∧
    (∀ (w : CommandWord) (i : Instr), decode w = .ok i →
      step (s.withFetchWord 80 w.toNat) = exec i { s with response := none, signals := [] }) ∧
    (∀ (n : Nat) (rest : List Input), s.inputs = .wireIn n :: rest →
      step s = wireIn n { s with inputs := rest, response := none, signals := [] }) ∧
    (∀ (n : Nat) (bytes : List Byte) (rest : List Input), s.inputs = .wireOut n bytes :: rest →
      step s = wireOut n bytes { s with inputs := rest, response := none, signals := [] }) ∧
    (∀ (n : Nat) (rest : List Input), s.inputs = .lateWireIn n :: rest →
      step s = lateWireIn n { s with inputs := rest, response := none, signals := [] }) ∧
    (∀ (n : Nat) (bytes : List Byte) (rest : List Input), s.inputs = .lateWireOut n bytes :: rest →
      step s = lateWireOut n bytes { s with inputs := rest, response := none, signals := [] }) ∧
    (∀ (x : BusSource) (rest : List Input), s.inputs = .busEvent x :: rest →
      step s = busEvent x { s with inputs := rest, response := none, signals := [] }) ∧
    (∀ (f : StoredFlag) (rest : List Input), s.inputs = .clearFlag f :: rest →
      step s = clearFlag f { s with inputs := rest, response := none, signals := [] }) ∧
    (∀ rest : List Input, s.inputs = .busReset :: rest →
      step s = busReset { s with inputs := rest, response := none, signals := [] }) ∧
    (∀ rest : List Input, s.inputs = .fatal :: rest →
      step s = fatal { s with inputs := rest, response := none, signals := [] }) ∧
    (∀ (a : HostAddr) (v : Byte) (rest : List Input), s.inputs = .callerWrite a v :: rest →
      step s = callerWrite a v { s with inputs := rest, response := none, signals := [] }) ∧
    (s.inputs = [] → step s = .next s)

/-- 10_state.md R47, 70_reset_and_hazards.md R206, R207: what power-on leaves. Packet memory and the table are "any
value": nothing is listed in packet memory and nothing is said of the table. The input queue, the ports, the regions,
the draw counter and the late wire steps are the model's own (log 2, 4, 6, 7, 26). -/
def Obligations.PowerOnState : Prop :=
  State.reset.dev = { state := .reset, address := 0, count := 0 } ∧
  (∀ d i, State.reset.ep d i =
    { number := 0, direction := .OUT, typeCode := 0, maxPacketSize := 0, buffering := .single, address := 0,
      address0 := 0, address1 := 0, transferBuffer := 0, remainingLength := 0, remainingLengthSecondary := 0,
      transferCount := 0, stalled := false, lifecycle := .disabled, region := none }) ∧
  (∀ i, State.reset.reg i =
    { epType := .bulk, kind := false, statTx := .disabled, statRx := .disabled, dtogTx := false, dtogRx := false,
      ctrTx := false, ctrRx := false }) ∧
  (∀ i, State.reset.late i = { tx := false, rx := false, statusOnly := false }) ∧
  State.reset.cntr =
    { ctrm := false, wkupm := false, suspm := false, errm := false, sofm := false, esofm := false, resetm := false,
      l1reqm := false, fres := false, resume := false } ∧
  State.reset.istr =
    { wkup := false, susp := false, err := false, sof := false, esof := false, reset := false, l1req := false } ∧
  State.reset.btable = 0 ∧ State.reset.pullup = false ∧ State.reset.pm = [] ∧ irq State.reset = false

/-- The invariant holds after power-on. -/
def Obligations.InvariantHoldsAtReset : Prop := Inv State.reset

/-- Every step, of a command or of the environment, from any state that meets the invariant gives one that meets it:
`Busy` is never seen between commands, the device address stays 0, `fres` is back to 0, both memories stay canonical and
inside their spaces, addresses stay even, a configured record has a positive packet size and a slot below the count
(10_state.md R26, R28, R29, R30; 20_memory.md R51, R53, R54, R59; 42_lifecycle.md R112). -/
def Obligations.StepKeepsInvariant : Prop :=
  ∀ s t : State, Inv s → step s = .next t → Inv t

/-- 60_exceptions.md R188: while `dev.state` is not `Ready` every command but `init` is refused `NotReady`, and `init`
is accepted in every state. -/
def Obligations.OnlyInitRunsUnlessReady : Prop :=
  (∀ (i : Instr) (s : State), s.dev.state ≠ .ready → (∀ c hp ip, i ≠ .init c hp ip) →
    exec i s = .refused .notReady) ∧
  (∀ (s : State) (c : BitVec 8), c.toNat ≤ Config.N → ∃ t, exec (.init c true true) s = .next t ∧
    t.response = some .ok ∧ t.dev.state = .ready)

/-! ### Rules about the whole machine -/

/-- 44_bringup.md R154, R155 (the spec's own inference): no step deasserts the pull-up, and only a START command asserts
it. -/
def Obligations.PullUpRisesOnlyByStartAndStays : Prop :=
  ∀ s t : State, step s = .next t →
    (s.pullup = true → t.pullup = true) ∧
    (t.pullup = true → s.pullup = false →
      ∃ (w : CommandWord) (rest : List Input), s.inputs = .command w :: rest ∧ decode w = .ok .start)

/-- 10_state.md R24, R46: no step clears `stalled`; only a STALL command that names the record sets it. -/
def Obligations.StalledFlagSetOnlyByStallAndStays : Prop :=
  ∀ (s t : State) (d : Direction) (i : Slot), step s = .next t →
    ((s.ep d i).stalled = true → (t.ep d i).stalled = true) ∧
    ((t.ep d i).stalled = true → (s.ep d i).stalled = false →
      ∃ (w : CommandWord) (rest : List Input),
        s.inputs = .command w :: rest ∧ decode w = .ok (.stall ⟨d, i.val⟩))

/-- 10_state.md R19, R20: the buffering mode and the addresses of a record are written only by a CONFIGURE command that
names it. -/
def Obligations.BufferingWrittenOnlyByConfigure : Prop :=
  ∀ (s t : State) (d : Direction) (i : Slot), step s = .next t →
    ((t.ep d i).buffering, (t.ep d i).address, (t.ep d i).address0, (t.ep d i).address1) ≠
      ((s.ep d i).buffering, (s.ep d i).address, (s.ep d i).address0, (s.ep d i).address1) →
    ∃ (w : CommandWord) (rest : List Input) (target : MemTarget),
      s.inputs = .command w :: rest ∧ decode w = .ok (.configure ⟨d, i.val⟩ target)

/-- 10_state.md R28, R29, R30, 60_exceptions.md R187: the device context changes only by a successful INIT, which makes it
`Ready` with address 0 and the operand's count, or by `fatal`, which makes it `Error` and changes nothing else of it. -/
def Obligations.DeviceContextWrittenOnlyByInitAndFault : Prop :=
  ∀ s t : State, step s = .next t → t.dev ≠ s.dev →
    ∃ (x : Input) (rest : List Input), s.inputs = x :: rest ∧
      ((x = .fatal ∧ t.dev = { s.dev with state := .error }) ∨
       (∃ (w : CommandWord) (c : BitVec 8), x = .command w ∧ decode w = .ok (.init c true true) ∧
         t.dev = { state := .ready, address := 0, count := c }))

/-- 10_state.md R31, R44, 60_exceptions.md R189: a completion flag is set only by the wire agent, on the number and
direction it served, in a new or a late wire step. -/
def Obligations.CompletionFlagsSetOnlyByTheWire : Prop :=
  ∀ (s t : State) (i : Slot), step s = .next t →
    ((t.reg i).ctrTx = true → (s.reg i).ctrTx = false →
      ∃ rest, s.inputs = .wireIn i.val :: rest ∨ s.inputs = .lateWireIn i.val :: rest) ∧
    ((t.reg i).ctrRx = true → (s.reg i).ctrRx = false →
      ∃ bytes rest, s.inputs = .wireOut i.val bytes :: rest ∨ s.inputs = .lateWireOut i.val bytes :: rest)

/-- 45_requests_completion.md R177: what the wire agent never does, of both wire steps, new or late. -/
def Obligations.WireAgentWritesOnlyItsFields : Prop :=
  ∀ (s t : State) (n : Nat) (bytes : List Byte),
    (wireIn n s = .next t ∨ wireOut n bytes s = .next t ∨ lateWireIn n s = .next t ∨ lateWireOut n bytes s = .next t) →
    KeepsRecords s t ∧ t.dev = s.dev ∧ t.cntr = s.cntr ∧ t.btable = s.btable ∧ t.pullup = s.pullup ∧ KeepsHost s t ∧
    ∀ i : Slot,
      (t.reg i).epType = (s.reg i).epType ∧ (t.reg i).kind = (s.reg i).kind ∧
      (t.table i).addrTx = (s.table i).addrTx ∧ (t.table i).addrRx = (s.table i).addrRx ∧
      (t.table i).countTx = (s.table i).countTx ∧
      ((s.reg i).ctrTx = true → (t.reg i).ctrTx = true) ∧ ((s.reg i).ctrRx = true → (t.reg i).ctrRx = true) ∧
      ((t.reg i).statTx = .valid → (s.reg i).statTx = .valid) ∧
      ((t.reg i).statRx = .valid → (s.reg i).statRx = .valid)

/-- 20_memory.md R54, R55, 70_reset_and_hazards.md R218: a byte of caller memory changes only by the caller itself, by a
READ whose bytes cover it, or by a COMPLETE_OUT whose record's caller region holds it. -/
def Obligations.CallerMemoryWrittenOnlyInsideItsRegion : Prop :=
  ∀ (s t : State) (x : Nat), step s = .next t → hostByte t x ≠ hostByte s x →
    ∃ (inp : Input) (rest : List Input), s.inputs = inp :: rest ∧
      ((∃ (a : HostAddr) (v : Byte), inp = .callerWrite a v ∧ a.toNat = x) ∨
       (∃ (w : CommandWord) (a : PmAddr) (buf : HostAddr) (n : BitVec 16), inp = .command w ∧
         decode w = .ok (.read a buf n) ∧ buf.toNat ≤ x ∧ x < buf.toNat + n.toNat) ∨
       (∃ (w : CommandWord) (i : Slot) (r : Region), inp = .command w ∧ decode w = .ok (.completeOut i.val) ∧
         (s.ep .OUT i).region = some r ∧ r.holds x = true))

/-! ### Endpoint Registry -/

/-- 40_registry.md R96: both forms of `configure`, what they write and leave, and the refusals: a slot at or above the
count, an odd address. -/
def Obligations.ConfigureSetsTheRecord : Prop :=
  ∀ (s : State) (ea : EpAddr), s.dev.state = .ready →
    (s.dev.count.toNat ≤ ea.num → ∀ target, exec (.configure ea target) s = .refused .slotOutOfRange) ∧
    ∀ i : Slot, Names s ea.num i →
    (∀ a : PmAddr, a.toNat % 2 = 0 → ∃ t, exec (.configure ea (.single a)) s = .next t ∧ t.response = some .ok ∧
      t.ep ea.dir i = { s.ep ea.dir i with buffering := .single, address := a } ∧
      OnlyTouches s t ea.dir i ∧ t.reg i = s.reg i ∧ t.table i = s.table i ∧ KeepsPm s t ∧ KeepsHost s t ∧
      t.signals = s.signals) ∧
    (∀ a0 a1 : PmAddr, a0.toNat % 2 = 0 → a1.toNat % 2 = 0 →
      ∃ t, exec (.configure ea (.double a0 a1)) s = .next t ∧ t.response = some .ok ∧
      t.ep ea.dir i = { s.ep ea.dir i with buffering := .double, address0 := a0, address1 := a1 } ∧
      OnlyTouches s t ea.dir i ∧ t.reg i = s.reg i ∧ t.table i = s.table i ∧ KeepsPm s t ∧ KeepsHost s t ∧
      t.signals = s.signals) ∧
    (∀ a : PmAddr, a.toNat % 2 = 1 → exec (.configure ea (.single a)) s = .refused .oddPacketAddress) ∧
    (∀ a0 a1 : PmAddr, a0.toNat % 2 = 1 ∨ a1.toNat % 2 = 1 →
      exec (.configure ea (.double a0 a1)) s = .refused .oddPacketAddress)

/-- 40_registry.md R98: re-configuring overwrites; the same `configure` again changes nothing more. -/
def Obligations.ConfigureTwiceIsConfigureOnce : Prop :=
  ∀ (s t : State) (ea : EpAddr) (target : MemTarget), exec (.configure ea target) s = .next t →
    exec (.configure ea target) t = .next t

/-- 30_encoding.md R82, 10_state.md R26: every command that names a slot at or above the configured count is refused, but
for `stall`, which has its own bound. -/
def Obligations.SlotBeyondTheCountIsRefused : Prop :=
  ∀ (s : State) (ea : EpAddr), s.dev.state = .ready → s.dev.count.toNat ≤ ea.num →
    (∀ target, exec (.configure ea target) s = .refused .slotOutOfRange) ∧
    (∀ ty mps, exec (.activate ea ty mps) s = .refused .slotOutOfRange) ∧
    exec (.deactivate ea) s = .refused .slotOutOfRange ∧
    exec (.startTransfer ea) s = .refused .slotOutOfRange ∧
    (∀ buf len, exec (.send ea.num buf len) s = .refused .slotOutOfRange) ∧
    (∀ buf len, exec (.receive ea.num buf len) s = .refused .slotOutOfRange) ∧
    exec (.completeIn ea.num) s = .refused .slotOutOfRange ∧
    exec (.completeOut ea.num) s = .refused .slotOutOfRange

/-! ### Packet-Memory Transfer Engine -/

/-- 20_memory.md R57, 41_transfer_engine.md R101, R102, R107: WRITE completes on an admitted request, pairs the bytes low
byte first, and touches exactly its words. Nothing is said of the high byte of the last word of an odd request. -/
def Obligations.WriteStoresCallerBytes : Prop :=
  ∀ (s : State) (buf : HostAddr) (a : PmAddr) (n : BitVec 16), s.dev.state = .ready → a.toNat % 2 = 0 →
    a.toNat / 2 + (n.toNat + 1) / 2 ≤ Config.pmWords → (n.toNat = 0 ∨ buf.toNat + n.toNat ≤ Config.hostSize) →
    ∃ t, exec (.write buf a n) s = .next t ∧ t.response = some .ok ∧
      (∀ i, 2 * i + 1 < n.toNat →
        pmWord t (a.toNat / 2 + i) = hostByte s (buf.toNat + 2 * i + 1) ++ hostByte s (buf.toNat + 2 * i)) ∧
      (n.toNat % 2 = 1 → pmByte t (a.toNat + (n.toNat - 1)) = hostByte s (buf.toNat + (n.toNat - 1))) ∧
      KeepsPmOutside s t a.toNat (2 * ((n.toNat + 1) / 2)) ∧ KeepsHost s t ∧ KeepsRecords s t ∧ KeepsRegs s t ∧
      KeepsTable s t ∧ KeepsGlobals s t ∧ t.signals = s.signals

/-- 20_memory.md R58, 41_transfer_engine.md R103: the high byte of the last word of an odd `write`, under either policy.
Outside the caller region the over-read byte is any value, so nothing is said of it. -/
def Obligations.OddWriteFillsTheLastHighByte : Prop :=
  ∀ (s t : State) (policy : OddWritePolicy) (region : Option Region) (buf : HostAddr) (a : PmAddr) (n : Nat),
    n % 2 = 1 → pmaWrite policy region buf a n s = .next t →
    (policy = .maskZero → pmByte t (a.toNat + n) = 0) ∧
    (policy = .overread → regionHolds region (buf.toNat + n) = true →
      pmByte t (a.toNat + n) = hostByte s (buf.toNat + n)) ∧
    pmByte t (a.toNat + (n - 1)) = hostByte s (buf.toNat + (n - 1))

/-- 41_transfer_engine.md R104, R105, R107: READ completes on an admitted request, stores exactly its `n` bytes, and
leaves packet memory and every other caller byte, the one past an odd request among them. -/
def Obligations.ReadReturnsPacketBytes : Prop :=
  ∀ (s : State) (a : PmAddr) (buf : HostAddr) (n : BitVec 16), s.dev.state = .ready → a.toNat % 2 = 0 →
    a.toNat / 2 + (n.toNat + 1) / 2 ≤ Config.pmWords → (n.toNat = 0 ∨ buf.toNat + n.toNat ≤ Config.hostSize) →
    ∃ t, exec (.read a buf n) s = .next t ∧ t.response = some .ok ∧
      (∀ k, k < n.toNat → hostByte t (buf.toNat + k) = pmByte s (a.toNat + k)) ∧
      KeepsHostOutside s t buf.toNat n.toNat ∧ KeepsPm s t ∧ KeepsRecords s t ∧ KeepsRegs s t ∧
      KeepsTable s t ∧ KeepsGlobals s t ∧ t.signals = s.signals

/-- 41_transfer_engine.md R106: `write` then `read` over the same words, under either policy, with whatever happens in
between as long as it leaves those words alone, returns the original bytes, for even counts and for odd ones (the
spec's own inference); and the two commands complete one after the other. -/
def Obligations.WriteThenReadReturnsTheBytes : Prop :=
  (∀ (policy : OddWritePolicy) (r r' : Option Region) (s s1 s2 t : State) (buf buf' : HostAddr) (a : PmAddr) (n : Nat),
    pmaWrite policy r buf a n s = .next s1 →
    (∀ x, a.toNat ≤ x → x < a.toNat + 2 * ((n + 1) / 2) → pmByte s2 x = pmByte s1 x) →
    pmaRead r' a buf' n s2 = .next t →
    ∀ k, k < n → hostByte t (buf'.toNat + k) = hostByte s (buf.toNat + k)) ∧
  (∀ (s : State) (buf buf' : HostAddr) (a : PmAddr) (n : BitVec 16), s.dev.state = .ready → a.toNat % 2 = 0 →
    a.toNat / 2 + (n.toNat + 1) / 2 ≤ Config.pmWords →
    buf.toNat + n.toNat ≤ Config.hostSize → buf'.toNat + n.toNat ≤ Config.hostSize →
    ∃ s1 t, exec (.write buf a n) s = .next s1 ∧ exec (.read a buf' n) s1 = .next t ∧
      ∀ k, k < n.toNat → hostByte t (buf'.toNat + k) = hostByte s (buf.toNat + k))

/-- 20_memory.md R53, R55: a request at an odd address or past the end of packet memory is refused; one whose last host
address does not exist is refused. -/
def Obligations.InadmissibleRequestIsRefused : Prop :=
  ∀ (s : State) (buf : HostAddr) (a : PmAddr) (n : BitVec 16), s.dev.state = .ready →
    ((a.toNat % 2 = 1 ∨ Config.pmWords < a.toNat / 2 + (n.toNat + 1) / 2) →
      exec (.write buf a n) s = .refused .packetMemoryRange ∧ exec (.read a buf n) s = .refused .packetMemoryRange) ∧
    (a.toNat % 2 = 0 → a.toNat / 2 + (n.toNat + 1) / 2 ≤ Config.pmWords → n.toNat ≠ 0 →
      Config.hostSize < buf.toNat + n.toNat →
      exec (.write buf a n) s = .refused .outsideCallerRegion ∧
        exec (.read a buf n) s = .refused .outsideCallerRegion)

/-! ### Endpoint lifecycle -/

/-- 42_lifecycle.md R111, R112, 30_encoding.md R84, 60_exceptions.md R181: an unrecognised type is answered
`InvalidEndpointType` (`0x03`) with no state change, and a zero packet size is refused. -/
def Obligations.ActivateFailuresChangeNothing : Prop :=
  responseCode .invalidEndpointType = 0x03 ∧
  ∀ (s : State) (ea : EpAddr) (i : Slot) (code : BitVec 8), Names s ea.num i →
    (4 ≤ code.toNat → ∀ mps, exec (.activate ea code mps) s = .next { s with response := some .invalidEndpointType }) ∧
    (code.toNat < 4 → exec (.activate ea code 0) s = .refused .zeroMaxPacket)

/-- 42_lifecycle.md R111 to R115, R117: `activate` on a single-buffered record, in both directions and for every type.
That it leaves no late wire step of its direction over is the model's choice (log 26). -/
def Obligations.ActivateSingleSetsItsDirection : Prop :=
  ∀ (s : State) (ea : EpAddr) (i : Slot) (ty : EpType) (mps : Len), Names s ea.num i → mps ≠ 0 →
    (s.ep ea.dir i).buffering = .single →
    ∃ t, exec (.activate ea (portTypeCode ty) mps) s = .next t ∧ t.response = some .ok ∧
      t.ep ea.dir i =
        { s.ep ea.dir i with
          number := BitVec.ofNat 7 i.val, direction := ea.dir, typeCode := portTypeCode ty, maxPacketSize := mps,
          lifecycle := .configured } ∧
      (ea.dir = .IN →
        t.reg i =
          { s.reg i with
            epType := ty, kind := false, dtogTx := false,
            statTx := if ty = .isochronous then .disabled else .nak } ∧
        t.table i = { s.table i with addrTx := (s.ep ea.dir i).address }) ∧
      (ea.dir = .OUT →
        t.reg i =
          { s.reg i with
            epType := ty, kind := false, dtogRx := false, statRx := if i.val = 0 then .valid else .nak } ∧
        t.table i = { s.table i with addrRx := (s.ep ea.dir i).address }) ∧
      (ea.dir = .IN → t.late i = { s.late i with tx := false }) ∧
      (ea.dir = .OUT → t.late i = { s.late i with rx := false, statusOnly := false }) ∧
      OnlyTouchesWire s t ea.dir i ∧ KeepsPm s t ∧ KeepsHost s t ∧ t.signals = s.signals

/-- 42_lifecycle.md R111 to R113, R116, R117: `activate` on a double-buffered record takes the whole endpoint number.
That it leaves no late wire step of the number over is the model's choice (log 26). -/
def Obligations.ActivateDoubleSetsBothDirections : Prop :=
  ∀ (s : State) (ea : EpAddr) (i : Slot) (ty : EpType) (mps : Len), Names s ea.num i → mps ≠ 0 →
    (s.ep ea.dir i).buffering = .double →
    ∃ t, exec (.activate ea (portTypeCode ty) mps) s = .next t ∧ t.response = some .ok ∧
      t.ep ea.dir i =
        { s.ep ea.dir i with
          number := BitVec.ofNat 7 i.val, direction := ea.dir, typeCode := portTypeCode ty, maxPacketSize := mps,
          lifecycle := .configured } ∧
      t.reg i =
        { s.reg i with
          epType := ty, kind := decide (ty = .bulk), dtogTx := false, dtogRx := false,
          statTx := if ea.dir = .OUT ∨ ty = .isochronous then .disabled else .nak,
          statRx := if ea.dir = .OUT then .valid else .disabled } ∧
      t.table i =
        { s.table i with addrTx := (s.ep ea.dir i).address0, addrRx := (s.ep ea.dir i).address1 } ∧
      t.late i = { tx := false, rx := false, statusOnly := false } ∧ OnlyTouchesWire s t ea.dir i ∧ KeepsPm s t ∧ KeepsHost s t ∧
      t.signals = s.signals

/-- 42_lifecycle.md R118, R119: `deactivate` refuses a slot at or above the count; else it clears its own direction, or
both of a double-buffered record, withdraws no wire step enabled before (70_reset_and_hazards.md R217, log 26), and
leaves everything else. -/
def Obligations.DeactivateDisablesItsDirections : Prop :=
  ∀ (s : State) (ea : EpAddr), s.dev.state = .ready →
    (s.dev.count.toNat ≤ ea.num → exec (.deactivate ea) s = .refused .slotOutOfRange) ∧
    ∀ i : Slot, Names s ea.num i →
    ∃ t, exec (.deactivate ea) s = .next t ∧ t.response = some .ok ∧
      t.ep ea.dir i = { s.ep ea.dir i with lifecycle := .disabled } ∧
      ((s.ep ea.dir i).buffering = .single → ea.dir = .IN →
        t.reg i = { s.reg i with dtogTx := false, statTx := .disabled }) ∧
      ((s.ep ea.dir i).buffering = .single → ea.dir = .OUT →
        t.reg i = { s.reg i with dtogRx := false, statRx := .disabled }) ∧
      ((s.ep ea.dir i).buffering = .double →
        t.reg i =
          { s.reg i with dtogRx := false, dtogTx := false, statRx := .disabled, statTx := .disabled }) ∧
      ((s.ep ea.dir i).buffering = .single → ea.dir = .IN →
        t.late i =
          { s.late i with tx := if (s.reg i).statTx = .valid then s.pullup && (s.reg i).wireSingle else (s.late i).tx }) ∧
      ((s.ep ea.dir i).buffering = .single → ea.dir = .OUT →
        t.late i =
          { s.late i with
            rx := if (s.reg i).statRx = .valid then s.pullup && (s.reg i).wireSingle else (s.late i).rx,
            statusOnly := if (s.reg i).statRx = .valid then s.pullup && (s.reg i).statusOnly else (s.late i).statusOnly }) ∧
      ((s.ep ea.dir i).buffering = .double →
        t.late i =
          { tx := if (s.reg i).statTx = .valid then s.pullup && (s.reg i).wireSingle else (s.late i).tx,
            rx := if (s.reg i).statRx = .valid then s.pullup && (s.reg i).wireSingle else (s.late i).rx,
            statusOnly :=
              if (s.reg i).statRx = .valid then s.pullup && (s.reg i).statusOnly else (s.late i).statusOnly }) ∧
      t.table i = s.table i ∧ OnlyTouchesWire s t ea.dir i ∧ KeepsPm s t ∧ KeepsHost s t ∧ t.signals = s.signals

/-- 42_lifecycle.md R120: `activate` then `deactivate`, regardless of the state before. -/
def Obligations.ActivateThenDeactivateLeavesDisabled : Prop :=
  ∀ (s : State) (ea : EpAddr) (i : Slot) (ty : EpType) (mps : Len), Names s ea.num i → mps ≠ 0 →
    ∃ t u, exec (.activate ea (portTypeCode ty) mps) s = .next t ∧ exec (.deactivate ea) t = .next u ∧
      (u.reg i).status ea.dir = .disabled ∧ (u.reg i).toggle ea.dir = false ∧
      ((s.ep ea.dir i).buffering = .double → ∀ d, (u.reg i).status d = .disabled ∧ (u.reg i).toggle d = false) ∧
      ((s.ep ea.dir i).buffering = .single → ∀ d, d ≠ ea.dir →
        (u.reg i).status d = (s.reg i).status d ∧ (u.reg i).toggle d = (s.reg i).toggle d)

/-- 42_lifecycle.md R121, R123: the silent no-op above the bound, the refusal of a slot that does not exist, and the stall,
at the default of `STALL_STRICT_GT`, which withdraws no wire step enabled before (70_reset_and_hazards.md R217, log 26);
and the other setting, which ends at the count. -/
def Obligations.StallForcesItsDirection : Prop :=
  ∀ (s : State) (ea : EpAddr), s.dev.state = .ready →
    (s.dev.count.toNat < ea.num → exec (.stall ea) s = .next { s with response := some .ok }) ∧
    (ea.num ≤ s.dev.count.toNat → Config.N ≤ ea.num → exec (.stall ea) s = .refused .slotOutOfRange) ∧
    (∀ i : Slot, ea.num = i.val → i.val ≤ s.dev.count.toNat →
      ∃ t, exec (.stall ea) s = .next t ∧ t.response = some .ok ∧
        t.ep ea.dir i = { s.ep ea.dir i with stalled := true } ∧
        (ea.dir = .IN → t.reg i = { s.reg i with statTx := .stall }) ∧
        (ea.dir = .OUT → t.reg i = { s.reg i with statRx := .stall }) ∧
        (ea.dir = .IN → t.late i =
          { s.late i with tx := if (s.reg i).statTx = .valid then s.pullup && (s.reg i).wireSingle else (s.late i).tx }) ∧
        (ea.dir = .OUT → t.late i =
          { s.late i with
            rx := if (s.reg i).statRx = .valid then s.pullup && (s.reg i).wireSingle else (s.late i).rx,
            statusOnly := if (s.reg i).statRx = .valid then s.pullup && (s.reg i).statusOnly else (s.late i).statusOnly }) ∧
        t.table i = s.table i ∧ OnlyTouchesWire s t ea.dir i ∧ KeepsPm s t ∧ KeepsHost s t ∧ t.signals = s.signals) ∧
    (s.dev.count.toNat ≤ ea.num → stallWith false ea s = .next { s with response := some .ok }) ∧
    (ea.num < s.dev.count.toNat → stallWith false ea s = exec (.stall ea) s)

/-- 42_lifecycle.md R122, 90_conflicts.md C1: the two settings of `STALL_STRICT_GT` differ only at the configured count,
and under the other setting `stall` there is a no-op. -/
def Obligations.StallSettingsDifferOnlyAtTheCount : Prop :=
  ∀ (s : State) (ea : EpAddr),
    (ea.num ≠ s.dev.count.toNat → stallWith true ea s = stallWith false ea s) ∧
    (s.dev.state = .ready → s.dev.count.toNat ≤ ea.num →
      stallWith false ea s = .next { s with response := some .ok })

/-! ### Transfer Scheduler -/

/-- 43_scheduler.md R126, R128: the IN single-buffer path; a packet too long for the count field, or one that packet
memory or the caller region does not admit, is refused. -/
def Obligations.InSingleStepArmsOnePacket : Prop :=
  ∀ (s : State) (n : Nat) (i : Slot) (e : EndpointRecord) (len : Nat), Names s n i → e = s.ep .IN i →
    e.buffering = .single → len = min e.maxPacketSize.toNat e.remainingLength.toNat →
    (Config.countLimit ≤ len → exec (.startTransfer ⟨.IN, n⟩) s = .refused .countTooLarge) ∧
    (len < Config.countLimit → ¬PacketAdmitted e e.transferBuffer e.address len →
      exec (.startTransfer ⟨.IN, n⟩) s = .refused .packetMemoryRange ∨
        exec (.startTransfer ⟨.IN, n⟩) s = .refused .outsideCallerRegion) ∧
    (len < Config.countLimit → PacketAdmitted e e.transferBuffer e.address len →
      ∃ t, exec (.startTransfer ⟨.IN, n⟩) s = .next t ∧ t.response = some .ok ∧
        PacketHolds s t e.transferBuffer e.address len ∧
        KeepsPmOutside s t e.address.toNat (2 * ((len + 1) / 2)) ∧
        t.table i = { s.table i with countTx := BitVec.ofNat 10 len } ∧
        t.reg i = { s.reg i with statTx := .valid } ∧ t.ep .IN i = e ∧
        OnlyTouches s t .IN i ∧ KeepsHost s t ∧ t.signals = s.signals)

/-- 43_scheduler.md R130, R131: the double fill, and what is refused. The second packet is always there; the first one too
when the two buffers of the record do not meet. -/
def Obligations.InDoubleBulkStepFillsBothBuffers : Prop :=
  ∀ (s : State) (n : Nat) (i : Slot) (e : EndpointRecord) (free : Bool) (mps len2 : Nat), Names s n i →
    e = s.ep .IN i → e.buffering = .double → e.epType = some .bulk → mps = e.maxPacketSize.toNat →
    mps < e.remainingLengthSecondary.toNat → free = (s.reg i).dtogTx →
    len2 = min mps (e.remainingLengthSecondary.toNat - mps) →
    (Config.countLimit ≤ mps → exec (.startTransfer ⟨.IN, n⟩) s = .refused .countTooLarge) ∧
    (mps < Config.countLimit →
      ¬(PacketAdmitted e e.transferBuffer (e.bufferAddress free) mps ∧
        PacketAdmitted e (e.transferBuffer + BitVec.ofNat 32 mps) (e.bufferAddress (!free)) len2) →
      exec (.startTransfer ⟨.IN, n⟩) s = .refused .packetMemoryRange ∨
        exec (.startTransfer ⟨.IN, n⟩) s = .refused .outsideCallerRegion) ∧
    (mps < Config.countLimit → PacketAdmitted e e.transferBuffer (e.bufferAddress free) mps →
      PacketAdmitted e (e.transferBuffer + BitVec.ofNat 32 mps) (e.bufferAddress (!free)) len2 →
      ∃ t, exec (.startTransfer ⟨.IN, n⟩) s = .next t ∧ t.response = some .ok ∧
        PacketHolds s t (e.transferBuffer + BitVec.ofNat 32 mps) (e.bufferAddress (!free)) len2 ∧
        (Apart (e.bufferAddress free).toNat mps (e.bufferAddress (!free)).toNat (2 * ((len2 + 1) / 2)) →
          PacketHolds s t e.transferBuffer (e.bufferAddress free) mps) ∧
        (∀ y, (y < (e.bufferAddress free).toNat ∨ (e.bufferAddress free).toNat + 2 * ((mps + 1) / 2) ≤ y) →
          (y < (e.bufferAddress (!free)).toNat ∨ (e.bufferAddress (!free)).toNat + 2 * ((len2 + 1) / 2) ≤ y) →
          pmByte t y = pmByte s y) ∧
        t.table i =
          { s.table i with
            countTx := BitVec.ofNat 10 (if free then len2 else mps),
            countRx := BitVec.ofNat 10 (if free then mps else len2) } ∧
        t.reg i = { s.reg i with kind := true, statTx := .valid } ∧
        t.ep .IN i =
          { e with
            transferBuffer := e.transferBuffer + BitVec.ofNat 32 mps,
            remainingLengthSecondary := BitVec.ofNat 32 (e.remainingLengthSecondary.toNat - mps - len2) } ∧
        OnlyTouches s t .IN i ∧ KeepsHost s t ∧ t.signals = s.signals)

/-- 43_scheduler.md R132: the automatic switch to single-buffer semantics at the last packet, and what is refused. -/
def Obligations.InDoubleBulkStepSwitchesAtTheLastPacket : Prop :=
  ∀ (s : State) (n : Nat) (i : Slot) (e : EndpointRecord) (len : Nat), Names s n i → e = s.ep .IN i →
    e.buffering = .double → e.epType = some .bulk → len = e.remainingLengthSecondary.toNat →
    len ≤ e.maxPacketSize.toNat →
    (Config.countLimit ≤ len → exec (.startTransfer ⟨.IN, n⟩) s = .refused .countTooLarge) ∧
    (len < Config.countLimit → ¬PacketAdmitted e e.transferBuffer e.address0 len →
      exec (.startTransfer ⟨.IN, n⟩) s = .refused .packetMemoryRange ∨
        exec (.startTransfer ⟨.IN, n⟩) s = .refused .outsideCallerRegion) ∧
    (len < Config.countLimit → PacketAdmitted e e.transferBuffer e.address0 len →
      ∃ t, exec (.startTransfer ⟨.IN, n⟩) s = .next t ∧ t.response = some .ok ∧
        PacketHolds s t e.transferBuffer e.address0 len ∧
        KeepsPmOutside s t e.address0.toNat (2 * ((len + 1) / 2)) ∧
        t.table i = { s.table i with countTx := BitVec.ofNat 10 len } ∧
        t.reg i = { s.reg i with kind := false, statTx := .valid } ∧
        t.ep .IN i = { e with remainingLengthSecondary := 0 } ∧
        OnlyTouches s t .IN i ∧ KeepsHost s t ∧ t.signals = s.signals)

/-- 43_scheduler.md R130, R134: one packet into the free buffer, no switch, and what is refused. -/
def Obligations.InDoubleIsoStepFillsTheFreeBuffer : Prop :=
  ∀ (s : State) (n : Nat) (i : Slot) (e : EndpointRecord) (free : Bool) (len : Nat), Names s n i → e = s.ep .IN i →
    e.buffering = .double → e.epType = some .isochronous → free = (s.reg i).dtogTx →
    len = min e.maxPacketSize.toNat e.remainingLength.toNat →
    (Config.countLimit ≤ len → exec (.startTransfer ⟨.IN, n⟩) s = .refused .countTooLarge) ∧
    (len < Config.countLimit → ¬PacketAdmitted e e.transferBuffer (e.bufferAddress free) len →
      exec (.startTransfer ⟨.IN, n⟩) s = .refused .packetMemoryRange ∨
        exec (.startTransfer ⟨.IN, n⟩) s = .refused .outsideCallerRegion) ∧
    (len < Config.countLimit → PacketAdmitted e e.transferBuffer (e.bufferAddress free) len →
      ∃ t, exec (.startTransfer ⟨.IN, n⟩) s = .next t ∧ t.response = some .ok ∧
        PacketHolds s t e.transferBuffer (e.bufferAddress free) len ∧
        KeepsPmOutside s t (e.bufferAddress free).toNat (2 * ((len + 1) / 2)) ∧
        (free = false → t.table i = { s.table i with countTx := BitVec.ofNat 10 len }) ∧
        (free = true → t.table i = { s.table i with countRx := BitVec.ofNat 10 len }) ∧
        t.reg i = { s.reg i with statTx := .valid } ∧
        t.ep .IN i =
          { e with remainingLengthSecondary := BitVec.ofNat 32 (e.remainingLengthSecondary.toNat - len) } ∧
        OnlyTouches s t .IN i ∧ KeepsHost s t ∧ t.signals = s.signals)

/-- 43_scheduler.md R135: the IN double-buffered Control and Interrupt path is refused. -/
def Obligations.InDoubleOtherTypeIsRefused : Prop :=
  ∀ (s : State) (n : Nat) (i : Slot), Names s n i → (s.ep .IN i).buffering = .double →
    ((s.ep .IN i).epType = some .control ∨ (s.ep .IN i).epType = some .interrupt) →
    exec (.startTransfer ⟨.IN, n⟩) s = .refused .inDoubleOtherType

/-- 43_scheduler.md R136, R137: the OUT single-buffer path, the status stage and every other case. -/
def Obligations.OutSingleStepBooksOnePacket : Prop :=
  ∀ (s : State) (n : Nat) (i : Slot) (e : EndpointRecord), Names s n i → e = s.ep .OUT i → e.buffering = .single →
    ∃ t, exec (.startTransfer ⟨.OUT, n⟩) s = .next t ∧ t.response = some .ok ∧
      (e.remainingLength = 0 ∧ e.epType = some .control →
        t.reg i = { s.reg i with kind := true, statRx := .valid } ∧ t.ep .OUT i = e) ∧
      (¬(e.remainingLength = 0 ∧ e.epType = some .control) →
        t.reg i = { s.reg i with kind := false, statRx := .valid } ∧
        (e.maxPacketSize < e.remainingLength →
          t.ep .OUT i = { e with remainingLength := e.remainingLength - e.maxPacketSize }) ∧
        (¬ e.maxPacketSize < e.remainingLength → t.ep .OUT i = { e with remainingLength := 0 })) ∧
      t.table i = s.table i ∧ OnlyTouches s t .OUT i ∧ KeepsPm s t ∧ KeepsHost s t ∧ t.signals = s.signals

/-- 43_scheduler.md R138 to R141: the OUT double-buffer paths: bulk with its release of a blocked pair of buffers,
isochronous, and the silent no-op of the two other types. -/
def Obligations.OutDoubleStepByType : Prop :=
  ∀ (s : State) (n : Nat) (i : Slot) (e : EndpointRecord), Names s n i → e = s.ep .OUT i → e.buffering = .double →
    ∃ t, exec (.startTransfer ⟨.OUT, n⟩) s = .next t ∧ t.response = some .ok ∧
      (e.epType = some .bulk → t.ep .OUT i = e ∧
        (e.transferCount ≠ 0 ∧ (s.reg i).dtogRx = (s.reg i).dtogTx →
          t.reg i = { s.reg i with dtogTx := !(s.reg i).dtogTx, statRx := .valid }) ∧
        (¬(e.transferCount ≠ 0 ∧ (s.reg i).dtogRx = (s.reg i).dtogTx) →
          t.reg i = { s.reg i with statRx := .valid })) ∧
      (e.epType = some .isochronous →
        t.ep .OUT i = { e with remainingLength := 0 } ∧ t.reg i = { s.reg i with statRx := .valid }) ∧
      (e.epType = some .control ∨ e.epType = some .interrupt → t = { s with response := some .ok }) ∧
      t.table i = s.table i ∧ OnlyTouches s t .OUT i ∧ KeepsPm s t ∧ KeepsHost s t ∧ t.signals = s.signals

/-- 43_scheduler.md R127: every path but the fall-through no-op ends with the direction's status `Valid`. -/
def Obligations.EverySchedulingPathEndsValid : Prop :=
  ∀ (s t : State) (ea : EpAddr) (i : Slot), ea.num = i.val → exec (.startTransfer ea) s = .next t →
    ¬(ea.dir = .OUT ∧ (s.ep .OUT i).buffering = .double ∧ (s.ep .OUT i).epType ≠ some .bulk ∧
      (s.ep .OUT i).epType ≠ some .isochronous) →
    (t.reg i).status ea.dir = .valid

/-- 43_scheduler.md R142: what no path of the scheduler writes, and the one place that writes `dtog_tx`. -/
def Obligations.SchedulerWritesOnlyItsFields : Prop :=
  ∀ (s t : State) (ea : EpAddr) (i : Slot), ea.num = i.val → exec (.startTransfer ea) s = .next t →
    t.response = some .ok ∧ OnlyTouches s t ea.dir i ∧ KeepsHost s t ∧
    (t.reg i).epType = (s.reg i).epType ∧ (t.reg i).dtogRx = (s.reg i).dtogRx ∧
    (t.reg i).ctrTx = (s.reg i).ctrTx ∧ (t.reg i).ctrRx = (s.reg i).ctrRx ∧
    (t.ep ea.dir i).stalled = (s.ep ea.dir i).stalled ∧
    (t.ep ea.dir i).lifecycle = (s.ep ea.dir i).lifecycle ∧
    (t.reg i).status (otherDirection ea.dir) = (s.reg i).status (otherDirection ea.dir) ∧
    ((t.reg i).dtogTx ≠ (s.reg i).dtogTx →
      ea.dir = .OUT ∧ (s.ep .OUT i).buffering = .double ∧ (s.ep .OUT i).epType = some .bulk ∧
        (s.ep .OUT i).transferCount ≠ 0 ∧ (s.reg i).dtogRx = (s.reg i).dtogTx) ∧
    (t.table i).addrTx = (s.table i).addrTx ∧ (t.table i).addrRx = (s.table i).addrRx ∧
    (ea.dir = .OUT → KeepsPm s t ∧ t.table i = s.table i)

/-- 43_scheduler.md R133: across repeated calls on a bulk double-buffered IN record, the bytes put into packet memory and
the secondary length left always add up to the original secondary length; once the calls could have covered it, nothing
is left, and double buffering has been switched off. The sum is the spec's own inference. -/
def Obligations.BulkDoubleBufferedBytesAddUp : Prop :=
  ∀ (s t : State) (n : Nat) (i : Slot) (k : Nat), Names s n i → (s.ep .IN i).buffering = .double →
    (s.ep .IN i).epType = some .bulk → repeatCommand (.startTransfer ⟨.IN, n⟩) k s = .next t →
    armedTotal (.startTransfer ⟨.IN, n⟩) i k s + (t.ep .IN i).remainingLengthSecondary.toNat =
      (s.ep .IN i).remainingLengthSecondary.toNat ∧
    (1 ≤ k → (s.ep .IN i).remainingLengthSecondary.toNat ≤ k * (s.ep .IN i).maxPacketSize.toNat →
      (t.ep .IN i).remainingLengthSecondary = 0 ∧ (t.reg i).kind = false ∧ (t.reg i).statTx = .valid)

/-! ### Bring-up -/

/-- 44_bringup.md R146: the checks of `init`, in their order, in every `dev.state`. -/
def Obligations.InitErrorsChangeNothing : Prop :=
  responseCode .nullHandle = 0x01 ∧ responseCode .nullInstance = 0x02 ∧
  ∀ (s : State) (c : BitVec 8),
    (∀ ip, exec (.init c false ip) s = .next { s with response := some .nullHandle }) ∧
    exec (.init c true false) s = .next { s with response := some .nullInstance } ∧
    (Config.N < c.toNat → exec (.init c true true) s = .refused .countExceedsSlots)

/-- 44_bringup.md R147, R148, R149, 70_reset_and_hazards.md R206, R207: what a successful `init` writes and keeps, from
every state. That it also ends every borrow of a caller region is the model's choice (log 6). -/
def Obligations.InitBringsUpTheBlock : Prop :=
  ∀ (s : State) (c : BitVec 8), c.toNat ≤ Config.N →
    ∃ t, exec (.init c true true) s = .next t ∧ t.response = some .ok ∧
      t.dev = { state := .ready, address := 0, count := c } ∧
      (∀ d i, t.ep d i =
        { s.ep d i with
          direction := .OUT, number := 0, typeCode := 0, maxPacketSize := 0, transferBuffer := 0,
          remainingLength := 0, remainingLengthSecondary := 0, transferCount := 0, lifecycle := .disabled,
          region := none }) ∧
      (∀ i, t.reg i =
        { epType := .bulk, kind := false, statTx := .disabled, statRx := .disabled, dtogTx := false,
          dtogRx := false, ctrTx := false, ctrRx := false }) ∧
      t.cntr =
        { ctrm := false, wkupm := false, suspm := false, errm := false, sofm := false, esofm := false,
          resetm := false, l1reqm := false, fres := false, resume := false } ∧
      t.istr =
        { wkup := false, susp := false, err := false, sof := false, esof := false, reset := false,
          l1req := false } ∧
      (∀ i, t.late i = { tx := false, rx := false, statusOnly := false }) ∧ t.btable = Config.btableFixed ∧ irq t = false ∧
      t.pullup = s.pullup ∧ KeepsTable s t ∧ KeepsPm s t ∧ KeepsHost s t ∧ t.inputs = s.inputs ∧
      t.signals = s.signals

/-- 44_bringup.md R151, R154, R156, R157: the operand-less commands, whole: all eight enables in one write, the pull-up,
the resume bit; everything else as it was. -/
def Obligations.EnablesPullUpAndResumeAreWritten : Prop :=
  ∀ s : State, s.dev.state = .ready →
    exec .enableInterrupts s =
      .next { s with
        cntr := { ctrm := true, wkupm := true, suspm := true, errm := true, sofm := true, esofm := true,
                  resetm := true, l1reqm := true, fres := s.cntr.fres, resume := s.cntr.resume },
        response := some .ok } ∧
    exec .start s =
      .next { s with
        cntr := { ctrm := true, wkupm := true, suspm := true, errm := true, sofm := true, esofm := true,
                  resetm := true, l1reqm := true, fres := s.cntr.fres, resume := s.cntr.resume },
        pullup := true, response := some .ok } ∧
    exec .activateRemoteWakeup s =
      .next { s with cntr := { s.cntr with resume := true }, response := some .ok } ∧
    exec .deactivateRemoteWakeup s =
      .next { s with cntr := { s.cntr with resume := false }, response := some .ok }

/-- 44_bringup.md R152, 10_state.md R36, R39: disabling writes the eight enables and nothing else, `irq` falls, no pending
flag is lost, and enabling again raises `irq` exactly when some source is pending. -/
def Obligations.MaskedSourceRaisesIrqWhenEnabled : Prop :=
  ∀ s : State, s.dev.state = .ready →
    ∃ t u, exec .disableInterrupts s = .next t ∧ exec .enableInterrupts t = .next u ∧
      t = { s with
        cntr := { ctrm := false, wkupm := false, suspm := false, errm := false, sofm := false, esofm := false,
                  resetm := false, l1reqm := false, fres := s.cntr.fres, resume := s.cntr.resume },
        response := some .ok } ∧
      irq t = false ∧
      (irq u = true ↔
        (∃ i : Slot, (s.reg i).ctrTx = true ∨ (s.reg i).ctrRx = true) ∨ s.istr.wkup = true ∨ s.istr.susp = true ∨
          s.istr.err = true ∨ s.istr.sof = true ∨ s.istr.esof = true ∨ s.istr.reset = true ∨ s.istr.l1req = true)

/-! ### Requests and completions -/

/-- 45_requests_completion.md R161, R163: `send` and `receive` are the bookkeeping, with the caller region
`[buffer, buffer + length)`, and then one scheduling step, in every buffering mode and type; a slot at or above the count
is refused. -/
def Obligations.RequestIsBookkeepingThenOneStep : Prop :=
  ∀ (s : State) (n : Nat) (buf : HostAddr) (len : Len), s.dev.state = .ready →
    (s.dev.count.toNat ≤ n →
      exec (.send n buf len) s = .refused .slotOutOfRange ∧ exec (.receive n buf len) s = .refused .slotOutOfRange) ∧
    ∀ i : Slot, Names s n i →
    exec (.send n buf len) s = exec (.startTransfer ⟨.IN, n⟩) (s.updEp .IN i (fun e =>
      { e with
        transferBuffer := buf, remainingLength := len, remainingLengthSecondary := len, transferCount := 0,
        region := some ⟨buf, len⟩ })) ∧
    exec (.receive n buf len) s = exec (.startTransfer ⟨.OUT, n⟩) (s.updEp .OUT i (fun e =>
      { e with
        transferBuffer := buf, remainingLength := len, remainingLengthSecondary := len, transferCount := 0,
        region := some ⟨buf, len⟩ }))

/-- 45_requests_completion.md R161, R162, 43_scheduler.md R128: `send` on a single-buffered record completes with its first
packet armed, under conditions on the record and the operands alone, and whatever the status was. -/
def Obligations.SendArmsItsFirstPacket : Prop :=
  ∀ (s : State) (n : Nat) (i : Slot) (e : EndpointRecord) (buf : HostAddr) (length : Len) (len : Nat), Names s n i →
    e = s.ep .IN i → e.buffering = .single → len = min e.maxPacketSize.toNat length.toNat →
    len < Config.countLimit → e.address.toNat % 2 = 0 → e.address.toNat / 2 + (len + 1) / 2 ≤ Config.pmWords →
    (len = 0 ∨ buf.toNat + len ≤ Config.hostSize) →
    ∃ t, exec (.send n buf length) s = .next t ∧ t.response = some .ok ∧
      PacketHolds s t buf e.address len ∧ KeepsPmOutside s t e.address.toNat (2 * ((len + 1) / 2)) ∧
      t.table i = { s.table i with countTx := BitVec.ofNat 10 len } ∧
      t.reg i = { s.reg i with statTx := .valid } ∧
      t.ep .IN i =
        { e with
          transferBuffer := buf, remainingLength := length, remainingLengthSecondary := length, transferCount := 0,
          region := some ⟨buf, length⟩ } ∧
      OnlyTouches s t .IN i ∧ KeepsHost s t ∧ t.signals = s.signals

/-- 45_requests_completion.md R163, R164: `receive` completes on every record: the bookkeeping with the caller region and
with the pre-decrement of 43_scheduler.md R137, R140, and the direction armed but for the silent no-op of R141; register
and record are given whole. -/
def Obligations.ReceiveBooksAndArms : Prop :=
  ∀ (s : State) (n : Nat) (i : Slot) (e : EndpointRecord) (buf : HostAddr) (length : Len), Names s n i →
    e = s.ep .OUT i →
    ∃ t, exec (.receive n buf length) s = .next t ∧ t.response = some .ok ∧
      (e.buffering = .single →
        t.reg i = { s.reg i with kind := decide (length = 0 ∧ e.epType = some .control), statRx := .valid } ∧
        t.ep .OUT i =
          { e with
            transferBuffer := buf, remainingLength := if e.maxPacketSize < length then length - e.maxPacketSize else 0,
            remainingLengthSecondary := length, transferCount := 0, region := some ⟨buf, length⟩ }) ∧
      (e.buffering = .double → e.epType = some .isochronous →
        t.reg i = { s.reg i with statRx := .valid } ∧
        t.ep .OUT i =
          { e with
            transferBuffer := buf, remainingLength := 0, remainingLengthSecondary := length, transferCount := 0,
            region := some ⟨buf, length⟩ }) ∧
      (e.buffering = .double → e.epType ≠ some .isochronous →
        t.reg i = (if e.epType = some .bulk then { s.reg i with statRx := .valid } else s.reg i) ∧
        t.ep .OUT i =
          { e with
            transferBuffer := buf, remainingLength := length, remainingLengthSecondary := length, transferCount := 0,
            region := some ⟨buf, length⟩ }) ∧
      t.table i = s.table i ∧ OnlyTouches s t .OUT i ∧ KeepsPm s t ∧ KeepsHost s t ∧ t.signals = s.signals

/-- 45_requests_completion.md R166: `complete_in` on a single-buffered record with a pending completion: the signal when
nothing remains, else the next packet, refused if it is not admitted. That the caller region ends with the signal is the
model's choice (log 6). -/
def Obligations.CompleteInServesTheCompletion : Prop :=
  ∀ (s : State) (n : Nat) (i : Slot) (e : EndpointRecord) (sent len : Nat), Names s n i → e = s.ep .IN i →
    e.buffering = .single → (s.reg i).ctrTx = true → sent = (s.table i).countTx.toNat →
    len = min e.maxPacketSize.toNat (e.remainingLength.toNat - sent) →
    (e.remainingLength.toNat ≤ sent →
      ∃ t, exec (.completeIn n) s = .next t ∧ t.response = some .ok ∧ t.signals = s.signals ++ [.inDone i.val] ∧
        t.reg i = { s.reg i with ctrTx := false } ∧ t.table i = s.table i ∧
        t.ep .IN i =
          { e with
            remainingLength := 0, transferBuffer := e.transferBuffer + BitVec.ofNat 32 sent,
            transferCount := e.transferCount + BitVec.ofNat 32 sent, region := none } ∧
        OnlyTouches s t .IN i ∧ KeepsPm s t ∧ KeepsHost s t) ∧
    (sent < e.remainingLength.toNat → Config.countLimit ≤ len → exec (.completeIn n) s = .refused .countTooLarge) ∧
    (sent < e.remainingLength.toNat → len < Config.countLimit →
      ¬PacketAdmitted e (e.transferBuffer + BitVec.ofNat 32 sent) e.address len →
      exec (.completeIn n) s = .refused .packetMemoryRange ∨
        exec (.completeIn n) s = .refused .outsideCallerRegion) ∧
    (sent < e.remainingLength.toNat → len < Config.countLimit →
      PacketAdmitted e (e.transferBuffer + BitVec.ofNat 32 sent) e.address len →
      ∃ t, exec (.completeIn n) s = .next t ∧ t.response = some .ok ∧ t.signals = s.signals ∧
        t.reg i = { s.reg i with ctrTx := false, statTx := .valid } ∧
        t.table i = { s.table i with countTx := BitVec.ofNat 10 len } ∧
        t.ep .IN i =
          { e with
            remainingLength := BitVec.ofNat 32 (e.remainingLength.toNat - sent),
            transferBuffer := e.transferBuffer + BitVec.ofNat 32 sent,
            transferCount := e.transferCount + BitVec.ofNat 32 sent } ∧
        PacketHolds s t (e.transferBuffer + BitVec.ofNat 32 sent) e.address len ∧
        KeepsPmOutside s t e.address.toNat (2 * ((len + 1) / 2)) ∧ OnlyTouches s t .IN i ∧ KeepsHost s t)

/-- 45_requests_completion.md R168: `complete_out` on a single-buffered record with a pending completion: the read, refused
if it is not admitted, the advance, then the next step when bytes remain, else the signal. That the caller region ends
with the signal is the model's choice (log 6). -/
def Obligations.CompleteOutServesTheCompletion : Prop :=
  ∀ (s : State) (n : Nat) (i : Slot) (e : EndpointRecord) (got : Nat), Names s n i → e = s.ep .OUT i →
    e.buffering = .single → (s.reg i).ctrRx = true → got = (s.table i).countRx.toNat →
    (¬PacketAdmitted e e.transferBuffer e.address got →
      exec (.completeOut n) s = .refused .packetMemoryRange ∨
        exec (.completeOut n) s = .refused .outsideCallerRegion) ∧
    (PacketAdmitted e e.transferBuffer e.address got →
      ∃ t, exec (.completeOut n) s = .next t ∧ t.response = some .ok ∧
        (∀ k, k < got → hostByte t (e.transferBuffer.toNat + k) = pmByte s (e.address.toNat + k)) ∧
        KeepsHostOutside s t e.transferBuffer.toNat got ∧
        (e.remainingLength = 0 →
          t.signals = s.signals ++ [.outDone i.val (e.transferCount + BitVec.ofNat 32 got)] ∧
          t.reg i = { s.reg i with ctrRx := false } ∧
          t.ep .OUT i =
            { e with
              transferBuffer := e.transferBuffer + BitVec.ofNat 32 got,
              transferCount := e.transferCount + BitVec.ofNat 32 got, region := none }) ∧
        (e.remainingLength ≠ 0 →
          t.signals = s.signals ∧
          t.reg i = { s.reg i with ctrRx := false, kind := false, statRx := .valid } ∧
          t.ep .OUT i =
            { e with
              transferBuffer := e.transferBuffer + BitVec.ofNat 32 got,
              transferCount := e.transferCount + BitVec.ofNat 32 got,
              remainingLength :=
                if e.maxPacketSize < e.remainingLength then e.remainingLength - e.maxPacketSize else 0 }) ∧
        t.table i = s.table i ∧ OnlyTouches s t .OUT i ∧ KeepsPm s t)

/-- 45_requests_completion.md R166 to R169: a completion on a double-buffered record is refused while `DbCompletion` is
absent, the default this model takes (log 16), and one with no flag pending is refused. -/
def Obligations.UnservableCompletionIsRefused : Prop :=
  ∀ (s : State) (n : Nat) (i : Slot), Names s n i →
    ((s.ep .IN i).buffering = .double → exec (.completeIn n) s = .refused .dbCompletionOpen) ∧
    ((s.ep .IN i).buffering = .single → (s.reg i).ctrTx = false →
      exec (.completeIn n) s = .refused .noCompletionPending) ∧
    ((s.ep .OUT i).buffering = .double → exec (.completeOut n) s = .refused .dbCompletionOpen) ∧
    ((s.ep .OUT i).buffering = .single → (s.reg i).ctrRx = false →
      exec (.completeOut n) s = .refused .noCompletionPending)

/-! ### The environment -/

/-- 45_requests_completion.md R171, R172: `wire_in` on a `Valid` single-buffered IN direction: the packet the host sees and
the three fields that change; a late wire step of the direction is over (log 26). -/
def Obligations.WireInSendsTheArmedPacket : Prop :=
  ∀ (s : State) (i : Slot), s.pullup = true → (s.reg i).statTx = .valid →
    ((s.reg i).epType = .control ∨ (s.reg i).epType = .interrupt ∨
      ((s.reg i).epType = .bulk ∧ (s.reg i).kind = false)) →
    ((s.table i).countTx.toNat = 0 ∨
      (s.table i).addrTx.toNat / 2 + ((s.table i).countTx.toNat + 1) / 2 ≤ Config.pmWords) →
    ∃ t data, wireIn i.val s = .next t ∧ t.signals = s.signals ++ [.txPacket i.val data (s.reg i).dtogTx] ∧
      data.length = (s.table i).countTx.toNat ∧
      (∀ k, k < data.length → data[k]? = some (pmByte s (2 * ((s.table i).addrTx.toNat / 2) + k))) ∧
      t.reg i = { s.reg i with dtogTx := !(s.reg i).dtogTx, statTx := .nak, ctrTx := true } ∧
      t = { s with epr := t.epr, lateWire := t.lateWire, signals := t.signals } ∧ KeepsOtherRegs s t i ∧
      t.late i = { s.late i with tx := false } ∧ ∀ j, j ≠ i → t.late j = s.late j

/-- 45_requests_completion.md R171, R174: `wire_out` on a `Valid` single-buffered OUT direction: the host's bytes in packet
memory and the fields that change. Nothing is said of the high byte of the last word of an odd packet. A late wire step of
the direction is over (log 26). -/
def Obligations.WireOutStoresThePacket : Prop :=
  ∀ (s : State) (i : Slot) (bytes : List Byte), s.pullup = true → (s.reg i).statRx = .valid →
    ((s.reg i).epType = .control ∨ (s.reg i).epType = .interrupt ∨
      ((s.reg i).epType = .bulk ∧ (s.reg i).kind = false)) →
    (bytes = [] ∨ ¬((s.reg i).epType = .control ∧ (s.reg i).kind = true)) →
    bytes.length ≤ (s.ep .OUT i).maxPacketSize.toNat → bytes.length < Config.countLimit →
    (bytes = [] ∨ (s.table i).addrRx.toNat / 2 + (bytes.length + 1) / 2 ≤ Config.pmWords) →
    ∃ t, wireOut i.val bytes s = .next t ∧
      (∀ k, k < bytes.length → bytes[k]? = some (pmByte t (2 * ((s.table i).addrRx.toNat / 2) + k))) ∧
      KeepsPmOutside s t (2 * ((s.table i).addrRx.toNat / 2)) (2 * ((bytes.length + 1) / 2)) ∧
      t.table i = { s.table i with countRx := BitVec.ofNat 10 bytes.length } ∧
      t.reg i = { s.reg i with dtogRx := !(s.reg i).dtogRx, statRx := .nak, ctrRx := true } ∧
      t.late i = { s.late i with rx := false, statusOnly := false } ∧ OnlyTouchesWire s t .OUT i ∧ t.ep .OUT i = s.ep .OUT i ∧
      KeepsHost s t ∧ t.signals = s.signals

/-- 45_requests_completion.md R173, R175: a request of a direction that is not `Valid`, and a data packet on a control
endpoint with the OUT-status indicator set, are answered on the wire and change nothing. That the OUT side answers as
the IN side does is the model's reading (log 13). These are new requests: a wire step that was enabled before `stall` or
`deactivate` is another step (StallAndDeactivateWithdrawNoWireStep). -/
def Obligations.WireAnswersChangeNothing : Prop :=
  ∀ (s : State) (i : Slot) (bytes : List Byte), s.pullup = true →
    ((s.reg i).statTx ≠ .valid → ∃ h, wireIn i.val s = .next { s with signals := s.signals ++ [.handshake i.val .IN h] } ∧
      (h = .notReady ↔ (s.reg i).statTx = .nak) ∧ (h = .stalled ↔ (s.reg i).statTx = .stall)) ∧
    ((s.reg i).statRx ≠ .valid → ∃ h, wireOut i.val bytes s =
        .next { s with signals := s.signals ++ [.handshake i.val .OUT h] } ∧
      (h = .notReady ↔ (s.reg i).statRx = .nak) ∧ (h = .stalled ↔ (s.reg i).statRx = .stall)) ∧
    ((s.reg i).statRx = .valid → (s.reg i).epType = .control → (s.reg i).kind = true → bytes ≠ [] →
      wireOut i.val bytes s = .next { s with signals := s.signals ++ [.handshake i.val .OUT .stalled] })

/-- 60_exceptions.md R187, R192, R193, 70_reset_and_hazards.md R218: the bus events, the clearing of a stored flag, the
fault, the bus reset and the caller's write to its own memory (log 17), each with exactly its effect. That a bus reset
leaves no late wire step over is the model's choice (log 26). -/
def Obligations.EnvironmentEventsHaveTheirEffect : Prop :=
  ∀ s : State,
    busEvent .wakeup s = .next { s with istr := { s.istr with wkup := true } } ∧
    busEvent .suspend s = .next { s with istr := { s.istr with susp := true } } ∧
    busEvent .error s = .next { s with istr := { s.istr with err := true } } ∧
    busEvent .startOfFrame s = .next { s with istr := { s.istr with sof := true } } ∧
    busEvent .endOfFrame s = .next { s with istr := { s.istr with esof := true } } ∧
    busEvent .lowPowerRequest s = .next { s with istr := { s.istr with l1req := true } } ∧
    clearFlag .reset s = .next { s with istr := { s.istr with reset := false } } ∧
    clearFlag (.event .wakeup) s = .next { s with istr := { s.istr with wkup := false } } ∧
    clearFlag (.event .suspend) s = .next { s with istr := { s.istr with susp := false } } ∧
    clearFlag (.event .error) s = .next { s with istr := { s.istr with err := false } } ∧
    clearFlag (.event .startOfFrame) s = .next { s with istr := { s.istr with sof := false } } ∧
    clearFlag (.event .endOfFrame) s = .next { s with istr := { s.istr with esof := false } } ∧
    clearFlag (.event .lowPowerRequest) s = .next { s with istr := { s.istr with l1req := false } } ∧
    fatal s = .next { s with dev := { s.dev with state := .error } } ∧
    (∀ (a : HostAddr) (v : Byte), ∃ t, callerWrite a v s = .next t ∧ hostByte t a.toNat = v ∧
      KeepsHostOutside s t a.toNat 1 ∧ t = { s with host := t.host }) ∧
    (s.pullup = false → busReset s = .refused .busResetNotEnabled) ∧
    (s.pullup = true → ∃ t, busReset s = .next t ∧
      t = { s with epr := t.epr, lateWire := t.lateWire, istr := { s.istr with reset := true } } ∧
      (∀ i, t.late i = { tx := false, rx := false, statusOnly := false }) ∧
      ∀ i, t.reg i =
        { epType := .bulk, kind := false, statTx := .disabled, statRx := .disabled, dtogTx := false, dtogRx := false,
          ctrTx := (s.reg i).ctrTx, ctrRx := (s.reg i).ctrRx })

/-- 70_reset_and_hazards.md R217, 45_requests_completion.md R172, R174, R175: `stall` and `deactivate` withdraw neither a
completion flag nor a wire step that was enabled before them: the late step is taken with its whole effect, and once only.
They enable none: where the direction was `Valid` but its step was not enabled (no pull-up, double-buffer mode, a data
packet in a status stage), no later state that still holds what they left over takes one, whatever else has changed. How
long a late step stays possible is the model's choice (log 26). -/
def Obligations.StallAndDeactivateWithdrawNoWireStep : Prop :=
  (∀ (s : State) (c : Instr) (ea : EpAddr) (i : Slot) (bytes : List Byte), Names s ea.num i →
    (c = .stall ea ∨ c = .deactivate ea) → s.pullup = true →
    ((s.reg i).epType = .control ∨ (s.reg i).epType = .interrupt ∨
      ((s.reg i).epType = .bulk ∧ (s.reg i).kind = false)) →
    ∃ t, exec c s = .next t ∧ (t.reg i).status ea.dir ≠ .valid ∧
      (t.reg i).ctrTx = (s.reg i).ctrTx ∧ (t.reg i).ctrRx = (s.reg i).ctrRx ∧
      (ea.dir = .IN → (s.reg i).statTx = .valid →
        ((s.table i).countTx.toNat = 0 ∨
          (s.table i).addrTx.toNat / 2 + ((s.table i).countTx.toNat + 1) / 2 ≤ Config.pmWords) →
        ∃ u data, lateWireIn i.val t = .next u ∧ u.signals = t.signals ++ [.txPacket i.val data (t.reg i).dtogTx] ∧
          data.length = (s.table i).countTx.toNat ∧
          (∀ k, k < data.length → data[k]? = some (pmByte s (2 * ((s.table i).addrTx.toNat / 2) + k))) ∧
          u.reg i = { t.reg i with dtogTx := !(t.reg i).dtogTx, statTx := .nak, ctrTx := true } ∧
          u = { t with epr := u.epr, lateWire := u.lateWire, signals := u.signals } ∧ KeepsOtherRegs t u i ∧
          lateWireIn i.val u = .refused .wireStepNotEnabled) ∧
      (ea.dir = .OUT → (s.reg i).statRx = .valid →
        (bytes = [] ∨ ¬((s.reg i).epType = .control ∧ (s.reg i).kind = true)) →
        bytes.length ≤ (s.ep .OUT i).maxPacketSize.toNat → bytes.length < Config.countLimit →
        (bytes = [] ∨ (s.table i).addrRx.toNat / 2 + (bytes.length + 1) / 2 ≤ Config.pmWords) →
        ∃ u, lateWireOut i.val bytes t = .next u ∧
          (∀ k, k < bytes.length → bytes[k]? = some (pmByte u (2 * ((s.table i).addrRx.toNat / 2) + k))) ∧
          KeepsPmOutside t u (2 * ((s.table i).addrRx.toNat / 2)) (2 * ((bytes.length + 1) / 2)) ∧
          u.table i = { t.table i with countRx := BitVec.ofNat 10 bytes.length } ∧
          u.reg i = { t.reg i with dtogRx := !(t.reg i).dtogRx, statRx := .nak, ctrRx := true } ∧
          OnlyTouchesWire t u .OUT i ∧ u.ep .OUT i = t.ep .OUT i ∧ KeepsHost t u ∧ u.signals = t.signals ∧
          lateWireOut i.val bytes u = .refused .wireStepNotEnabled)) ∧
  (∀ (s : State) (c : Instr) (ea : EpAddr) (i : Slot), Names s ea.num i → (c = .stall ea ∨ c = .deactivate ea) →
    (s.reg i).status ea.dir = .valid →
    ∃ t, exec c s = .next t ∧ ∀ u : State, u.late i = t.late i →
      (¬(s.pullup = true ∧ ((s.reg i).epType = .control ∨ (s.reg i).epType = .interrupt ∨
          ((s.reg i).epType = .bulk ∧ (s.reg i).kind = false))) →
        (ea.dir = .IN → lateWireIn i.val u = .refused .wireStepNotEnabled) ∧
        (ea.dir = .OUT → ∀ bytes, lateWireOut i.val bytes u = .refused .wireStepNotEnabled)) ∧
      (s.pullup = true → (s.reg i).epType = .control → (s.reg i).kind = true → ea.dir = .OUT →
        ∀ bytes, bytes ≠ [] → lateWireOut i.val bytes u = .refused .wireStepNotEnabled))

/-! ### Headlines -/

/-- 45_requests_completion.md R161, R172, 20_memory.md R57, R64: from a record whose activation still agrees with the table
(70_reset_and_hazards.md R221), a SEND and then a collection by the host put exactly the caller's first bytes on the
wire, with the toggle of before. -/
def Obligations.SentPacketReachesTheHost : Prop :=
  ∀ (s : State) (n : Nat) (i : Slot) (e : EndpointRecord) (buf : HostAddr) (length : Len) (len : Nat), Names s n i →
    s.inputs = [.command (encode (.send n buf length)), .wireIn n] →
    e = s.ep .IN i → e.buffering = .single → len = min e.maxPacketSize.toNat length.toNat →
    len < Config.countLimit → e.address.toNat % 2 = 0 → e.address.toNat / 2 + (len + 1) / 2 ≤ Config.pmWords →
    (len = 0 ∨ buf.toNat + len ≤ Config.hostSize) →
    s.pullup = true → (s.table i).addrTx = e.address →
    ((s.reg i).epType = .control ∨ (s.reg i).epType = .interrupt ∨
      ((s.reg i).epType = .bulk ∧ (s.reg i).kind = false)) →
    ∃ t data, Host.Core.run Sys2Proof.core 2 s = .next t ∧ t.signals = [.txPacket n data (s.reg i).dtogTx] ∧
      data.length = len ∧ (∀ k, k < len → data[k]? = some (hostByte s (buf.toNat + k))) ∧
      (t.reg i).statTx = .nak ∧ (t.reg i).ctrTx = true ∧ (t.reg i).dtogTx = !(s.reg i).dtogTx

/-- 45_requests_completion.md R168, R174, 20_memory.md R57, R64: a packet the host delivers to an armed OUT direction, served
by COMPLETE_OUT, is in the caller's buffer byte for byte, and no other caller byte has changed. -/
def Obligations.ReceivedPacketReachesTheCaller : Prop :=
  ∀ (s : State) (n : Nat) (i : Slot) (e : EndpointRecord) (bytes : List Byte), Names s n i →
    s.inputs = [.wireOut n bytes, .command (encode (.completeOut n))] →
    e = s.ep .OUT i → e.buffering = .single → bytes.length ≤ e.maxPacketSize.toNat →
    PacketAdmitted e e.transferBuffer e.address bytes.length → bytes.length < Config.countLimit →
    s.pullup = true → (s.table i).addrRx = e.address → (s.reg i).statRx = .valid →
    ((s.reg i).epType = .control ∨ (s.reg i).epType = .interrupt ∨
      ((s.reg i).epType = .bulk ∧ (s.reg i).kind = false)) →
    (bytes = [] ∨ ¬((s.reg i).epType = .control ∧ (s.reg i).kind = true)) →
    ∃ t, Host.Core.run Sys2Proof.core 2 s = .next t ∧
      (∀ k, k < bytes.length → bytes[k]? = some (hostByte t (e.transferBuffer.toNat + k))) ∧
      KeepsHostOutside s t e.transferBuffer.toNat bytes.length ∧
      (t.ep .OUT i).transferCount = e.transferCount + BitVec.ofNat 32 bytes.length ∧ (t.reg i).ctrRx = false ∧
      (e.remainingLength = 0 →
        t.signals = [.outDone n (e.transferCount + BitVec.ofNat 32 bytes.length)])

/-- 20_memory.md R59, 70_reset_and_hazards.md R214: under `Partitioned`, a scheduling step on a configured record leaves
every byte of every other buffer in use, and of the table's range, as it was. Which records count as "in use" is the
model's reading (log 19). -/
def Obligations.PartitionedStepLeavesOtherBuffers : Prop :=
  ∀ (s t : State) (ea : EpAddr) (i : Slot), Partitioned s → ea.num = i.val →
    (s.ep ea.dir i).lifecycle = .configured → exec (.startTransfer ea) s = .next t →
    (∀ (b : Buffer) (x : Nat), b.inUse s → ¬(b.dir = ea.dir ∧ b.slot = i) → b.base s ≤ x →
      x < b.base s + b.size s → pmByte t x = pmByte s x) ∧
    (∀ x, s.btable.toNat ≤ x → x < s.btable.toNat + 8 * Config.N → pmByte t x = pmByte s x)
end

