-- ==== Sys2Proof/Laws/State.lean ====
section
/-! SUPPORT. One lemma per field and update of State, true by `rfl`, and what the accessors read after an update. -/

namespace Sys2Proof.Machine

/-! ### `updEp` -/

@[simp] theorem State.updEp_dev (s : State) (d : Direction) (i : Slot) (f : EndpointRecord → EndpointRecord) : (s.updEp d i f).dev = s.dev := rfl
@[simp] theorem State.updEp_epr (s : State) (d : Direction) (i : Slot) (f : EndpointRecord → EndpointRecord) : (s.updEp d i f).epr = s.epr := rfl
@[simp] theorem State.updEp_bdt (s : State) (d : Direction) (i : Slot) (f : EndpointRecord → EndpointRecord) : (s.updEp d i f).bdt = s.bdt := rfl
@[simp] theorem State.updEp_cntr (s : State) (d : Direction) (i : Slot) (f : EndpointRecord → EndpointRecord) : (s.updEp d i f).cntr = s.cntr := rfl
@[simp] theorem State.updEp_istr (s : State) (d : Direction) (i : Slot) (f : EndpointRecord → EndpointRecord) : (s.updEp d i f).istr = s.istr := rfl
@[simp] theorem State.updEp_btable (s : State) (d : Direction) (i : Slot) (f : EndpointRecord → EndpointRecord) : (s.updEp d i f).btable = s.btable := rfl
@[simp] theorem State.updEp_pullup (s : State) (d : Direction) (i : Slot) (f : EndpointRecord → EndpointRecord) : (s.updEp d i f).pullup = s.pullup := rfl
@[simp] theorem State.updEp_pm (s : State) (d : Direction) (i : Slot) (f : EndpointRecord → EndpointRecord) : (s.updEp d i f).pm = s.pm := rfl
@[simp] theorem State.updEp_host (s : State) (d : Direction) (i : Slot) (f : EndpointRecord → EndpointRecord) : (s.updEp d i f).host = s.host := rfl
@[simp] theorem State.updEp_inputs (s : State) (d : Direction) (i : Slot) (f : EndpointRecord → EndpointRecord) : (s.updEp d i f).inputs = s.inputs := rfl
@[simp] theorem State.updEp_response (s : State) (d : Direction) (i : Slot) (f : EndpointRecord → EndpointRecord) : (s.updEp d i f).response = s.response := rfl
@[simp] theorem State.updEp_signals (s : State) (d : Direction) (i : Slot) (f : EndpointRecord → EndpointRecord) : (s.updEp d i f).signals = s.signals := rfl
@[simp] theorem State.updEp_draws (s : State) (d : Direction) (i : Slot) (f : EndpointRecord → EndpointRecord) : (s.updEp d i f).draws = s.draws := rfl
@[simp] theorem State.updEp_lateWire (s : State) (d : Direction) (i : Slot) (f : EndpointRecord → EndpointRecord) : (s.updEp d i f).lateWire = s.lateWire := rfl
@[simp] theorem State.updEp_late (s : State) (d : Direction) (i : Slot) (f : EndpointRecord → EndpointRecord) (j : Slot) : (s.updEp d i f).late j = s.late j := rfl
@[simp] theorem State.updEp_reg (s : State) (d : Direction) (i : Slot) (f : EndpointRecord → EndpointRecord) (j : Slot) : (s.updEp d i f).reg j = s.reg j := rfl
@[simp] theorem State.updEp_table (s : State) (d : Direction) (i : Slot) (f : EndpointRecord → EndpointRecord) (j : Slot) : (s.updEp d i f).table j = s.table j := rfl
@[simp] theorem State.updEp_pmByte (s : State) (d : Direction) (i : Slot) (f : EndpointRecord → EndpointRecord) (y : Nat) : pmByte (s.updEp d i f) y = pmByte s y := rfl
@[simp] theorem State.updEp_hostByte (s : State) (d : Direction) (i : Slot) (f : EndpointRecord → EndpointRecord) (y : Nat) : hostByte (s.updEp d i f) y = hostByte s y := rfl

/-! ### `updReg` -/

@[simp] theorem State.updReg_dev (s : State) (i : Slot) (f : EndpointRegister → EndpointRegister) : (s.updReg i f).dev = s.dev := rfl
@[simp] theorem State.updReg_epIn (s : State) (i : Slot) (f : EndpointRegister → EndpointRegister) : (s.updReg i f).epIn = s.epIn := rfl
@[simp] theorem State.updReg_epOut (s : State) (i : Slot) (f : EndpointRegister → EndpointRegister) : (s.updReg i f).epOut = s.epOut := rfl
@[simp] theorem State.updReg_bdt (s : State) (i : Slot) (f : EndpointRegister → EndpointRegister) : (s.updReg i f).bdt = s.bdt := rfl
@[simp] theorem State.updReg_cntr (s : State) (i : Slot) (f : EndpointRegister → EndpointRegister) : (s.updReg i f).cntr = s.cntr := rfl
@[simp] theorem State.updReg_istr (s : State) (i : Slot) (f : EndpointRegister → EndpointRegister) : (s.updReg i f).istr = s.istr := rfl
@[simp] theorem State.updReg_btable (s : State) (i : Slot) (f : EndpointRegister → EndpointRegister) : (s.updReg i f).btable = s.btable := rfl
@[simp] theorem State.updReg_pullup (s : State) (i : Slot) (f : EndpointRegister → EndpointRegister) : (s.updReg i f).pullup = s.pullup := rfl
@[simp] theorem State.updReg_pm (s : State) (i : Slot) (f : EndpointRegister → EndpointRegister) : (s.updReg i f).pm = s.pm := rfl
@[simp] theorem State.updReg_host (s : State) (i : Slot) (f : EndpointRegister → EndpointRegister) : (s.updReg i f).host = s.host := rfl
@[simp] theorem State.updReg_inputs (s : State) (i : Slot) (f : EndpointRegister → EndpointRegister) : (s.updReg i f).inputs = s.inputs := rfl
@[simp] theorem State.updReg_response (s : State) (i : Slot) (f : EndpointRegister → EndpointRegister) : (s.updReg i f).response = s.response := rfl
@[simp] theorem State.updReg_signals (s : State) (i : Slot) (f : EndpointRegister → EndpointRegister) : (s.updReg i f).signals = s.signals := rfl
@[simp] theorem State.updReg_draws (s : State) (i : Slot) (f : EndpointRegister → EndpointRegister) : (s.updReg i f).draws = s.draws := rfl
@[simp] theorem State.updReg_lateWire (s : State) (i : Slot) (f : EndpointRegister → EndpointRegister) : (s.updReg i f).lateWire = s.lateWire := rfl
@[simp] theorem State.updReg_late (s : State) (i : Slot) (f : EndpointRegister → EndpointRegister) (j : Slot) : (s.updReg i f).late j = s.late j := rfl
@[simp] theorem State.updReg_ep (s : State) (i : Slot) (f : EndpointRegister → EndpointRegister) (d' : Direction) (j : Slot) :
    (s.updReg i f).ep d' j = s.ep d' j := rfl
@[simp] theorem State.updReg_table (s : State) (i : Slot) (f : EndpointRegister → EndpointRegister) (j : Slot) : (s.updReg i f).table j = s.table j := rfl
@[simp] theorem State.updReg_pmByte (s : State) (i : Slot) (f : EndpointRegister → EndpointRegister) (y : Nat) : pmByte (s.updReg i f) y = pmByte s y := rfl
@[simp] theorem State.updReg_hostByte (s : State) (i : Slot) (f : EndpointRegister → EndpointRegister) (y : Nat) : hostByte (s.updReg i f) y = hostByte s y := rfl

/-! ### `updLate` -/

@[simp] theorem State.updLate_dev (s : State) (i : Slot) (f : LateWire → LateWire) : (s.updLate i f).dev = s.dev := rfl
@[simp] theorem State.updLate_epIn (s : State) (i : Slot) (f : LateWire → LateWire) : (s.updLate i f).epIn = s.epIn := rfl
@[simp] theorem State.updLate_epOut (s : State) (i : Slot) (f : LateWire → LateWire) : (s.updLate i f).epOut = s.epOut := rfl
@[simp] theorem State.updLate_epr (s : State) (i : Slot) (f : LateWire → LateWire) : (s.updLate i f).epr = s.epr := rfl
@[simp] theorem State.updLate_bdt (s : State) (i : Slot) (f : LateWire → LateWire) : (s.updLate i f).bdt = s.bdt := rfl
@[simp] theorem State.updLate_cntr (s : State) (i : Slot) (f : LateWire → LateWire) : (s.updLate i f).cntr = s.cntr := rfl
@[simp] theorem State.updLate_istr (s : State) (i : Slot) (f : LateWire → LateWire) : (s.updLate i f).istr = s.istr := rfl
@[simp] theorem State.updLate_btable (s : State) (i : Slot) (f : LateWire → LateWire) : (s.updLate i f).btable = s.btable := rfl
@[simp] theorem State.updLate_pullup (s : State) (i : Slot) (f : LateWire → LateWire) : (s.updLate i f).pullup = s.pullup := rfl
@[simp] theorem State.updLate_pm (s : State) (i : Slot) (f : LateWire → LateWire) : (s.updLate i f).pm = s.pm := rfl
@[simp] theorem State.updLate_host (s : State) (i : Slot) (f : LateWire → LateWire) : (s.updLate i f).host = s.host := rfl
@[simp] theorem State.updLate_inputs (s : State) (i : Slot) (f : LateWire → LateWire) : (s.updLate i f).inputs = s.inputs := rfl
@[simp] theorem State.updLate_response (s : State) (i : Slot) (f : LateWire → LateWire) : (s.updLate i f).response = s.response := rfl
@[simp] theorem State.updLate_signals (s : State) (i : Slot) (f : LateWire → LateWire) : (s.updLate i f).signals = s.signals := rfl
@[simp] theorem State.updLate_draws (s : State) (i : Slot) (f : LateWire → LateWire) : (s.updLate i f).draws = s.draws := rfl
@[simp] theorem State.updLate_ep (s : State) (i : Slot) (f : LateWire → LateWire) (d' : Direction) (j : Slot) :
    (s.updLate i f).ep d' j = s.ep d' j := rfl
@[simp] theorem State.updLate_reg (s : State) (i : Slot) (f : LateWire → LateWire) (j : Slot) : (s.updLate i f).reg j = s.reg j := rfl
@[simp] theorem State.updLate_table (s : State) (i : Slot) (f : LateWire → LateWire) (j : Slot) : (s.updLate i f).table j = s.table j := rfl
@[simp] theorem State.updLate_pmByte (s : State) (i : Slot) (f : LateWire → LateWire) (y : Nat) : pmByte (s.updLate i f) y = pmByte s y := rfl
@[simp] theorem State.updLate_hostByte (s : State) (i : Slot) (f : LateWire → LateWire) (y : Nat) : hostByte (s.updLate i f) y = hostByte s y := rfl

/-! ### `endLate` -/

@[simp] theorem State.endLate_dev (s : State) : (s.endLate).dev = s.dev := rfl
@[simp] theorem State.endLate_epIn (s : State) : (s.endLate).epIn = s.epIn := rfl
@[simp] theorem State.endLate_epOut (s : State) : (s.endLate).epOut = s.epOut := rfl
@[simp] theorem State.endLate_epr (s : State) : (s.endLate).epr = s.epr := rfl
@[simp] theorem State.endLate_bdt (s : State) : (s.endLate).bdt = s.bdt := rfl
@[simp] theorem State.endLate_cntr (s : State) : (s.endLate).cntr = s.cntr := rfl
@[simp] theorem State.endLate_istr (s : State) : (s.endLate).istr = s.istr := rfl
@[simp] theorem State.endLate_btable (s : State) : (s.endLate).btable = s.btable := rfl
@[simp] theorem State.endLate_pullup (s : State) : (s.endLate).pullup = s.pullup := rfl
@[simp] theorem State.endLate_pm (s : State) : (s.endLate).pm = s.pm := rfl
@[simp] theorem State.endLate_host (s : State) : (s.endLate).host = s.host := rfl
@[simp] theorem State.endLate_inputs (s : State) : (s.endLate).inputs = s.inputs := rfl
@[simp] theorem State.endLate_response (s : State) : (s.endLate).response = s.response := rfl
@[simp] theorem State.endLate_signals (s : State) : (s.endLate).signals = s.signals := rfl
@[simp] theorem State.endLate_draws (s : State) : (s.endLate).draws = s.draws := rfl
@[simp] theorem State.endLate_ep (s : State) (d' : Direction) (j : Slot) :
    (s.endLate).ep d' j = s.ep d' j := rfl
@[simp] theorem State.endLate_reg (s : State) (j : Slot) : (s.endLate).reg j = s.reg j := rfl
@[simp] theorem State.endLate_table (s : State) (j : Slot) : (s.endLate).table j = s.table j := rfl
@[simp] theorem State.endLate_pmByte (s : State) (y : Nat) : pmByte (s.endLate) y = pmByte s y := rfl
@[simp] theorem State.endLate_hostByte (s : State) (y : Nat) : hostByte (s.endLate) y = hostByte s y := rfl

/-! ### `updTable` -/

@[simp] theorem State.updTable_dev (s : State) (i : Slot) (f : BdtEntry → BdtEntry) : (s.updTable i f).dev = s.dev := rfl
@[simp] theorem State.updTable_epIn (s : State) (i : Slot) (f : BdtEntry → BdtEntry) : (s.updTable i f).epIn = s.epIn := rfl
@[simp] theorem State.updTable_epOut (s : State) (i : Slot) (f : BdtEntry → BdtEntry) : (s.updTable i f).epOut = s.epOut := rfl
@[simp] theorem State.updTable_epr (s : State) (i : Slot) (f : BdtEntry → BdtEntry) : (s.updTable i f).epr = s.epr := rfl
@[simp] theorem State.updTable_cntr (s : State) (i : Slot) (f : BdtEntry → BdtEntry) : (s.updTable i f).cntr = s.cntr := rfl
@[simp] theorem State.updTable_istr (s : State) (i : Slot) (f : BdtEntry → BdtEntry) : (s.updTable i f).istr = s.istr := rfl
@[simp] theorem State.updTable_btable (s : State) (i : Slot) (f : BdtEntry → BdtEntry) : (s.updTable i f).btable = s.btable := rfl
@[simp] theorem State.updTable_pullup (s : State) (i : Slot) (f : BdtEntry → BdtEntry) : (s.updTable i f).pullup = s.pullup := rfl
@[simp] theorem State.updTable_pm (s : State) (i : Slot) (f : BdtEntry → BdtEntry) : (s.updTable i f).pm = s.pm := rfl
@[simp] theorem State.updTable_host (s : State) (i : Slot) (f : BdtEntry → BdtEntry) : (s.updTable i f).host = s.host := rfl
@[simp] theorem State.updTable_inputs (s : State) (i : Slot) (f : BdtEntry → BdtEntry) : (s.updTable i f).inputs = s.inputs := rfl
@[simp] theorem State.updTable_response (s : State) (i : Slot) (f : BdtEntry → BdtEntry) : (s.updTable i f).response = s.response := rfl
@[simp] theorem State.updTable_signals (s : State) (i : Slot) (f : BdtEntry → BdtEntry) : (s.updTable i f).signals = s.signals := rfl
@[simp] theorem State.updTable_draws (s : State) (i : Slot) (f : BdtEntry → BdtEntry) : (s.updTable i f).draws = s.draws := rfl
@[simp] theorem State.updTable_lateWire (s : State) (i : Slot) (f : BdtEntry → BdtEntry) : (s.updTable i f).lateWire = s.lateWire := rfl
@[simp] theorem State.updTable_late (s : State) (i : Slot) (f : BdtEntry → BdtEntry) (j : Slot) : (s.updTable i f).late j = s.late j := rfl
@[simp] theorem State.updTable_ep (s : State) (i : Slot) (f : BdtEntry → BdtEntry) (d' : Direction) (j : Slot) :
    (s.updTable i f).ep d' j = s.ep d' j := rfl
@[simp] theorem State.updTable_reg (s : State) (i : Slot) (f : BdtEntry → BdtEntry) (j : Slot) : (s.updTable i f).reg j = s.reg j := rfl
@[simp] theorem State.updTable_pmByte (s : State) (i : Slot) (f : BdtEntry → BdtEntry) (y : Nat) : pmByte (s.updTable i f) y = pmByte s y := rfl
@[simp] theorem State.updTable_hostByte (s : State) (i : Slot) (f : BdtEntry → BdtEntry) (y : Nat) : hostByte (s.updTable i f) y = hostByte s y := rfl

/-! ### `setCount` -/

@[simp] theorem State.setCount_dev (s : State) (i : Slot) (k : Bool) (n : Nat) : (s.setCount i k n).dev = s.dev := rfl
@[simp] theorem State.setCount_epIn (s : State) (i : Slot) (k : Bool) (n : Nat) : (s.setCount i k n).epIn = s.epIn := rfl
@[simp] theorem State.setCount_epOut (s : State) (i : Slot) (k : Bool) (n : Nat) : (s.setCount i k n).epOut = s.epOut := rfl
@[simp] theorem State.setCount_epr (s : State) (i : Slot) (k : Bool) (n : Nat) : (s.setCount i k n).epr = s.epr := rfl
@[simp] theorem State.setCount_cntr (s : State) (i : Slot) (k : Bool) (n : Nat) : (s.setCount i k n).cntr = s.cntr := rfl
@[simp] theorem State.setCount_istr (s : State) (i : Slot) (k : Bool) (n : Nat) : (s.setCount i k n).istr = s.istr := rfl
@[simp] theorem State.setCount_btable (s : State) (i : Slot) (k : Bool) (n : Nat) : (s.setCount i k n).btable = s.btable := rfl
@[simp] theorem State.setCount_pullup (s : State) (i : Slot) (k : Bool) (n : Nat) : (s.setCount i k n).pullup = s.pullup := rfl
@[simp] theorem State.setCount_pm (s : State) (i : Slot) (k : Bool) (n : Nat) : (s.setCount i k n).pm = s.pm := rfl
@[simp] theorem State.setCount_host (s : State) (i : Slot) (k : Bool) (n : Nat) : (s.setCount i k n).host = s.host := rfl
@[simp] theorem State.setCount_inputs (s : State) (i : Slot) (k : Bool) (n : Nat) : (s.setCount i k n).inputs = s.inputs := rfl
@[simp] theorem State.setCount_response (s : State) (i : Slot) (k : Bool) (n : Nat) : (s.setCount i k n).response = s.response := rfl
@[simp] theorem State.setCount_signals (s : State) (i : Slot) (k : Bool) (n : Nat) : (s.setCount i k n).signals = s.signals := rfl
@[simp] theorem State.setCount_draws (s : State) (i : Slot) (k : Bool) (n : Nat) : (s.setCount i k n).draws = s.draws := rfl
@[simp] theorem State.setCount_lateWire (s : State) (i : Slot) (k : Bool) (n : Nat) : (s.setCount i k n).lateWire = s.lateWire := rfl
@[simp] theorem State.setCount_late (s : State) (i : Slot) (k : Bool) (n : Nat) (j : Slot) : (s.setCount i k n).late j = s.late j := rfl
@[simp] theorem State.setCount_ep (s : State) (i : Slot) (k : Bool) (n : Nat) (d' : Direction) (j : Slot) :
    (s.setCount i k n).ep d' j = s.ep d' j := rfl
@[simp] theorem State.setCount_reg (s : State) (i : Slot) (k : Bool) (n : Nat) (j : Slot) : (s.setCount i k n).reg j = s.reg j := rfl
@[simp] theorem State.setCount_pmByte (s : State) (i : Slot) (k : Bool) (n : Nat) (y : Nat) : pmByte (s.setCount i k n) y = pmByte s y := rfl
@[simp] theorem State.setCount_hostByte (s : State) (i : Slot) (k : Bool) (n : Nat) (y : Nat) : hostByte (s.setCount i k n) y = hostByte s y := rfl

/-! ### `setStatTx` -/

@[simp] theorem State.setStatTx_dev (s : State) (i : Slot) (v : Status) : (s.setStatTx i v).dev = s.dev := rfl
@[simp] theorem State.setStatTx_epIn (s : State) (i : Slot) (v : Status) : (s.setStatTx i v).epIn = s.epIn := rfl
@[simp] theorem State.setStatTx_epOut (s : State) (i : Slot) (v : Status) : (s.setStatTx i v).epOut = s.epOut := rfl
@[simp] theorem State.setStatTx_bdt (s : State) (i : Slot) (v : Status) : (s.setStatTx i v).bdt = s.bdt := rfl
@[simp] theorem State.setStatTx_cntr (s : State) (i : Slot) (v : Status) : (s.setStatTx i v).cntr = s.cntr := rfl
@[simp] theorem State.setStatTx_istr (s : State) (i : Slot) (v : Status) : (s.setStatTx i v).istr = s.istr := rfl
@[simp] theorem State.setStatTx_btable (s : State) (i : Slot) (v : Status) : (s.setStatTx i v).btable = s.btable := rfl
@[simp] theorem State.setStatTx_pullup (s : State) (i : Slot) (v : Status) : (s.setStatTx i v).pullup = s.pullup := rfl
@[simp] theorem State.setStatTx_pm (s : State) (i : Slot) (v : Status) : (s.setStatTx i v).pm = s.pm := rfl
@[simp] theorem State.setStatTx_host (s : State) (i : Slot) (v : Status) : (s.setStatTx i v).host = s.host := rfl
@[simp] theorem State.setStatTx_inputs (s : State) (i : Slot) (v : Status) : (s.setStatTx i v).inputs = s.inputs := rfl
@[simp] theorem State.setStatTx_response (s : State) (i : Slot) (v : Status) : (s.setStatTx i v).response = s.response := rfl
@[simp] theorem State.setStatTx_signals (s : State) (i : Slot) (v : Status) : (s.setStatTx i v).signals = s.signals := rfl
@[simp] theorem State.setStatTx_draws (s : State) (i : Slot) (v : Status) : (s.setStatTx i v).draws = s.draws := rfl
@[simp] theorem State.setStatTx_lateWire (s : State) (i : Slot) (v : Status) : (s.setStatTx i v).lateWire = s.lateWire := rfl
@[simp] theorem State.setStatTx_late (s : State) (i : Slot) (v : Status) (j : Slot) : (s.setStatTx i v).late j = s.late j := rfl
@[simp] theorem State.setStatTx_ep (s : State) (i : Slot) (v : Status) (d' : Direction) (j : Slot) :
    (s.setStatTx i v).ep d' j = s.ep d' j := rfl
@[simp] theorem State.setStatTx_table (s : State) (i : Slot) (v : Status) (j : Slot) : (s.setStatTx i v).table j = s.table j := rfl
@[simp] theorem State.setStatTx_pmByte (s : State) (i : Slot) (v : Status) (y : Nat) : pmByte (s.setStatTx i v) y = pmByte s y := rfl
@[simp] theorem State.setStatTx_hostByte (s : State) (i : Slot) (v : Status) (y : Nat) : hostByte (s.setStatTx i v) y = hostByte s y := rfl

/-! ### `setStatRx` -/

@[simp] theorem State.setStatRx_dev (s : State) (i : Slot) (v : Status) : (s.setStatRx i v).dev = s.dev := rfl
@[simp] theorem State.setStatRx_epIn (s : State) (i : Slot) (v : Status) : (s.setStatRx i v).epIn = s.epIn := rfl
@[simp] theorem State.setStatRx_epOut (s : State) (i : Slot) (v : Status) : (s.setStatRx i v).epOut = s.epOut := rfl
@[simp] theorem State.setStatRx_bdt (s : State) (i : Slot) (v : Status) : (s.setStatRx i v).bdt = s.bdt := rfl
@[simp] theorem State.setStatRx_cntr (s : State) (i : Slot) (v : Status) : (s.setStatRx i v).cntr = s.cntr := rfl
@[simp] theorem State.setStatRx_istr (s : State) (i : Slot) (v : Status) : (s.setStatRx i v).istr = s.istr := rfl
@[simp] theorem State.setStatRx_btable (s : State) (i : Slot) (v : Status) : (s.setStatRx i v).btable = s.btable := rfl
@[simp] theorem State.setStatRx_pullup (s : State) (i : Slot) (v : Status) : (s.setStatRx i v).pullup = s.pullup := rfl
@[simp] theorem State.setStatRx_pm (s : State) (i : Slot) (v : Status) : (s.setStatRx i v).pm = s.pm := rfl
@[simp] theorem State.setStatRx_host (s : State) (i : Slot) (v : Status) : (s.setStatRx i v).host = s.host := rfl
@[simp] theorem State.setStatRx_inputs (s : State) (i : Slot) (v : Status) : (s.setStatRx i v).inputs = s.inputs := rfl
@[simp] theorem State.setStatRx_response (s : State) (i : Slot) (v : Status) : (s.setStatRx i v).response = s.response := rfl
@[simp] theorem State.setStatRx_signals (s : State) (i : Slot) (v : Status) : (s.setStatRx i v).signals = s.signals := rfl
@[simp] theorem State.setStatRx_draws (s : State) (i : Slot) (v : Status) : (s.setStatRx i v).draws = s.draws := rfl
@[simp] theorem State.setStatRx_lateWire (s : State) (i : Slot) (v : Status) : (s.setStatRx i v).lateWire = s.lateWire := rfl
@[simp] theorem State.setStatRx_late (s : State) (i : Slot) (v : Status) (j : Slot) : (s.setStatRx i v).late j = s.late j := rfl
@[simp] theorem State.setStatRx_ep (s : State) (i : Slot) (v : Status) (d' : Direction) (j : Slot) :
    (s.setStatRx i v).ep d' j = s.ep d' j := rfl
@[simp] theorem State.setStatRx_table (s : State) (i : Slot) (v : Status) (j : Slot) : (s.setStatRx i v).table j = s.table j := rfl
@[simp] theorem State.setStatRx_pmByte (s : State) (i : Slot) (v : Status) (y : Nat) : pmByte (s.setStatRx i v) y = pmByte s y := rfl
@[simp] theorem State.setStatRx_hostByte (s : State) (i : Slot) (v : Status) (y : Nat) : hostByte (s.setStatRx i v) y = hostByte s y := rfl

/-! ### `setKind` -/

@[simp] theorem State.setKind_dev (s : State) (i : Slot) (v : Bool) : (s.setKind i v).dev = s.dev := rfl
@[simp] theorem State.setKind_epIn (s : State) (i : Slot) (v : Bool) : (s.setKind i v).epIn = s.epIn := rfl
@[simp] theorem State.setKind_epOut (s : State) (i : Slot) (v : Bool) : (s.setKind i v).epOut = s.epOut := rfl
@[simp] theorem State.setKind_bdt (s : State) (i : Slot) (v : Bool) : (s.setKind i v).bdt = s.bdt := rfl
@[simp] theorem State.setKind_cntr (s : State) (i : Slot) (v : Bool) : (s.setKind i v).cntr = s.cntr := rfl
@[simp] theorem State.setKind_istr (s : State) (i : Slot) (v : Bool) : (s.setKind i v).istr = s.istr := rfl
@[simp] theorem State.setKind_btable (s : State) (i : Slot) (v : Bool) : (s.setKind i v).btable = s.btable := rfl
@[simp] theorem State.setKind_pullup (s : State) (i : Slot) (v : Bool) : (s.setKind i v).pullup = s.pullup := rfl
@[simp] theorem State.setKind_pm (s : State) (i : Slot) (v : Bool) : (s.setKind i v).pm = s.pm := rfl
@[simp] theorem State.setKind_host (s : State) (i : Slot) (v : Bool) : (s.setKind i v).host = s.host := rfl
@[simp] theorem State.setKind_inputs (s : State) (i : Slot) (v : Bool) : (s.setKind i v).inputs = s.inputs := rfl
@[simp] theorem State.setKind_response (s : State) (i : Slot) (v : Bool) : (s.setKind i v).response = s.response := rfl
@[simp] theorem State.setKind_signals (s : State) (i : Slot) (v : Bool) : (s.setKind i v).signals = s.signals := rfl
@[simp] theorem State.setKind_draws (s : State) (i : Slot) (v : Bool) : (s.setKind i v).draws = s.draws := rfl
@[simp] theorem State.setKind_lateWire (s : State) (i : Slot) (v : Bool) : (s.setKind i v).lateWire = s.lateWire := rfl
@[simp] theorem State.setKind_late (s : State) (i : Slot) (v : Bool) (j : Slot) : (s.setKind i v).late j = s.late j := rfl
@[simp] theorem State.setKind_ep (s : State) (i : Slot) (v : Bool) (d' : Direction) (j : Slot) :
    (s.setKind i v).ep d' j = s.ep d' j := rfl
@[simp] theorem State.setKind_table (s : State) (i : Slot) (v : Bool) (j : Slot) : (s.setKind i v).table j = s.table j := rfl
@[simp] theorem State.setKind_pmByte (s : State) (i : Slot) (v : Bool) (y : Nat) : pmByte (s.setKind i v) y = pmByte s y := rfl
@[simp] theorem State.setKind_hostByte (s : State) (i : Slot) (v : Bool) (y : Nat) : hostByte (s.setKind i v) y = hostByte s y := rfl

/-! ### `mapRegs` -/

@[simp] theorem State.mapRegs_dev (s : State) (f : EndpointRegister → EndpointRegister) : (s.mapRegs f).dev = s.dev := rfl
@[simp] theorem State.mapRegs_epIn (s : State) (f : EndpointRegister → EndpointRegister) : (s.mapRegs f).epIn = s.epIn := rfl
@[simp] theorem State.mapRegs_epOut (s : State) (f : EndpointRegister → EndpointRegister) : (s.mapRegs f).epOut = s.epOut := rfl
@[simp] theorem State.mapRegs_bdt (s : State) (f : EndpointRegister → EndpointRegister) : (s.mapRegs f).bdt = s.bdt := rfl
@[simp] theorem State.mapRegs_cntr (s : State) (f : EndpointRegister → EndpointRegister) : (s.mapRegs f).cntr = s.cntr := rfl
@[simp] theorem State.mapRegs_istr (s : State) (f : EndpointRegister → EndpointRegister) : (s.mapRegs f).istr = s.istr := rfl
@[simp] theorem State.mapRegs_btable (s : State) (f : EndpointRegister → EndpointRegister) : (s.mapRegs f).btable = s.btable := rfl
@[simp] theorem State.mapRegs_pullup (s : State) (f : EndpointRegister → EndpointRegister) : (s.mapRegs f).pullup = s.pullup := rfl
@[simp] theorem State.mapRegs_pm (s : State) (f : EndpointRegister → EndpointRegister) : (s.mapRegs f).pm = s.pm := rfl
@[simp] theorem State.mapRegs_host (s : State) (f : EndpointRegister → EndpointRegister) : (s.mapRegs f).host = s.host := rfl
@[simp] theorem State.mapRegs_inputs (s : State) (f : EndpointRegister → EndpointRegister) : (s.mapRegs f).inputs = s.inputs := rfl
@[simp] theorem State.mapRegs_response (s : State) (f : EndpointRegister → EndpointRegister) : (s.mapRegs f).response = s.response := rfl
@[simp] theorem State.mapRegs_signals (s : State) (f : EndpointRegister → EndpointRegister) : (s.mapRegs f).signals = s.signals := rfl
@[simp] theorem State.mapRegs_draws (s : State) (f : EndpointRegister → EndpointRegister) : (s.mapRegs f).draws = s.draws := rfl
@[simp] theorem State.mapRegs_lateWire (s : State) (f : EndpointRegister → EndpointRegister) : (s.mapRegs f).lateWire = s.lateWire := rfl
@[simp] theorem State.mapRegs_late (s : State) (f : EndpointRegister → EndpointRegister) (j : Slot) : (s.mapRegs f).late j = s.late j := rfl
@[simp] theorem State.mapRegs_ep (s : State) (f : EndpointRegister → EndpointRegister) (d' : Direction) (j : Slot) :
    (s.mapRegs f).ep d' j = s.ep d' j := rfl
@[simp] theorem State.mapRegs_table (s : State) (f : EndpointRegister → EndpointRegister) (j : Slot) : (s.mapRegs f).table j = s.table j := rfl
@[simp] theorem State.mapRegs_pmByte (s : State) (f : EndpointRegister → EndpointRegister) (y : Nat) : pmByte (s.mapRegs f) y = pmByte s y := rfl
@[simp] theorem State.mapRegs_hostByte (s : State) (f : EndpointRegister → EndpointRegister) (y : Nat) : hostByte (s.mapRegs f) y = hostByte s y := rfl

/-! ### `mapEps` -/

@[simp] theorem State.mapEps_dev (s : State) (f : EndpointRecord → EndpointRecord) : (s.mapEps f).dev = s.dev := rfl
@[simp] theorem State.mapEps_epr (s : State) (f : EndpointRecord → EndpointRecord) : (s.mapEps f).epr = s.epr := rfl
@[simp] theorem State.mapEps_bdt (s : State) (f : EndpointRecord → EndpointRecord) : (s.mapEps f).bdt = s.bdt := rfl
@[simp] theorem State.mapEps_cntr (s : State) (f : EndpointRecord → EndpointRecord) : (s.mapEps f).cntr = s.cntr := rfl
@[simp] theorem State.mapEps_istr (s : State) (f : EndpointRecord → EndpointRecord) : (s.mapEps f).istr = s.istr := rfl
@[simp] theorem State.mapEps_btable (s : State) (f : EndpointRecord → EndpointRecord) : (s.mapEps f).btable = s.btable := rfl
@[simp] theorem State.mapEps_pullup (s : State) (f : EndpointRecord → EndpointRecord) : (s.mapEps f).pullup = s.pullup := rfl
@[simp] theorem State.mapEps_pm (s : State) (f : EndpointRecord → EndpointRecord) : (s.mapEps f).pm = s.pm := rfl
@[simp] theorem State.mapEps_host (s : State) (f : EndpointRecord → EndpointRecord) : (s.mapEps f).host = s.host := rfl
@[simp] theorem State.mapEps_inputs (s : State) (f : EndpointRecord → EndpointRecord) : (s.mapEps f).inputs = s.inputs := rfl
@[simp] theorem State.mapEps_response (s : State) (f : EndpointRecord → EndpointRecord) : (s.mapEps f).response = s.response := rfl
@[simp] theorem State.mapEps_signals (s : State) (f : EndpointRecord → EndpointRecord) : (s.mapEps f).signals = s.signals := rfl
@[simp] theorem State.mapEps_draws (s : State) (f : EndpointRecord → EndpointRecord) : (s.mapEps f).draws = s.draws := rfl
@[simp] theorem State.mapEps_lateWire (s : State) (f : EndpointRecord → EndpointRecord) : (s.mapEps f).lateWire = s.lateWire := rfl
@[simp] theorem State.mapEps_late (s : State) (f : EndpointRecord → EndpointRecord) (j : Slot) : (s.mapEps f).late j = s.late j := rfl
@[simp] theorem State.mapEps_reg (s : State) (f : EndpointRecord → EndpointRecord) (j : Slot) : (s.mapEps f).reg j = s.reg j := rfl
@[simp] theorem State.mapEps_table (s : State) (f : EndpointRecord → EndpointRecord) (j : Slot) : (s.mapEps f).table j = s.table j := rfl
@[simp] theorem State.mapEps_pmByte (s : State) (f : EndpointRecord → EndpointRecord) (y : Nat) : pmByte (s.mapEps f) y = pmByte s y := rfl
@[simp] theorem State.mapEps_hostByte (s : State) (f : EndpointRecord → EndpointRecord) (y : Nat) : hostByte (s.mapEps f) y = hostByte s y := rfl

/-! ### `respond` -/

@[simp] theorem State.respond_dev (s : State) (r : Response) : (s.respond r).dev = s.dev := rfl
@[simp] theorem State.respond_epIn (s : State) (r : Response) : (s.respond r).epIn = s.epIn := rfl
@[simp] theorem State.respond_epOut (s : State) (r : Response) : (s.respond r).epOut = s.epOut := rfl
@[simp] theorem State.respond_epr (s : State) (r : Response) : (s.respond r).epr = s.epr := rfl
@[simp] theorem State.respond_bdt (s : State) (r : Response) : (s.respond r).bdt = s.bdt := rfl
@[simp] theorem State.respond_cntr (s : State) (r : Response) : (s.respond r).cntr = s.cntr := rfl
@[simp] theorem State.respond_istr (s : State) (r : Response) : (s.respond r).istr = s.istr := rfl
@[simp] theorem State.respond_btable (s : State) (r : Response) : (s.respond r).btable = s.btable := rfl
@[simp] theorem State.respond_pullup (s : State) (r : Response) : (s.respond r).pullup = s.pullup := rfl
@[simp] theorem State.respond_pm (s : State) (r : Response) : (s.respond r).pm = s.pm := rfl
@[simp] theorem State.respond_host (s : State) (r : Response) : (s.respond r).host = s.host := rfl
@[simp] theorem State.respond_inputs (s : State) (r : Response) : (s.respond r).inputs = s.inputs := rfl
@[simp] theorem State.respond_response (s : State) (r : Response) : (s.respond r).response = some r := rfl
@[simp] theorem State.respond_signals (s : State) (r : Response) : (s.respond r).signals = s.signals := rfl
@[simp] theorem State.respond_draws (s : State) (r : Response) : (s.respond r).draws = s.draws := rfl
@[simp] theorem State.respond_lateWire (s : State) (r : Response) : (s.respond r).lateWire = s.lateWire := rfl
@[simp] theorem State.respond_late (s : State) (r : Response) (j : Slot) : (s.respond r).late j = s.late j := rfl
@[simp] theorem State.respond_ep (s : State) (r : Response) (d' : Direction) (j : Slot) :
    (s.respond r).ep d' j = s.ep d' j := rfl
@[simp] theorem State.respond_reg (s : State) (r : Response) (j : Slot) : (s.respond r).reg j = s.reg j := rfl
@[simp] theorem State.respond_table (s : State) (r : Response) (j : Slot) : (s.respond r).table j = s.table j := rfl
@[simp] theorem State.respond_pmByte (s : State) (r : Response) (y : Nat) : pmByte (s.respond r) y = pmByte s y := rfl
@[simp] theorem State.respond_hostByte (s : State) (r : Response) (y : Nat) : hostByte (s.respond r) y = hostByte s y := rfl

/-! ### `emit` -/

@[simp] theorem State.emit_dev (s : State) (x : Signal) : (s.emit x).dev = s.dev := rfl
@[simp] theorem State.emit_epIn (s : State) (x : Signal) : (s.emit x).epIn = s.epIn := rfl
@[simp] theorem State.emit_epOut (s : State) (x : Signal) : (s.emit x).epOut = s.epOut := rfl
@[simp] theorem State.emit_epr (s : State) (x : Signal) : (s.emit x).epr = s.epr := rfl
@[simp] theorem State.emit_bdt (s : State) (x : Signal) : (s.emit x).bdt = s.bdt := rfl
@[simp] theorem State.emit_cntr (s : State) (x : Signal) : (s.emit x).cntr = s.cntr := rfl
@[simp] theorem State.emit_istr (s : State) (x : Signal) : (s.emit x).istr = s.istr := rfl
@[simp] theorem State.emit_btable (s : State) (x : Signal) : (s.emit x).btable = s.btable := rfl
@[simp] theorem State.emit_pullup (s : State) (x : Signal) : (s.emit x).pullup = s.pullup := rfl
@[simp] theorem State.emit_pm (s : State) (x : Signal) : (s.emit x).pm = s.pm := rfl
@[simp] theorem State.emit_host (s : State) (x : Signal) : (s.emit x).host = s.host := rfl
@[simp] theorem State.emit_inputs (s : State) (x : Signal) : (s.emit x).inputs = s.inputs := rfl
@[simp] theorem State.emit_response (s : State) (x : Signal) : (s.emit x).response = s.response := rfl
@[simp] theorem State.emit_signals (s : State) (x : Signal) : (s.emit x).signals = s.signals ++ [x] := rfl
@[simp] theorem State.emit_draws (s : State) (x : Signal) : (s.emit x).draws = s.draws := rfl
@[simp] theorem State.emit_lateWire (s : State) (x : Signal) : (s.emit x).lateWire = s.lateWire := rfl
@[simp] theorem State.emit_late (s : State) (x : Signal) (j : Slot) : (s.emit x).late j = s.late j := rfl
@[simp] theorem State.emit_ep (s : State) (x : Signal) (d' : Direction) (j : Slot) :
    (s.emit x).ep d' j = s.ep d' j := rfl
@[simp] theorem State.emit_reg (s : State) (x : Signal) (j : Slot) : (s.emit x).reg j = s.reg j := rfl
@[simp] theorem State.emit_table (s : State) (x : Signal) (j : Slot) : (s.emit x).table j = s.table j := rfl
@[simp] theorem State.emit_pmByte (s : State) (x : Signal) (y : Nat) : pmByte (s.emit x) y = pmByte s y := rfl
@[simp] theorem State.emit_hostByte (s : State) (x : Signal) (y : Nat) : hostByte (s.emit x) y = hostByte s y := rfl

/-! ### `take` -/

@[simp] theorem State.take_dev (s : State) (rest : List Input) : (s.take rest).dev = s.dev := rfl
@[simp] theorem State.take_epIn (s : State) (rest : List Input) : (s.take rest).epIn = s.epIn := rfl
@[simp] theorem State.take_epOut (s : State) (rest : List Input) : (s.take rest).epOut = s.epOut := rfl
@[simp] theorem State.take_epr (s : State) (rest : List Input) : (s.take rest).epr = s.epr := rfl
@[simp] theorem State.take_bdt (s : State) (rest : List Input) : (s.take rest).bdt = s.bdt := rfl
@[simp] theorem State.take_cntr (s : State) (rest : List Input) : (s.take rest).cntr = s.cntr := rfl
@[simp] theorem State.take_istr (s : State) (rest : List Input) : (s.take rest).istr = s.istr := rfl
@[simp] theorem State.take_btable (s : State) (rest : List Input) : (s.take rest).btable = s.btable := rfl
@[simp] theorem State.take_pullup (s : State) (rest : List Input) : (s.take rest).pullup = s.pullup := rfl
@[simp] theorem State.take_pm (s : State) (rest : List Input) : (s.take rest).pm = s.pm := rfl
@[simp] theorem State.take_host (s : State) (rest : List Input) : (s.take rest).host = s.host := rfl
@[simp] theorem State.take_inputs (s : State) (rest : List Input) : (s.take rest).inputs = rest := rfl
@[simp] theorem State.take_response (s : State) (rest : List Input) : (s.take rest).response = none := rfl
@[simp] theorem State.take_signals (s : State) (rest : List Input) : (s.take rest).signals = [] := rfl
@[simp] theorem State.take_draws (s : State) (rest : List Input) : (s.take rest).draws = s.draws := rfl
@[simp] theorem State.take_lateWire (s : State) (rest : List Input) : (s.take rest).lateWire = s.lateWire := rfl
@[simp] theorem State.take_late (s : State) (rest : List Input) (j : Slot) : (s.take rest).late j = s.late j := rfl
@[simp] theorem State.take_ep (s : State) (rest : List Input) (d' : Direction) (j : Slot) :
    (s.take rest).ep d' j = s.ep d' j := rfl
@[simp] theorem State.take_reg (s : State) (rest : List Input) (j : Slot) : (s.take rest).reg j = s.reg j := rfl
@[simp] theorem State.take_table (s : State) (rest : List Input) (j : Slot) : (s.take rest).table j = s.table j := rfl
@[simp] theorem State.take_pmByte (s : State) (rest : List Input) (y : Nat) : pmByte (s.take rest) y = pmByte s y := rfl
@[simp] theorem State.take_hostByte (s : State) (rest : List Input) (y : Nat) : hostByte (s.take rest) y = hostByte s y := rfl

/-! ### `storePm` -/

@[simp] theorem State.storePm_dev (s : State) (x : Nat) (vs : List Byte) : (s.storePm x vs).dev = s.dev := rfl
@[simp] theorem State.storePm_epIn (s : State) (x : Nat) (vs : List Byte) : (s.storePm x vs).epIn = s.epIn := rfl
@[simp] theorem State.storePm_epOut (s : State) (x : Nat) (vs : List Byte) : (s.storePm x vs).epOut = s.epOut := rfl
@[simp] theorem State.storePm_epr (s : State) (x : Nat) (vs : List Byte) : (s.storePm x vs).epr = s.epr := rfl
@[simp] theorem State.storePm_bdt (s : State) (x : Nat) (vs : List Byte) : (s.storePm x vs).bdt = s.bdt := rfl
@[simp] theorem State.storePm_cntr (s : State) (x : Nat) (vs : List Byte) : (s.storePm x vs).cntr = s.cntr := rfl
@[simp] theorem State.storePm_istr (s : State) (x : Nat) (vs : List Byte) : (s.storePm x vs).istr = s.istr := rfl
@[simp] theorem State.storePm_btable (s : State) (x : Nat) (vs : List Byte) : (s.storePm x vs).btable = s.btable := rfl
@[simp] theorem State.storePm_pullup (s : State) (x : Nat) (vs : List Byte) : (s.storePm x vs).pullup = s.pullup := rfl
@[simp] theorem State.storePm_pm (s : State) (x : Nat) (vs : List Byte) : (s.storePm x vs).pm = storeBytes s.pm x vs := rfl
@[simp] theorem State.storePm_host (s : State) (x : Nat) (vs : List Byte) : (s.storePm x vs).host = s.host := rfl
@[simp] theorem State.storePm_inputs (s : State) (x : Nat) (vs : List Byte) : (s.storePm x vs).inputs = s.inputs := rfl
@[simp] theorem State.storePm_response (s : State) (x : Nat) (vs : List Byte) : (s.storePm x vs).response = s.response := rfl
@[simp] theorem State.storePm_signals (s : State) (x : Nat) (vs : List Byte) : (s.storePm x vs).signals = s.signals := rfl
@[simp] theorem State.storePm_draws (s : State) (x : Nat) (vs : List Byte) : (s.storePm x vs).draws = s.draws := rfl
@[simp] theorem State.storePm_lateWire (s : State) (x : Nat) (vs : List Byte) : (s.storePm x vs).lateWire = s.lateWire := rfl
@[simp] theorem State.storePm_late (s : State) (x : Nat) (vs : List Byte) (j : Slot) : (s.storePm x vs).late j = s.late j := rfl
@[simp] theorem State.storePm_ep (s : State) (x : Nat) (vs : List Byte) (d' : Direction) (j : Slot) :
    (s.storePm x vs).ep d' j = s.ep d' j := rfl
@[simp] theorem State.storePm_reg (s : State) (x : Nat) (vs : List Byte) (j : Slot) : (s.storePm x vs).reg j = s.reg j := rfl
@[simp] theorem State.storePm_table (s : State) (x : Nat) (vs : List Byte) (j : Slot) : (s.storePm x vs).table j = s.table j := rfl
@[simp] theorem State.storePm_hostByte (s : State) (x : Nat) (vs : List Byte) (y : Nat) : hostByte (s.storePm x vs) y = hostByte s y := rfl

/-! ### `storeHost` -/

@[simp] theorem State.storeHost_dev (s : State) (x : Nat) (vs : List Byte) : (s.storeHost x vs).dev = s.dev := rfl
@[simp] theorem State.storeHost_epIn (s : State) (x : Nat) (vs : List Byte) : (s.storeHost x vs).epIn = s.epIn := rfl
@[simp] theorem State.storeHost_epOut (s : State) (x : Nat) (vs : List Byte) : (s.storeHost x vs).epOut = s.epOut := rfl
@[simp] theorem State.storeHost_epr (s : State) (x : Nat) (vs : List Byte) : (s.storeHost x vs).epr = s.epr := rfl
@[simp] theorem State.storeHost_bdt (s : State) (x : Nat) (vs : List Byte) : (s.storeHost x vs).bdt = s.bdt := rfl
@[simp] theorem State.storeHost_cntr (s : State) (x : Nat) (vs : List Byte) : (s.storeHost x vs).cntr = s.cntr := rfl
@[simp] theorem State.storeHost_istr (s : State) (x : Nat) (vs : List Byte) : (s.storeHost x vs).istr = s.istr := rfl
@[simp] theorem State.storeHost_btable (s : State) (x : Nat) (vs : List Byte) : (s.storeHost x vs).btable = s.btable := rfl
@[simp] theorem State.storeHost_pullup (s : State) (x : Nat) (vs : List Byte) : (s.storeHost x vs).pullup = s.pullup := rfl
@[simp] theorem State.storeHost_pm (s : State) (x : Nat) (vs : List Byte) : (s.storeHost x vs).pm = s.pm := rfl
@[simp] theorem State.storeHost_host (s : State) (x : Nat) (vs : List Byte) : (s.storeHost x vs).host = storeBytes s.host x vs := rfl
@[simp] theorem State.storeHost_inputs (s : State) (x : Nat) (vs : List Byte) : (s.storeHost x vs).inputs = s.inputs := rfl
@[simp] theorem State.storeHost_response (s : State) (x : Nat) (vs : List Byte) : (s.storeHost x vs).response = s.response := rfl
@[simp] theorem State.storeHost_signals (s : State) (x : Nat) (vs : List Byte) : (s.storeHost x vs).signals = s.signals := rfl
@[simp] theorem State.storeHost_draws (s : State) (x : Nat) (vs : List Byte) : (s.storeHost x vs).draws = s.draws := rfl
@[simp] theorem State.storeHost_lateWire (s : State) (x : Nat) (vs : List Byte) : (s.storeHost x vs).lateWire = s.lateWire := rfl
@[simp] theorem State.storeHost_late (s : State) (x : Nat) (vs : List Byte) (j : Slot) : (s.storeHost x vs).late j = s.late j := rfl
@[simp] theorem State.storeHost_ep (s : State) (x : Nat) (vs : List Byte) (d' : Direction) (j : Slot) :
    (s.storeHost x vs).ep d' j = s.ep d' j := rfl
@[simp] theorem State.storeHost_reg (s : State) (x : Nat) (vs : List Byte) (j : Slot) : (s.storeHost x vs).reg j = s.reg j := rfl
@[simp] theorem State.storeHost_table (s : State) (x : Nat) (vs : List Byte) (j : Slot) : (s.storeHost x vs).table j = s.table j := rfl
@[simp] theorem State.storeHost_pmByte (s : State) (x : Nat) (vs : List Byte) (y : Nat) : pmByte (s.storeHost x vs) y = pmByte s y := rfl

/-! ### `addDraws` -/

@[simp] theorem State.addDraws_dev (s : State) (k : Nat) : (s.addDraws k).dev = s.dev := rfl
@[simp] theorem State.addDraws_epIn (s : State) (k : Nat) : (s.addDraws k).epIn = s.epIn := rfl
@[simp] theorem State.addDraws_epOut (s : State) (k : Nat) : (s.addDraws k).epOut = s.epOut := rfl
@[simp] theorem State.addDraws_epr (s : State) (k : Nat) : (s.addDraws k).epr = s.epr := rfl
@[simp] theorem State.addDraws_bdt (s : State) (k : Nat) : (s.addDraws k).bdt = s.bdt := rfl
@[simp] theorem State.addDraws_cntr (s : State) (k : Nat) : (s.addDraws k).cntr = s.cntr := rfl
@[simp] theorem State.addDraws_istr (s : State) (k : Nat) : (s.addDraws k).istr = s.istr := rfl
@[simp] theorem State.addDraws_btable (s : State) (k : Nat) : (s.addDraws k).btable = s.btable := rfl
@[simp] theorem State.addDraws_pullup (s : State) (k : Nat) : (s.addDraws k).pullup = s.pullup := rfl
@[simp] theorem State.addDraws_pm (s : State) (k : Nat) : (s.addDraws k).pm = s.pm := rfl
@[simp] theorem State.addDraws_host (s : State) (k : Nat) : (s.addDraws k).host = s.host := rfl
@[simp] theorem State.addDraws_inputs (s : State) (k : Nat) : (s.addDraws k).inputs = s.inputs := rfl
@[simp] theorem State.addDraws_response (s : State) (k : Nat) : (s.addDraws k).response = s.response := rfl
@[simp] theorem State.addDraws_signals (s : State) (k : Nat) : (s.addDraws k).signals = s.signals := rfl
@[simp] theorem State.addDraws_draws (s : State) (k : Nat) : (s.addDraws k).draws = s.draws + k := rfl
@[simp] theorem State.addDraws_lateWire (s : State) (k : Nat) : (s.addDraws k).lateWire = s.lateWire := rfl
@[simp] theorem State.addDraws_late (s : State) (k : Nat) (j : Slot) : (s.addDraws k).late j = s.late j := rfl
@[simp] theorem State.addDraws_ep (s : State) (k : Nat) (d' : Direction) (j : Slot) :
    (s.addDraws k).ep d' j = s.ep d' j := rfl
@[simp] theorem State.addDraws_reg (s : State) (k : Nat) (j : Slot) : (s.addDraws k).reg j = s.reg j := rfl
@[simp] theorem State.addDraws_table (s : State) (k : Nat) (j : Slot) : (s.addDraws k).table j = s.table j := rfl
@[simp] theorem State.addDraws_pmByte (s : State) (k : Nat) (y : Nat) : pmByte (s.addDraws k) y = pmByte s y := rfl
@[simp] theorem State.addDraws_hostByte (s : State) (k : Nat) (y : Nat) : hostByte (s.addDraws k) y = hostByte s y := rfl

/-! ### Accessors after an update of what they read -/

theorem State.updEp_ep (s : State) (d d' : Direction) (i j : Slot) (f : EndpointRecord → EndpointRecord) :
    (s.updEp d i f).ep d' j = if d' = d ∧ j = i then f (s.ep d i) else s.ep d' j := by
  cases d <;> cases d' <;> simp [State.updEp, State.ep, Vector.getElem_set, Fin.ext_iff, eq_comm]

@[simp] theorem State.updEp_ep_self (s : State) (d : Direction) (i : Slot) (f : EndpointRecord → EndpointRecord) :
    (s.updEp d i f).ep d i = f (s.ep d i) := by
  simp [State.updEp_ep]

theorem State.updEp_ep_other (s : State) (d d' : Direction) (i j : Slot) (f : EndpointRecord → EndpointRecord)
    (h : ¬(d' = d ∧ j = i)) : (s.updEp d i f).ep d' j = s.ep d' j := by
  rw [State.updEp_ep, if_neg h]

theorem State.updReg_reg (s : State) (i j : Slot) (f : EndpointRegister → EndpointRegister) :
    (s.updReg i f).reg j = if j = i then f (s.reg i) else s.reg j := by
  simp [State.updReg, State.reg, Vector.getElem_set, Fin.ext_iff, eq_comm]

@[simp] theorem State.updReg_reg_self (s : State) (i : Slot) (f : EndpointRegister → EndpointRegister) :
    (s.updReg i f).reg i = f (s.reg i) := by
  simp [State.updReg_reg]

theorem State.updLate_late (s : State) (i j : Slot) (f : LateWire → LateWire) :
    (s.updLate i f).late j = if j = i then f (s.late i) else s.late j := by
  simp [State.updLate, State.late, Vector.getElem_set, Fin.ext_iff, eq_comm]

@[simp] theorem State.updLate_late_self (s : State) (i : Slot) (f : LateWire → LateWire) :
    (s.updLate i f).late i = f (s.late i) := by
  simp [State.updLate_late]

theorem State.endLate_late (s : State) (j : Slot) : s.endLate.late j = LateWire.none := by
  simp [State.endLate, State.late]

theorem State.updTable_table (s : State) (i j : Slot) (f : BdtEntry → BdtEntry) :
    (s.updTable i f).table j = if j = i then f (s.table i) else s.table j := by
  simp [State.updTable, State.table, Vector.getElem_set, Fin.ext_iff, eq_comm]

@[simp] theorem State.updTable_table_self (s : State) (i : Slot) (f : BdtEntry → BdtEntry) :
    (s.updTable i f).table i = f (s.table i) := by
  simp [State.updTable_table]

theorem State.setStatTx_reg (s : State) (i j : Slot) (v : Status) :
    (s.setStatTx i v).reg j = if j = i then { s.reg i with statTx := v } else s.reg j :=
  State.updReg_reg s i j _

theorem State.setStatRx_reg (s : State) (i j : Slot) (v : Status) :
    (s.setStatRx i v).reg j = if j = i then { s.reg i with statRx := v } else s.reg j :=
  State.updReg_reg s i j _

theorem State.setKind_reg (s : State) (i j : Slot) (v : Bool) :
    (s.setKind i v).reg j = if j = i then { s.reg i with kind := v } else s.reg j :=
  State.updReg_reg s i j _

@[simp] theorem State.setStatTx_reg_self (s : State) (i : Slot) (v : Status) :
    (s.setStatTx i v).reg i = { s.reg i with statTx := v } := State.updReg_reg_self s i _

@[simp] theorem State.setStatRx_reg_self (s : State) (i : Slot) (v : Status) :
    (s.setStatRx i v).reg i = { s.reg i with statRx := v } := State.updReg_reg_self s i _

@[simp] theorem State.setKind_reg_self (s : State) (i : Slot) (v : Bool) :
    (s.setKind i v).reg i = { s.reg i with kind := v } := State.updReg_reg_self s i _

theorem State.setCount_table (s : State) (i j : Slot) (k : Bool) (n : Nat) :
    (s.setCount i k n).table j =
      if j = i then
        (if k then { s.table i with countRx := countOf n } else { s.table i with countTx := countOf n })
      else s.table j :=
  State.updTable_table s i j _

@[simp] theorem State.setCount_table_tx (s : State) (i : Slot) (n : Nat) :
    (s.setCount i false n).table i = { s.table i with countTx := countOf n } := by
  simp [State.setCount_table]

@[simp] theorem State.setCount_table_rx (s : State) (i : Slot) (n : Nat) :
    (s.setCount i true n).table i = { s.table i with countRx := countOf n } := by
  simp [State.setCount_table]

@[simp] theorem State.mapRegs_reg (s : State) (f : EndpointRegister → EndpointRegister) (j : Slot) :
    (s.mapRegs f).reg j = f (s.reg j) := by
  simp [State.mapRegs, State.reg]

@[simp] theorem State.mapEps_ep (s : State) (f : EndpointRecord → EndpointRecord) (d : Direction) (j : Slot) :
    (s.mapEps f).ep d j = f (s.ep d j) := by
  cases d <;> simp [State.mapEps, State.ep]

end Sys2Proof.Machine
end

