-- ==== Sys2Proof/Laws/Memory.lean ====
section
/-! SUPPORT. The laws of the two memories: read after write, and every write keeps the canonical form. -/

namespace Sys2Proof.Machine

theorem memGet_memSet (m : Memory) (x y : Nat) (v : Byte) :
    memGet (memSet m x v) y = if y = x then some v else memGet m y := by
  induction m with
  | nil => simp [memSet, memGet]
  | cons c m ih =>
    unfold memSet
    split
    · simp only [memGet]
    · split
      · rename_i heq
        subst heq
        simp only [memGet]
        split <;> rfl
      · rename_i hne
        simp only [memGet, ih]
        by_cases hy : y = x
        · subst hy
          simp [hne]
        · simp [hy]

theorem mem_memSet (m : Memory) (x : Nat) (v : Byte) (e : Host.Cell) (h : e ∈ memSet m x v) :
    e = (x, v) ∨ e ∈ m := by
  induction m with
  | nil => simpa [memSet] using h
  | cons c m ih =>
    unfold memSet at h
    split at h
    · simpa using h
    · split at h
      · rcases List.mem_cons.mp h with h | h
        · exact .inl h
        · exact .inr (List.mem_cons_of_mem _ h)
      · rcases List.mem_cons.mp h with h | h
        · exact .inr (h ▸ List.mem_cons_self)
        · rcases ih h with h | h
          · exact .inl h
          · exact .inr (List.mem_cons_of_mem _ h)

theorem memSet_wf (m : Memory) (x : Nat) (v : Byte) (h : Memory.wf m) : Memory.wf (memSet m x v) := by
  induction m with
  | nil => simp [memSet, Memory.wf]
  | cons c m ih =>
    obtain ⟨hc, hm⟩ := List.pairwise_cons.mp h
    unfold memSet
    split
    · rename_i hlt
      refine List.pairwise_cons.mpr ⟨?_, h⟩
      intro e he
      rcases List.mem_cons.mp he with he | he
      · exact he ▸ hlt
      · exact Nat.lt_trans hlt (hc e he)
    · split
      · rename_i heq
        exact List.pairwise_cons.mpr ⟨fun e he => by simpa [heq] using hc e he, hm⟩
      · refine List.pairwise_cons.mpr ⟨?_, ih hm⟩
        intro e he
        rcases mem_memSet m x v e he with he | he
        · subst he
          simp only
          omega
        · exact hc e he

theorem storeBytes_wf (vs : List Byte) : ∀ (m : Memory) (x : Nat), Memory.wf m → Memory.wf (storeBytes m x vs) := by
  induction vs with
  | nil => intro m x h; exact h
  | cons v vs ih => intro m x h; exact ih _ _ (memSet_wf m x v h)

theorem mem_storeBytes (vs : List Byte) : ∀ (m : Memory) (x : Nat) (e : Host.Cell), e ∈ storeBytes m x vs →
    e ∈ m ∨ (x ≤ e.1 ∧ e.1 < x + vs.length) := by
  induction vs with
  | nil => intro m x e h; exact .inl h
  | cons v vs ih =>
    intro m x e h
    rcases ih _ _ e h with h | ⟨h1, h2⟩
    · rcases mem_memSet m x v e h with h | h
      · subst h
        exact .inr ⟨Nat.le_refl _, by simp⟩
      · exact .inl h
    · refine .inr ⟨by omega, ?_⟩
      simp only [List.length_cons]
      omega

theorem memGet_storeBytes (vs : List Byte) : ∀ (m : Memory) (x y : Nat),
    memGet (storeBytes m x vs) y = if x ≤ y ∧ y < x + vs.length then vs[y - x]? else memGet m y := by
  induction vs with
  | nil =>
    intro m x y
    have : ¬(x ≤ y ∧ y < x + 0) := by omega
    simp only [storeBytes, List.length_nil, if_neg this]
  | cons v vs ih =>
    intro m x y
    simp only [storeBytes]
    rw [ih, memGet_memSet]
    simp only [List.length_cons]
    by_cases hy : y = x
    · subst hy
      simp
    · by_cases hr : x ≤ y ∧ y < x + (vs.length + 1)
      · have h1 : x + 1 ≤ y ∧ y < x + 1 + vs.length := by omega
        have h2 : y - x = (y - (x + 1)) + 1 := by omega
        rw [if_pos h1, if_pos hr, h2]
        simp
      · have h1 : ¬(x + 1 ≤ y ∧ y < x + 1 + vs.length) := by omega
        rw [if_neg h1, if_neg hr, if_neg hy]

@[simp] theorem length_loadBytes (read : Nat → Byte) (n : Nat) : ∀ x, (loadBytes read x n).length = n := by
  induction n with
  | zero => intro x; rfl
  | succ n ih => intro x; simp [loadBytes, ih]

theorem getElem?_loadBytes (read : Nat → Byte) (n : Nat) : ∀ x k, k < n →
    (loadBytes read x n)[k]? = some (read (x + k)) := by
  induction n with
  | zero => intro x k h; omega
  | succ n ih =>
    intro x k h
    cases k with
    | zero => simp [loadBytes]
    | succ k =>
      simp only [loadBytes, List.getElem?_cons_succ]
      rw [ih (x + 1) k (by omega)]
      congr 2
      omega

theorem loadBytes_congr (f g : Nat → Byte) (n : Nat) : ∀ x, (∀ k, k < n → f (x + k) = g (x + k)) →
    loadBytes f x n = loadBytes g x n := by
  induction n with
  | zero => intro x h; rfl
  | succ n ih =>
    intro x h
    simp only [loadBytes]
    rw [ih (x + 1) (fun k hk => by have := h (k + 1) (by omega); rwa [show x + 1 + k = x + (k + 1) by omega])]
    have := h 0 (by omega)
    simpa using this

theorem loadBytes_shift (f g : Nat → Byte) (n : Nat) : ∀ x y, (∀ k, k < n → f (x + k) = g (y + k)) →
    loadBytes f x n = loadBytes g y n := by
  induction n with
  | zero => intro x y h; rfl
  | succ n ih =>
    intro x y h
    simp only [loadBytes]
    rw [ih (x + 1) (y + 1) (fun k hk => by
      have := h (k + 1) (by omega)
      rwa [show x + 1 + k = x + (k + 1) by omega, show y + 1 + k = y + (k + 1) by omega])]
    have := h 0 (by omega)
    simpa using this

/-- A byte of packet memory after a store: the stored byte inside, the old byte outside. -/
theorem State.storePm_pmByte (s : State) (x y : Nat) (vs : List Byte) :
    pmByte (s.storePm x vs) y = if x ≤ y ∧ y < x + vs.length then (vs[y - x]?).getD 0 else pmByte s y := by
  unfold pmByte
  rw [State.storePm_pm, memGet_storeBytes vs s.pm x y]
  split
  · rename_i hr
    have : y - x < vs.length := by omega
    simp [List.getElem?_eq_getElem this]
  · rfl

/-- A byte of caller memory after a store: the stored byte inside, the old byte outside. -/
theorem State.storeHost_hostByte (s : State) (x y : Nat) (vs : List Byte) :
    hostByte (s.storeHost x vs) y = if x ≤ y ∧ y < x + vs.length then (vs[y - x]?).getD 0 else hostByte s y := by
  unfold hostByte
  rw [State.storeHost_host, memGet_storeBytes vs s.host x y]
  split
  · rename_i hr
    have : y - x < vs.length := by omega
    simp [List.getElem?_eq_getElem this]
  · rfl

end Sys2Proof.Machine
end

