-- ==== Sys2Proof/Laws/Engine.lean ====
section
/-! SUPPORT. What the gates, the sequencing and the Transfer Engine's primitives answer, once, to be cited. -/

namespace Sys2Proof.Machine

/-! ### Sequencing and gates -/

@[simp] theorem andThen_next (s : State) (f : State → Result) : andThen (.next s) f = f s := rfl

@[simp] theorem andThen_refused (e : Refusal) (f : State → Result) : andThen (.refused e) f = .refused e := rfl

theorem andThen_eq_next {r : Result} {f : State → Result} {t : State} :
    andThen r f = .next t ↔ ∃ u, r = .next u ∧ f u = .next t := by
  cases r <;> simp [andThen]

@[simp] theorem answerOk_eq_next {s t : State} : answerOk s = .next t ↔ s.respond .ok = t := by
  simp [answerOk]

theorem requireReady_of {s : State} (h : s.dev.state = .ready) (k : Result) : requireReady s k = k := by
  simp [requireReady, h]

theorem requireReady_not {s : State} (h : s.dev.state ≠ .ready) (k : Result) :
    requireReady s k = .refused .notReady := by
  simp [requireReady, h]

theorem requireReady_eq_next {s t : State} {k : Result} :
    requireReady s k = .next t ↔ s.dev.state = .ready ∧ k = .next t := by
  unfold requireReady
  split <;> simp_all

theorem withSlot_of {s : State} {n : Nat} (i : Slot) (hn : n = i.val) (hc : i.val < s.dev.count.toNat)
    (k : Slot → Result) : withSlot s n k = k i := by
  subst hn
  simp [withSlot, hc]

theorem withSlot_beyond {s : State} {n : Nat} (h : s.dev.count.toNat ≤ n) (k : Slot → Result) :
    withSlot s n k = .refused .slotOutOfRange := by
  unfold withSlot
  split
  · rw [if_neg (by omega)]
  · rfl

theorem withSlot_eq_next {s t : State} {n : Nat} {k : Slot → Result} :
    withSlot s n k = .next t ↔ ∃ i : Slot, i.val = n ∧ n < s.dev.count.toNat ∧ k i = .next t := by
  unfold withSlot
  split
  · rename_i h
    split
    · rename_i hc
      constructor
      · intro e
        exact ⟨⟨n, h⟩, rfl, hc, e⟩
      · rintro ⟨i, rfl, _, e⟩
        exact e
    · rename_i hc
      constructor
      · intro e
        exact absurd e (by simp)
      · rintro ⟨i, _, hi, _⟩
        exact absurd hi hc
  · rename_i h
    constructor
    · intro e
      exact absurd e (by simp)
    · rintro ⟨i, rfl, _, _⟩
      exact absurd i.isLt h

/-! ### Addresses and lengths -/

theorem evenAddr_iff (a : PmAddr) : evenAddr a = true ↔ a.toNat % 2 = 0 := by
  simp only [evenAddr, BitVec.getLsbD, Nat.testBit_zero]
  simp

theorem wordBase_of_even {a : PmAddr} (h : evenAddr a = true) : wordBase a = a.toNat := by
  have := (evenAddr_iff a).mp h
  unfold wordBase
  omega

theorem wordBase_of_admitted {a : PmAddr} {n : Nat} (h : admitted a n = true) : wordBase a = a.toNat := by
  unfold admitted at h
  exact wordBase_of_even (Bool.and_eq_true _ _ ▸ h : _ ∧ _).1

theorem admitted_inside {a : PmAddr} {n : Nat} (h : admitted a n = true) :
    a.toNat % 2 = 0 ∧ a.toNat + 2 * ceilDiv2 n ≤ 2 * Config.pmWords := by
  unfold admitted fitsPacketMemory at h
  rw [Bool.and_eq_true, evenAddr_iff, decide_eq_true_eq] at h
  refine ⟨h.1, ?_⟩
  have := h.2
  omega

theorem two_ceilDiv2 (n : Nat) : 2 * ceilDiv2 n = n + n % 2 := by
  unfold ceilDiv2
  omega

/-! ### The primitives -/

theorem length_packetBytes (policy : OddWritePolicy) (r : Option Region) (buf : HostAddr) (n : Nat) (s : State) :
    (packetBytes policy r buf n s).length = 2 * ceilDiv2 n := by
  rw [two_ceilDiv2]
  unfold packetBytes
  split <;> simp <;> omega

/-- Every byte of packet memory after a `write` (41_transfer_engine.md R101, R107). -/
theorem afterWrite_pmByte (policy : OddWritePolicy) (r : Option Region) (buf : HostAddr) (a : PmAddr) (n : Nat)
    (s : State) (y : Nat) :
    pmByte (afterWrite policy r buf a n s) y =
      if wordBase a ≤ y ∧ y < wordBase a + 2 * ceilDiv2 n then
        (if y - wordBase a < n then hostByte s (buf.toNat + (y - wordBase a))
         else padByte policy r (buf.toNat + n) s)
      else pmByte s y := by
  unfold afterWrite
  rw [State.addDraws_pmByte, State.storePm_pmByte, length_packetBytes]
  split
  · rename_i h
    split
    · rename_i hk
      unfold packetBytes
      rw [List.getElem?_append_left (by simpa using hk), getElem?_loadBytes _ _ _ _ hk]
      rfl
    · rename_i hk
      have h2 := two_ceilDiv2 n
      have hodd : n % 2 = 1 := by omega
      have hy : y - wordBase a = n := by omega
      unfold packetBytes
      rw [List.getElem?_append_right (by simpa using hk), hy, if_pos hodd]
      simp
  · rfl

@[simp] theorem afterWrite_dev (p : OddWritePolicy) (r : Option Region) (b : HostAddr) (a : PmAddr) (n : Nat) (s : State) :
    (afterWrite p r b a n s).dev = s.dev := rfl
@[simp] theorem afterWrite_cntr (p : OddWritePolicy) (r : Option Region) (b : HostAddr) (a : PmAddr) (n : Nat) (s : State) :
    (afterWrite p r b a n s).cntr = s.cntr := rfl
@[simp] theorem afterWrite_istr (p : OddWritePolicy) (r : Option Region) (b : HostAddr) (a : PmAddr) (n : Nat) (s : State) :
    (afterWrite p r b a n s).istr = s.istr := rfl
@[simp] theorem afterWrite_btable (p : OddWritePolicy) (r : Option Region) (b : HostAddr) (a : PmAddr) (n : Nat) (s : State) :
    (afterWrite p r b a n s).btable = s.btable := rfl
@[simp] theorem afterWrite_pullup (p : OddWritePolicy) (r : Option Region) (b : HostAddr) (a : PmAddr) (n : Nat) (s : State) :
    (afterWrite p r b a n s).pullup = s.pullup := rfl
@[simp] theorem afterWrite_host (p : OddWritePolicy) (r : Option Region) (b : HostAddr) (a : PmAddr) (n : Nat) (s : State) :
    (afterWrite p r b a n s).host = s.host := rfl
@[simp] theorem afterWrite_lateWire (p : OddWritePolicy) (r : Option Region) (b : HostAddr) (a : PmAddr) (n : Nat) (s : State) :
    (afterWrite p r b a n s).lateWire = s.lateWire := rfl
@[simp] theorem afterWrite_late (p : OddWritePolicy) (r : Option Region) (b : HostAddr) (a : PmAddr) (n : Nat) (s : State)
    (j : Slot) : (afterWrite p r b a n s).late j = s.late j := rfl
@[simp] theorem afterWrite_inputs (p : OddWritePolicy) (r : Option Region) (b : HostAddr) (a : PmAddr) (n : Nat) (s : State) :
    (afterWrite p r b a n s).inputs = s.inputs := rfl
@[simp] theorem afterWrite_signals (p : OddWritePolicy) (r : Option Region) (b : HostAddr) (a : PmAddr) (n : Nat) (s : State) :
    (afterWrite p r b a n s).signals = s.signals := rfl
@[simp] theorem afterWrite_response (p : OddWritePolicy) (r : Option Region) (b : HostAddr) (a : PmAddr) (n : Nat) (s : State) :
    (afterWrite p r b a n s).response = s.response := rfl
@[simp] theorem afterWrite_ep (p : OddWritePolicy) (r : Option Region) (b : HostAddr) (a : PmAddr) (n : Nat) (s : State)
    (d : Direction) (i : Slot) : (afterWrite p r b a n s).ep d i = s.ep d i := rfl
@[simp] theorem afterWrite_reg (p : OddWritePolicy) (r : Option Region) (b : HostAddr) (a : PmAddr) (n : Nat) (s : State)
    (i : Slot) : (afterWrite p r b a n s).reg i = s.reg i := rfl
@[simp] theorem afterWrite_table (p : OddWritePolicy) (r : Option Region) (b : HostAddr) (a : PmAddr) (n : Nat) (s : State)
    (i : Slot) : (afterWrite p r b a n s).table i = s.table i := rfl
@[simp] theorem afterWrite_hostByte (p : OddWritePolicy) (r : Option Region) (b : HostAddr) (a : PmAddr) (n : Nat) (s : State)
    (y : Nat) : hostByte (afterWrite p r b a n s) y = hostByte s y := rfl

theorem pmaWrite_of {p : OddWritePolicy} {r : Option Region} {buf : HostAddr} {a : PmAddr} {n : Nat} {s : State}
    (ha : admitted a n = true) (hr : regionAdmits r buf n = true) :
    pmaWrite p r buf a n s = .next (afterWrite p r buf a n s) := by
  simp [pmaWrite, ha, hr]

/-- All a `write` can do: it was admitted, and its state is `afterWrite`. -/
theorem pmaWrite_eq_next {p : OddWritePolicy} {r : Option Region} {buf : HostAddr} {a : PmAddr} {n : Nat} {s t : State} :
    pmaWrite p r buf a n s = .next t ↔
      admitted a n = true ∧ regionAdmits r buf n = true ∧ afterWrite p r buf a n s = t := by
  unfold pmaWrite
  split
  · split <;> simp_all
  · simp_all

/-- A `write` that packet memory or the caller region does not admit is refused (20_memory.md R53, R55). -/
theorem pmaWrite_not_admitted {p : OddWritePolicy} {r : Option Region} {buf : HostAddr} {a : PmAddr} {n : Nat} {s : State}
    (h : ¬(admitted a n = true ∧ regionAdmits r buf n = true)) :
    pmaWrite p r buf a n s = .refused .packetMemoryRange ∨ pmaWrite p r buf a n s = .refused .outsideCallerRegion := by
  unfold pmaWrite
  split
  · split
    · exact absurd ⟨‹_›, ‹_›⟩ h
    · exact .inr rfl
  · exact .inl rfl

/-- A `read` that packet memory or the caller region does not admit is refused (20_memory.md R53, R55). -/
theorem pmaRead_not_admitted {r : Option Region} {buf : HostAddr} {a : PmAddr} {n : Nat} {s : State}
    (h : ¬(admitted a n = true ∧ regionAdmits r buf n = true)) :
    pmaRead r a buf n s = .refused .packetMemoryRange ∨ pmaRead r a buf n s = .refused .outsideCallerRegion := by
  unfold pmaRead
  split
  · split
    · exact absurd ⟨‹_›, ‹_›⟩ h
    · exact .inr rfl
  · exact .inl rfl

/-- Every byte of caller memory after a `read` (41_transfer_engine.md R104, R107). -/
theorem afterRead_hostByte (a : PmAddr) (buf : HostAddr) (n : Nat) (s : State) (y : Nat) :
    hostByte (afterRead a buf n s) y =
      if buf.toNat ≤ y ∧ y < buf.toNat + n then pmByte s (wordBase a + (y - buf.toNat)) else hostByte s y := by
  unfold afterRead
  rw [State.storeHost_hostByte, length_loadBytes]
  split
  · rw [getElem?_loadBytes _ _ _ _ (by omega)]
    rfl
  · rfl

@[simp] theorem afterRead_dev (a : PmAddr) (b : HostAddr) (n : Nat) (s : State) :
    (afterRead a b n s).dev = s.dev := rfl
@[simp] theorem afterRead_epIn (a : PmAddr) (b : HostAddr) (n : Nat) (s : State) :
    (afterRead a b n s).epIn = s.epIn := rfl
@[simp] theorem afterRead_epOut (a : PmAddr) (b : HostAddr) (n : Nat) (s : State) :
    (afterRead a b n s).epOut = s.epOut := rfl
@[simp] theorem afterRead_epr (a : PmAddr) (b : HostAddr) (n : Nat) (s : State) :
    (afterRead a b n s).epr = s.epr := rfl
@[simp] theorem afterRead_bdt (a : PmAddr) (b : HostAddr) (n : Nat) (s : State) :
    (afterRead a b n s).bdt = s.bdt := rfl
@[simp] theorem afterRead_cntr (a : PmAddr) (b : HostAddr) (n : Nat) (s : State) :
    (afterRead a b n s).cntr = s.cntr := rfl
@[simp] theorem afterRead_istr (a : PmAddr) (b : HostAddr) (n : Nat) (s : State) :
    (afterRead a b n s).istr = s.istr := rfl
@[simp] theorem afterRead_btable (a : PmAddr) (b : HostAddr) (n : Nat) (s : State) :
    (afterRead a b n s).btable = s.btable := rfl
@[simp] theorem afterRead_pullup (a : PmAddr) (b : HostAddr) (n : Nat) (s : State) :
    (afterRead a b n s).pullup = s.pullup := rfl
@[simp] theorem afterRead_pm (a : PmAddr) (b : HostAddr) (n : Nat) (s : State) :
    (afterRead a b n s).pm = s.pm := rfl
@[simp] theorem afterRead_lateWire (a : PmAddr) (b : HostAddr) (n : Nat) (s : State) :
    (afterRead a b n s).lateWire = s.lateWire := rfl
@[simp] theorem afterRead_late (a : PmAddr) (b : HostAddr) (n : Nat) (s : State)
    (j : Slot) : (afterRead a b n s).late j = s.late j := rfl
@[simp] theorem afterRead_inputs (a : PmAddr) (b : HostAddr) (n : Nat) (s : State) :
    (afterRead a b n s).inputs = s.inputs := rfl
@[simp] theorem afterRead_signals (a : PmAddr) (b : HostAddr) (n : Nat) (s : State) :
    (afterRead a b n s).signals = s.signals := rfl
@[simp] theorem afterRead_response (a : PmAddr) (b : HostAddr) (n : Nat) (s : State) :
    (afterRead a b n s).response = s.response := rfl
@[simp] theorem afterRead_draws (a : PmAddr) (b : HostAddr) (n : Nat) (s : State) :
    (afterRead a b n s).draws = s.draws := rfl
@[simp] theorem afterRead_ep (a : PmAddr) (b : HostAddr) (n : Nat) (s : State) (d : Direction) (i : Slot) :
    (afterRead a b n s).ep d i = s.ep d i := rfl
@[simp] theorem afterRead_reg (a : PmAddr) (b : HostAddr) (n : Nat) (s : State) (i : Slot) :
    (afterRead a b n s).reg i = s.reg i := rfl
@[simp] theorem afterRead_table (a : PmAddr) (b : HostAddr) (n : Nat) (s : State) (i : Slot) :
    (afterRead a b n s).table i = s.table i := rfl
@[simp] theorem afterRead_pmByte (a : PmAddr) (b : HostAddr) (n : Nat) (s : State) (y : Nat) :
    pmByte (afterRead a b n s) y = pmByte s y := rfl

theorem pmaRead_of {r : Option Region} {buf : HostAddr} {a : PmAddr} {n : Nat} {s : State}
    (ha : admitted a n = true) (hr : regionAdmits r buf n = true) :
    pmaRead r a buf n s = .next (afterRead a buf n s) := by
  simp [pmaRead, ha, hr]

/-- All a `read` can do: it was admitted, and its state is `afterRead`. -/
theorem pmaRead_eq_next {r : Option Region} {buf : HostAddr} {a : PmAddr} {n : Nat} {s t : State} :
    pmaRead r a buf n s = .next t ↔
      admitted a n = true ∧ regionAdmits r buf n = true ∧ afterRead a buf n s = t := by
  unfold pmaRead
  split
  · split <;> simp_all
  · simp_all

/-- The own region of a WRITE or READ command admits its bytes exactly when none lies past the last host address. -/
theorem regionAdmits_own (buf : HostAddr) (n : BitVec 16) :
    regionAdmits (some ⟨buf, n.setWidth 32⟩) buf n.toNat = true ↔
      n.toNat = 0 ∨ buf.toNat + n.toNat ≤ Config.hostSize := by
  have : (n.setWidth 32).toNat = n.toNat := by simp; omega
  simp [regionAdmits, this]

end Sys2Proof.Machine
end

