-- ==== Sys2Proof/Laws/Frames.lean ====
section
/-! SUPPORT. How the frame `OnlyTouches` passes through every update of the state: one lemma per update. -/

namespace Sys2Proof.Machine

theorem KeepsGlobals.refl (s : State) : KeepsGlobals s s := ⟨rfl, rfl, rfl, rfl, rfl, rfl, rfl⟩

theorem OnlyTouches.refl (s : State) (d : Direction) (i : Slot) : OnlyTouches s s d i :=
  ⟨KeepsGlobals.refl s, fun _ _ _ => rfl, fun _ _ => rfl, fun _ _ => rfl⟩

/-- A state with the same records, registers, table and globals may take the place of the second one. -/
theorem OnlyTouches.congr {s t u : State} {d : Direction} {i : Slot} (h : OnlyTouches s t d i) (hg : KeepsGlobals t u)
    (he : KeepsRecords t u) (hr : KeepsRegs t u) (ht : KeepsTable t u) : OnlyTouches s u d i where
  globals :=
    ⟨hg.dev.trans h.globals.dev, hg.cntr.trans h.globals.cntr, hg.istr.trans h.globals.istr,
      hg.btable.trans h.globals.btable, hg.pullup.trans h.globals.pullup, hg.inputs.trans h.globals.inputs,
      hg.lateWire.trans h.globals.lateWire⟩
  records := fun d' j hj => (he d' j).trans (h.records d' j hj)
  regs := fun j hj => (hr j).trans (h.regs j hj)
  table := fun j hj => (ht j).trans (h.table j hj)

theorem OnlyTouches.trans {s t u : State} {d : Direction} {i : Slot} (h : OnlyTouches s t d i)
    (h2 : OnlyTouches t u d i) : OnlyTouches s u d i where
  globals :=
    ⟨h2.globals.dev.trans h.globals.dev, h2.globals.cntr.trans h.globals.cntr, h2.globals.istr.trans h.globals.istr,
      h2.globals.btable.trans h.globals.btable, h2.globals.pullup.trans h.globals.pullup,
      h2.globals.inputs.trans h.globals.inputs,
      h2.globals.lateWire.trans h.globals.lateWire⟩
  records := fun d' j hj => (h2.records d' j hj).trans (h.records d' j hj)
  regs := fun j hj => (h2.regs j hj).trans (h.regs j hj)
  table := fun j hj => (h2.table j hj).trans (h.table j hj)

theorem OnlyTouches.updEp {s t : State} {d : Direction} {i : Slot} (h : OnlyTouches s t d i)
    (f : EndpointRecord → EndpointRecord) : OnlyTouches s (t.updEp d i f) d i where
  globals := ⟨h.globals.1, h.globals.2, h.globals.3, h.globals.4, h.globals.5, h.globals.6, h.globals.7⟩
  records := fun d' j hj => (State.updEp_ep_other t d d' i j f hj).trans (h.records d' j hj)
  regs := h.regs
  table := h.table

theorem OnlyTouches.updReg {s t : State} {d : Direction} {i : Slot} (h : OnlyTouches s t d i)
    (f : EndpointRegister → EndpointRegister) : OnlyTouches s (t.updReg i f) d i where
  globals := ⟨h.globals.1, h.globals.2, h.globals.3, h.globals.4, h.globals.5, h.globals.6, h.globals.7⟩
  records := h.records
  regs := fun j hj => by rw [State.updReg_reg, if_neg hj]; exact h.regs j hj
  table := h.table

theorem OnlyTouches.updTable {s t : State} {d : Direction} {i : Slot} (h : OnlyTouches s t d i)
    (f : BdtEntry → BdtEntry) : OnlyTouches s (t.updTable i f) d i where
  globals := ⟨h.globals.1, h.globals.2, h.globals.3, h.globals.4, h.globals.5, h.globals.6, h.globals.7⟩
  records := h.records
  regs := h.regs
  table := fun j hj => by rw [State.updTable_table, if_neg hj]; exact h.table j hj

theorem OnlyTouches.setCount {s t : State} {d : Direction} {i : Slot} (h : OnlyTouches s t d i) (k : Bool) (n : Nat) :
    OnlyTouches s (t.setCount i k n) d i := h.updTable _

theorem OnlyTouches.setStatTx {s t : State} {d : Direction} {i : Slot} (h : OnlyTouches s t d i) (v : Status) :
    OnlyTouches s (t.setStatTx i v) d i := h.updReg _

theorem OnlyTouches.setStatRx {s t : State} {d : Direction} {i : Slot} (h : OnlyTouches s t d i) (v : Status) :
    OnlyTouches s (t.setStatRx i v) d i := h.updReg _

theorem OnlyTouches.setKind {s t : State} {d : Direction} {i : Slot} (h : OnlyTouches s t d i) (v : Bool) :
    OnlyTouches s (t.setKind i v) d i := h.updReg _

theorem OnlyTouches.respond {s t : State} {d : Direction} {i : Slot} (h : OnlyTouches s t d i) (r : Response) :
    OnlyTouches s (t.respond r) d i := h.congr ⟨rfl, rfl, rfl, rfl, rfl, rfl, rfl⟩ (fun _ _ => rfl) (fun _ => rfl) (fun _ => rfl)

theorem OnlyTouches.emit {s t : State} {d : Direction} {i : Slot} (h : OnlyTouches s t d i) (x : Signal) :
    OnlyTouches s (t.emit x) d i := h.congr ⟨rfl, rfl, rfl, rfl, rfl, rfl, rfl⟩ (fun _ _ => rfl) (fun _ => rfl) (fun _ => rfl)

theorem OnlyTouches.afterWrite {s t : State} {d : Direction} {i : Slot} (h : OnlyTouches s t d i) (p : OddWritePolicy)
    (r : Option Region) (buf : HostAddr) (a : PmAddr) (n : Nat) : OnlyTouches s (afterWrite p r buf a n t) d i :=
  h.congr ⟨rfl, rfl, rfl, rfl, rfl, rfl, rfl⟩ (fun _ _ => rfl) (fun _ => rfl) (fun _ => rfl)

theorem OnlyTouches.afterRead {s t : State} {d : Direction} {i : Slot} (h : OnlyTouches s t d i)
    (a : PmAddr) (buf : HostAddr) (n : Nat) : OnlyTouches s (afterRead a buf n t) d i :=
  h.congr ⟨rfl, rfl, rfl, rfl, rfl, rfl, rfl⟩ (fun _ _ => rfl) (fun _ => rfl) (fun _ => rfl)

/-- The frame of a state whose late wire steps were updated last, from the frame before that. -/
theorem OnlyTouches.updLate {s t : State} {d : Direction} {i : Slot} (h : OnlyTouches s t d i)
    (f : LateWire → LateWire) : OnlyTouchesWire s (t.updLate i f) d i where
  rest :=
    ⟨⟨h.globals.1, h.globals.2, h.globals.3, h.globals.4, h.globals.5, h.globals.6, rfl⟩, h.records, h.regs, h.table⟩
  late := fun j hj => by
    rw [State.updLate_late, if_neg hj]
    simp only [State.late, h.globals.lateWire]

theorem OnlyTouchesWire.respond {s t : State} {d : Direction} {i : Slot} (h : OnlyTouchesWire s t d i) (r : Response) :
    OnlyTouchesWire s (t.respond r) d i where
  rest := h.rest.congr ⟨rfl, rfl, rfl, rfl, rfl, rfl, rfl⟩ (fun _ _ => rfl) (fun _ => rfl) (fun _ => rfl)
  late := h.late

end Sys2Proof.Machine
end

