-- ==== Sys2Proof/Laws/Scheduler.lean ====
section
/-! SUPPORT. What each path of the scheduler answers, as an equivalence, and what every scheduling step leaves. -/

namespace Sys2Proof.Machine

/-! ### The paths of the IN side -/

/-- The state after the IN single-buffer path (43_scheduler.md R128). -/
theorem inSingle_eq_next {i : Slot} {s t : State} :
    inSingle i s = .next t ↔
      (s.ep .IN i).packetLength < Config.countLimit ∧
      admitted (s.ep .IN i).address (s.ep .IN i).packetLength = true ∧
      regionAdmits (s.ep .IN i).region (s.ep .IN i).transferBuffer (s.ep .IN i).packetLength = true ∧
      t = ((afterWrite Config.oddWritePolicy (s.ep .IN i).region (s.ep .IN i).transferBuffer (s.ep .IN i).address
        (s.ep .IN i).packetLength s).setCount i false (s.ep .IN i).packetLength).setStatTx i .valid := by
  unfold inSingle
  simp only
  split
  · rename_i h
    constructor
    · intro e
      exact absurd e (by simp)
    · intro e
      omega
  · rename_i h
    rw [andThen_eq_next]
    constructor
    · rintro ⟨u, hu, e⟩
      obtain ⟨ha, hr, rfl⟩ := pmaWrite_eq_next.mp hu
      exact ⟨by omega, ha, hr, (Host.Outcome.next.inj e).symm⟩
    · rintro ⟨_, ha, hr, rfl⟩
      exact ⟨_, pmaWrite_of ha hr, rfl⟩

/-- The state after the automatic switch (43_scheduler.md R132). -/
theorem inAutoSwitch_eq_next {i : Slot} {s t : State} :
    inAutoSwitch i s = .next t ↔
      (s.ep .IN i).remainingLengthSecondary.toNat < Config.countLimit ∧
      admitted (s.ep .IN i).address0 (s.ep .IN i).remainingLengthSecondary.toNat = true ∧
      regionAdmits (s.ep .IN i).region (s.ep .IN i).transferBuffer (s.ep .IN i).remainingLengthSecondary.toNat = true ∧
      t = ((afterWrite Config.oddWritePolicy (s.ep .IN i).region (s.ep .IN i).transferBuffer (s.ep .IN i).address0
        (s.ep .IN i).remainingLengthSecondary.toNat
        ((s.setKind i false).setCount i false (s.ep .IN i).remainingLengthSecondary.toNat)).updEp .IN i
          (fun r => { r with remainingLengthSecondary := 0 })).setStatTx i .valid := by
  unfold inAutoSwitch
  simp only
  split
  · rename_i h
    constructor
    · intro e
      exact absurd e (by simp)
    · intro e
      omega
  · rename_i h
    rw [andThen_eq_next]
    constructor
    · rintro ⟨u, hu, e⟩
      obtain ⟨ha, hr, rfl⟩ := pmaWrite_eq_next.mp hu
      exact ⟨by omega, ha, hr, (Host.Outcome.next.inj e).symm⟩
    · rintro ⟨_, ha, hr, rfl⟩
      exact ⟨_, pmaWrite_of ha hr, rfl⟩

/-- The state after the IN double-buffer isochronous path (43_scheduler.md R134). -/
theorem inDoubleIso_eq_next {i : Slot} {s t : State} :
    inDoubleIso i s = .next t ↔
      (s.ep .IN i).packetLength < Config.countLimit ∧
      admitted ((s.ep .IN i).bufferAddress (s.reg i).dtogTx) (s.ep .IN i).packetLength = true ∧
      regionAdmits (s.ep .IN i).region (s.ep .IN i).transferBuffer (s.ep .IN i).packetLength = true ∧
      t = ((afterWrite Config.oddWritePolicy (s.ep .IN i).region (s.ep .IN i).transferBuffer
        ((s.ep .IN i).bufferAddress (s.reg i).dtogTx) (s.ep .IN i).packetLength
        (s.setCount i (s.reg i).dtogTx (s.ep .IN i).packetLength)).updEp .IN i (fun r =>
          { r with remainingLengthSecondary :=
              satSub (s.ep .IN i).remainingLengthSecondary (s.ep .IN i).packetLength })).setStatTx i .valid := by
  unfold inDoubleIso
  simp only
  split
  · rename_i h
    constructor
    · intro e
      exact absurd e (by simp)
    · intro e
      omega
  · rename_i h
    rw [andThen_eq_next]
    constructor
    · rintro ⟨u, hu, e⟩
      obtain ⟨ha, hr, rfl⟩ := pmaWrite_eq_next.mp hu
      exact ⟨by omega, ha, hr, (Host.Outcome.next.inj e).symm⟩
    · rintro ⟨_, ha, hr, rfl⟩
      exact ⟨_, pmaWrite_of ha hr, rfl⟩

/-- The second packet of the double fill (43_scheduler.md R131). -/
def secondLength (e : EndpointRecord) : Nat :=
  min e.maxPacketSize.toNat (satSub e.remainingLengthSecondary e.maxPacketSize.toNat).toNat

/-- The state after the first of the two fills (43_scheduler.md R131). -/
def afterFirstFill (i : Slot) (s : State) : State :=
  afterWrite Config.oddWritePolicy (s.ep .IN i).region (s.ep .IN i).transferBuffer
    ((s.ep .IN i).bufferAddress (s.reg i).dtogTx) (s.ep .IN i).maxPacketSize.toNat
    ((s.setKind i true).setCount i (s.reg i).dtogTx (s.ep .IN i).maxPacketSize.toNat)

/-- The state after the double fill (43_scheduler.md R131). -/
theorem inDoubleFill_eq_next {i : Slot} {s t : State} :
    inDoubleFill i s = .next t ↔
      (s.ep .IN i).maxPacketSize.toNat < Config.countLimit ∧
      admitted ((s.ep .IN i).bufferAddress (s.reg i).dtogTx) (s.ep .IN i).maxPacketSize.toNat = true ∧
      regionAdmits (s.ep .IN i).region (s.ep .IN i).transferBuffer (s.ep .IN i).maxPacketSize.toNat = true ∧
      admitted ((s.ep .IN i).bufferAddress (!(s.reg i).dtogTx)) (secondLength (s.ep .IN i)) = true ∧
      regionAdmits (s.ep .IN i).region (addW (s.ep .IN i).transferBuffer (s.ep .IN i).maxPacketSize.toNat)
        (secondLength (s.ep .IN i)) = true ∧
      t = ((afterWrite Config.oddWritePolicy (s.ep .IN i).region
        (addW (s.ep .IN i).transferBuffer (s.ep .IN i).maxPacketSize.toNat)
        ((s.ep .IN i).bufferAddress (!(s.reg i).dtogTx)) (secondLength (s.ep .IN i))
        ((afterFirstFill i s).setCount i (!(s.reg i).dtogTx) (secondLength (s.ep .IN i)))).updEp .IN i (fun r =>
          { r with
            transferBuffer := addW (s.ep .IN i).transferBuffer (s.ep .IN i).maxPacketSize.toNat,
            remainingLengthSecondary :=
              satSub (satSub (s.ep .IN i).remainingLengthSecondary (s.ep .IN i).maxPacketSize.toNat)
                (secondLength (s.ep .IN i)) })).setStatTx i .valid := by
  unfold inDoubleFill
  simp only
  split
  · rename_i h
    constructor
    · intro e
      exact absurd e (by simp)
    · intro e
      omega
  · rename_i h
    rw [andThen_eq_next]
    constructor
    · rintro ⟨u, hu, e⟩
      obtain ⟨ha, hr, rfl⟩ := pmaWrite_eq_next.mp hu
      obtain ⟨v, hv, e⟩ := andThen_eq_next.mp e
      obtain ⟨ha', hr', rfl⟩ := pmaWrite_eq_next.mp hv
      exact ⟨by omega, ha, hr, ha', hr', (Host.Outcome.next.inj e).symm⟩
    · rintro ⟨_, ha, hr, ha', hr', rfl⟩
      exact ⟨_, pmaWrite_of ha hr, andThen_eq_next.mpr ⟨_, pmaWrite_of ha' hr', rfl⟩⟩

/-- The IN side goes one of four ways (43_scheduler.md R126). -/
theorem scheduleIn_cases {i : Slot} {s t : State} (h : scheduleIn i s = .next t) :
    ((s.ep .IN i).buffering = .single ∧ inSingle i s = .next t) ∨
    ((s.ep .IN i).buffering = .double ∧ (s.ep .IN i).epType = some .bulk ∧
      (s.ep .IN i).maxPacketSize.toNat < (s.ep .IN i).remainingLengthSecondary.toNat ∧ inDoubleFill i s = .next t) ∨
    ((s.ep .IN i).buffering = .double ∧ (s.ep .IN i).epType = some .bulk ∧
      (s.ep .IN i).remainingLengthSecondary.toNat ≤ (s.ep .IN i).maxPacketSize.toNat ∧ inAutoSwitch i s = .next t) ∨
    ((s.ep .IN i).buffering = .double ∧ (s.ep .IN i).epType = some .isochronous ∧ inDoubleIso i s = .next t) := by
  unfold scheduleIn at h
  simp only at h
  split at h
  · exact .inl ⟨‹_›, h⟩
  · split at h
    · unfold inDoubleBulk at h
      simp only at h
      split at h
      · exact .inr (.inl ⟨‹_›, ‹_›, ‹_›, h⟩)
      · exact .inr (.inr (.inl ⟨‹_›, ‹_›, by omega, h⟩))
    · exact .inr (.inr (.inr ⟨‹_›, ‹_›, h⟩))
    · exact absurd h (by simp)
    · exact absurd h (by simp)
    · exact absurd h (by simp)

/-! ### What a scheduling step leaves -/

/-- A record without the three transfer fields a scheduling step may write. -/
def EndpointRecord.withoutTransfer (e : EndpointRecord) : EndpointRecord :=
  { e with transferBuffer := 0, remainingLength := 0, remainingLengthSecondary := 0 }

/-- A register without the fields a scheduling step may write: `kind`, the two statuses, `dtog_tx`. -/
def EndpointRegister.withoutScheduled (r : EndpointRegister) : EndpointRegister :=
  { r with kind := false, statTx := .disabled, statRx := .disabled, dtogTx := false }

/-- A table entry without its counts. -/
def BdtEntry.addresses (b : BdtEntry) : PmAddr × PmAddr := (b.addrTx, b.addrRx)

/-- The fields no path of the scheduler writes (43_scheduler.md R142). -/
structure SchedulerKeeps (s t : State) (d : Direction) (i : Slot) : Prop where
  touches : OnlyTouches s t d i
  host : t.host = s.host
  signals : t.signals = s.signals
  response : t.response = s.response
  register : (t.reg i).withoutScheduled = (s.reg i).withoutScheduled
  addresses : (t.table i).addresses = (s.table i).addresses
  record : (t.ep d i).withoutTransfer = (s.ep d i).withoutTransfer

theorem SchedulerKeeps.refl (s : State) (d : Direction) (i : Slot) : SchedulerKeeps s s d i :=
  ⟨OnlyTouches.refl s d i, rfl, rfl, rfl, rfl, rfl, rfl⟩

theorem SchedulerKeeps.afterWrite {s t : State} {d : Direction} {i : Slot} (h : SchedulerKeeps s t d i)
    (p : OddWritePolicy) (r : Option Region) (buf : HostAddr) (a : PmAddr) (n : Nat) :
    SchedulerKeeps s (afterWrite p r buf a n t) d i :=
  ⟨h.1.afterWrite p r buf a n, h.2, h.3, h.4, h.5, h.6, h.7⟩

theorem SchedulerKeeps.setCount {s t : State} {d : Direction} {i : Slot} (h : SchedulerKeeps s t d i) (k : Bool)
    (n : Nat) : SchedulerKeeps s (t.setCount i k n) d i :=
  ⟨h.1.setCount k n, h.2, h.3, h.4, h.5, by rw [← h.6]; cases k <;> simp [BdtEntry.addresses], h.7⟩

theorem SchedulerKeeps.updReg {s t : State} {d : Direction} {i : Slot} (h : SchedulerKeeps s t d i)
    (f : EndpointRegister → EndpointRegister) (hf : ∀ r, (f r).withoutScheduled = r.withoutScheduled) :
    SchedulerKeeps s (t.updReg i f) d i :=
  ⟨h.1.updReg f, h.2, h.3, h.4, by rw [State.updReg_reg_self, hf, h.5], h.6, h.7⟩

theorem SchedulerKeeps.setStatTx {s t : State} {d : Direction} {i : Slot} (h : SchedulerKeeps s t d i) (v : Status) :
    SchedulerKeeps s (t.setStatTx i v) d i := h.updReg _ fun _ => rfl

theorem SchedulerKeeps.setStatRx {s t : State} {d : Direction} {i : Slot} (h : SchedulerKeeps s t d i) (v : Status) :
    SchedulerKeeps s (t.setStatRx i v) d i := h.updReg _ fun _ => rfl

theorem SchedulerKeeps.setKind {s t : State} {d : Direction} {i : Slot} (h : SchedulerKeeps s t d i) (v : Bool) :
    SchedulerKeeps s (t.setKind i v) d i := h.updReg _ fun _ => rfl

theorem SchedulerKeeps.releaseBuffer {s t : State} {d : Direction} {i : Slot} (h : SchedulerKeeps s t d i) :
    SchedulerKeeps s (releaseBuffer i t) d i := h.updReg _ fun _ => rfl

theorem SchedulerKeeps.updEp {s t : State} {d : Direction} {i : Slot} (h : SchedulerKeeps s t d i)
    (f : EndpointRecord → EndpointRecord) (hf : ∀ e, (f e).withoutTransfer = e.withoutTransfer) :
    SchedulerKeeps s (t.updEp d i f) d i :=
  ⟨h.1.updEp f, h.2, h.3, h.4, h.5, h.6, by rw [State.updEp_ep_self, hf, h.7]⟩

/-- The pre-decrement with its comparison on words (43_scheduler.md R137). -/
theorem preDecremented_eq (e : EndpointRecord) :
    e.preDecremented = if e.maxPacketSize < e.remainingLength then e.remainingLength - e.maxPacketSize else 0 := by
  unfold EndpointRecord.preDecremented
  simp only [← BitVec.lt_def]
  split
  · rename_i h
    apply BitVec.eq_of_toNat_eq
    rw [BitVec.toNat_sub_of_le (BitVec.le_of_lt h)]
    simp only [satSub, BitVec.toNat_ofNat]
    omega
  · rfl

/-- The status stage as one decision (43_scheduler.md R136). -/
theorem statusStage_eq (e : EndpointRecord) :
    e.statusStage = decide (e.remainingLength = 0 ∧ e.epType = some .control) := by
  rw [Bool.eq_iff_iff]
  simp [EndpointRecord.statusStage]

/-- The register after an OUT single-buffer step, in the status stage and in every other case (43_scheduler.md R136,
R137). -/
theorem outSingle_reg (i : Slot) (s : State) :
    (outSingle i s).reg i = { s.reg i with kind := (s.ep .OUT i).statusStage, statRx := .valid } := by
  unfold outSingle
  simp only
  split <;> simp_all

/-- The record after an OUT single-buffer step: in the status stage nothing is left, so the pre-decrement changes nothing
(43_scheduler.md R136, R137). -/
theorem outSingle_ep (i : Slot) (s : State) :
    (outSingle i s).ep .OUT i = { s.ep .OUT i with remainingLength := (s.ep .OUT i).preDecremented } := by
  unfold outSingle
  simp only
  split
  · rename_i h
    have h0 : (s.ep .OUT i).remainingLength = 0 := by simp_all [EndpointRecord.statusStage]
    have hp : (s.ep .OUT i).preDecremented = (s.ep .OUT i).remainingLength := by
      simp [EndpointRecord.preDecremented, h0]
    rw [hp]
    simp
  · simp

/-- An OUT step moves no byte and writes no table entry (43_scheduler.md R137, R140, R141). -/
theorem scheduleOut_keeps (i : Slot) (s : State) : (scheduleOut i s).pm = s.pm ∧ (scheduleOut i s).bdt = s.bdt := by
  unfold scheduleOut outSingle outDoubleBulk
  simp only
  repeat' split
  all_goals exact ⟨rfl, rfl⟩

/-- What every scheduling step leaves (43_scheduler.md R142). -/
theorem schedule_keeps {d : Direction} {i : Slot} {s t : State} (h : schedule d i s = .next t) :
    SchedulerKeeps s t d i := by
  have r := SchedulerKeeps.refl s d i
  cases d with
  | IN =>
    rcases scheduleIn_cases h with ⟨_, h⟩ | ⟨_, _, _, h⟩ | ⟨_, _, _, h⟩ | ⟨_, _, h⟩
    · obtain ⟨_, _, _, rfl⟩ := inSingle_eq_next.mp h
      exact ((r.afterWrite _ _ _ _ _).setCount _ _).setStatTx _
    · obtain ⟨_, _, _, _, _, rfl⟩ := inDoubleFill_eq_next.mp h
      exact ((((((r.setKind _).setCount _ _).afterWrite _ _ _ _ _).setCount _ _).afterWrite _ _ _ _ _).updEp _
        (by intro; rfl)).setStatTx _
    · obtain ⟨_, _, _, rfl⟩ := inAutoSwitch_eq_next.mp h
      exact ((((r.setKind _).setCount _ _).afterWrite _ _ _ _ _).updEp _ (by intro; rfl)).setStatTx _
    · obtain ⟨_, _, _, rfl⟩ := inDoubleIso_eq_next.mp h
      exact (((r.setCount _ _).afterWrite _ _ _ _ _).updEp _ (by intro; rfl)).setStatTx _
  | OUT =>
    obtain rfl : scheduleOut i s = t := Host.Outcome.next.inj h
    unfold scheduleOut
    simp only
    split
    · unfold outSingle
      simp only
      split
      · exact (r.setKind _).setStatRx _
      · exact ((r.setKind _).updEp _ (by intro; rfl)).setStatRx _
    · split
      · unfold outDoubleBulk
        simp only
        split
        · exact r.releaseBuffer.setStatRx _
        · exact r.setStatRx _
      · exact (r.updEp _ (by intro; rfl)).setStatRx _
      · exact r
      · exact r
      · exact r

end Sys2Proof.Machine
end

