-- ==== Sys2Proof/Laws/Commands.lean ====
section
/-! SUPPORT. One inversion lemma per command, environment step and step of the machine: when it answers a next state, and
which. -/

namespace Sys2Proof.Machine

/-! ### Commands -/

theorem execConfigure_eq_next {ea : EpAddr} {target : MemTarget} {s t : State} :
    execConfigure ea target s = .next t ↔
      s.dev.state = .ready ∧ ∃ i : Slot, i.val = ea.num ∧ ea.num < s.dev.count.toNat ∧ targetEven target = true ∧
        t = (s.updEp ea.dir i (·.configured target)).respond .ok := by
  unfold execConfigure
  rw [requireReady_eq_next, withSlot_eq_next]
  constructor
  · rintro ⟨hr, i, hi, hc, h⟩
    split at h
    · exact ⟨hr, i, hi, hc, ‹_›, (answerOk_eq_next.mp h).symm⟩
    · simp at h
  · rintro ⟨hr, i, hi, hc, he, rfl⟩
    exact ⟨hr, i, hi, hc, by rw [if_pos he]; rfl⟩

theorem execWrite_eq_next {buf : HostAddr} {a : PmAddr} {n : BitVec 16} {s t : State} :
    execWrite buf a n s = .next t ↔
      s.dev.state = .ready ∧ admitted a n.toNat = true ∧ regionAdmits (some ⟨buf, n.setWidth 32⟩) buf n.toNat = true ∧
        t = (afterWrite Config.oddWritePolicy (some ⟨buf, n.setWidth 32⟩) buf a n.toNat s).respond .ok := by
  unfold execWrite
  rw [requireReady_eq_next, andThen_eq_next]
  constructor
  · rintro ⟨hr, u, hu, h⟩
    obtain ⟨ha, hg, rfl⟩ := pmaWrite_eq_next.mp hu
    exact ⟨hr, ha, hg, (answerOk_eq_next.mp h).symm⟩
  · rintro ⟨hr, ha, hg, rfl⟩
    exact ⟨hr, _, pmaWrite_of ha hg, rfl⟩

theorem execRead_eq_next {a : PmAddr} {buf : HostAddr} {n : BitVec 16} {s t : State} :
    execRead a buf n s = .next t ↔
      s.dev.state = .ready ∧ admitted a n.toNat = true ∧ regionAdmits (some ⟨buf, n.setWidth 32⟩) buf n.toNat = true ∧
        t = (afterRead a buf n.toNat s).respond .ok := by
  unfold execRead
  rw [requireReady_eq_next, andThen_eq_next]
  constructor
  · rintro ⟨hr, u, hu, h⟩
    obtain ⟨ha, hg, rfl⟩ := pmaRead_eq_next.mp hu
    exact ⟨hr, ha, hg, (answerOk_eq_next.mp h).symm⟩
  · rintro ⟨hr, ha, hg, rfl⟩
    exact ⟨hr, _, pmaRead_of ha hg, rfl⟩

theorem execActivate_eq_next {ea : EpAddr} {code : BitVec 8} {mps : Len} {s t : State} :
    execActivate ea code mps s = .next t ↔
      s.dev.state = .ready ∧ ∃ i : Slot, i.val = ea.num ∧ ea.num < s.dev.count.toNat ∧
        ((epTypeOfCode code = none ∧ t = s.respond .invalidEndpointType) ∨
          (∃ ty, epTypeOfCode code = some ty ∧ mps ≠ 0 ∧ t = (activateSlot ea.dir i ty code mps s).respond .ok)) := by
  unfold execActivate
  rw [requireReady_eq_next, withSlot_eq_next]
  constructor
  · rintro ⟨hr, i, hi, hc, h⟩
    refine ⟨hr, i, hi, hc, ?_⟩
    split at h
    · exact .inl ⟨‹_›, (Host.Outcome.next.inj h).symm⟩
    · split at h
      · simp at h
      · exact .inr ⟨_, ‹_›, ‹_›, (Host.Outcome.next.inj h).symm⟩
  · rintro ⟨hr, i, hi, hc, ⟨hty, rfl⟩ | ⟨ty, hty, hm, rfl⟩⟩
    · exact ⟨hr, i, hi, hc, by rw [hty]; rfl⟩
    · exact ⟨hr, i, hi, hc, by rw [hty]; simp only; rw [if_neg hm]; rfl⟩

theorem execDeactivate_eq_next {ea : EpAddr} {s t : State} :
    execDeactivate ea s = .next t ↔
      s.dev.state = .ready ∧ ∃ i : Slot, i.val = ea.num ∧ ea.num < s.dev.count.toNat ∧
        t = (deactivateSlot ea.dir i s).respond .ok := by
  unfold execDeactivate
  rw [requireReady_eq_next, withSlot_eq_next]
  simp only [answerOk_eq_next, @eq_comm _ _ t]

theorem execStall_eq_next {ea : EpAddr} {s t : State} :
    execStall ea s = .next t ↔
      s.dev.state = .ready ∧
        ((s.dev.count.toNat < ea.num ∧ t = s.respond .ok) ∨
          (∃ i : Slot, i.val = ea.num ∧ ea.num ≤ s.dev.count.toNat ∧
            t = (stallSlot ea.dir i s).respond .ok)) := by
  unfold execStall stallWith
  rw [requireReady_eq_next]
  simp only [stallIgnored, if_true, decide_eq_true_eq]
  constructor
  · rintro ⟨hr, h⟩
    refine ⟨hr, ?_⟩
    split at h
    · exact .inl ⟨‹_›, (answerOk_eq_next.mp h).symm⟩
    · split at h
      · exact .inr ⟨⟨ea.num, ‹_›⟩, rfl, by omega, (answerOk_eq_next.mp h).symm⟩
      · simp at h
  · rintro ⟨hr, ⟨hc, rfl⟩ | ⟨i, hi, hc, rfl⟩⟩
    · exact ⟨hr, by rw [if_pos hc]; rfl⟩
    · refine ⟨hr, ?_⟩
      rw [if_neg (by omega), dif_pos (by omega)]
      simp only [← hi]
      rfl

theorem execStartTransfer_eq_next {ea : EpAddr} {s t : State} :
    execStartTransfer ea s = .next t ↔
      s.dev.state = .ready ∧ ∃ i : Slot, i.val = ea.num ∧ ea.num < s.dev.count.toNat ∧
        ∃ u, schedule ea.dir i s = .next u ∧ t = u.respond .ok := by
  unfold execStartTransfer
  simp only [requireReady_eq_next, withSlot_eq_next, andThen_eq_next, answerOk_eq_next, @eq_comm _ _ t]

theorem execInit_eq_next {c : BitVec 8} {hp ip : Bool} {s t : State} :
    execInit c hp ip s = .next t ↔
      (hp = false ∧ t = s.respond .nullHandle) ∨ (hp = true ∧ ip = false ∧ t = s.respond .nullInstance) ∨
        (hp = true ∧ ip = true ∧ c.toNat ≤ Config.N ∧ t = (initEffects c s).respond .ok) := by
  unfold execInit
  cases hp
  · simp [raise, @eq_comm _ _ t]
  · cases ip
    · simp [raise, @eq_comm _ _ t]
    · by_cases h : Config.N < c.toNat
      · simp [h]
      · simp [h, answerOk, @eq_comm _ _ t]
        omega

theorem execEnableInterrupts_eq_next {s t : State} :
    execEnableInterrupts s = .next t ↔ s.dev.state = .ready ∧ t = (s.writeEnables true).respond .ok := by
  simp only [execEnableInterrupts, requireReady_eq_next, answerOk_eq_next, @eq_comm _ _ t]

theorem execDisableInterrupts_eq_next {s t : State} :
    execDisableInterrupts s = .next t ↔ s.dev.state = .ready ∧ t = (s.writeEnables false).respond .ok := by
  simp only [execDisableInterrupts, requireReady_eq_next, answerOk_eq_next, @eq_comm _ _ t]

theorem execStart_eq_next {s t : State} :
    execStart s = .next t ↔
      s.dev.state = .ready ∧ t = { s.writeEnables true with pullup := true }.respond .ok := by
  simp only [execStart, requireReady_eq_next, answerOk_eq_next, @eq_comm _ _ t]

theorem execActivateRemoteWakeup_eq_next {s t : State} :
    execActivateRemoteWakeup s = .next t ↔ s.dev.state = .ready ∧ t = (s.writeResume true).respond .ok := by
  simp only [execActivateRemoteWakeup, requireReady_eq_next, answerOk_eq_next, @eq_comm _ _ t]

theorem execDeactivateRemoteWakeup_eq_next {s t : State} :
    execDeactivateRemoteWakeup s = .next t ↔ s.dev.state = .ready ∧ t = (s.writeResume false).respond .ok := by
  simp only [execDeactivateRemoteWakeup, requireReady_eq_next, answerOk_eq_next, @eq_comm _ _ t]

theorem request_eq_next {d : Direction} {n : Nat} {buf : HostAddr} {len : Len} {s t : State} :
    request d n buf len s = .next t ↔
      s.dev.state = .ready ∧ ∃ i : Slot, i.val = n ∧ n < s.dev.count.toNat ∧
        ∃ u, schedule d i (s.updEp d i (·.requested buf len)) = .next u ∧ t = u.respond .ok := by
  simp only [request, requireReady_eq_next, withSlot_eq_next, andThen_eq_next, answerOk_eq_next, @eq_comm _ _ t]

theorem execCompleteIn_eq_next {n : Nat} {s t : State} :
    execCompleteIn n s = .next t ↔
      s.dev.state = .ready ∧ ∃ i : Slot, i.val = n ∧ n < s.dev.count.toNat ∧ (s.ep .IN i).buffering = .single ∧
        (s.reg i).ctrTx = true ∧ ∃ u, completeInSingle i s = .next u ∧ t = u.respond .ok := by
  unfold execCompleteIn completeInWith dbCompletion
  simp only [requireReady_eq_next, withSlot_eq_next]
  constructor
  · rintro ⟨hr, i, hi, hc, h⟩
    split at h
    · simp at h
    · split at h
      · obtain ⟨u, hu, h⟩ := andThen_eq_next.mp h
        exact ⟨hr, i, hi, hc, ‹_›, ‹_›, u, hu, (answerOk_eq_next.mp h).symm⟩
      · simp at h
  · rintro ⟨hr, i, hi, hc, hb, hf, u, hu, rfl⟩
    exact ⟨hr, i, hi, hc, by simp only [hb]; rw [if_pos hf, hu]; rfl⟩

theorem execCompleteOut_eq_next {n : Nat} {s t : State} :
    execCompleteOut n s = .next t ↔
      s.dev.state = .ready ∧ ∃ i : Slot, i.val = n ∧ n < s.dev.count.toNat ∧ (s.ep .OUT i).buffering = .single ∧
        (s.reg i).ctrRx = true ∧ ∃ u, completeOutSingle i s = .next u ∧ t = u.respond .ok := by
  unfold execCompleteOut completeOutWith dbCompletion
  simp only [requireReady_eq_next, withSlot_eq_next]
  constructor
  · rintro ⟨hr, i, hi, hc, h⟩
    split at h
    · simp at h
    · split at h
      · obtain ⟨u, hu, h⟩ := andThen_eq_next.mp h
        exact ⟨hr, i, hi, hc, ‹_›, ‹_›, u, hu, (answerOk_eq_next.mp h).symm⟩
      · simp at h
  · rintro ⟨hr, i, hi, hc, hb, hf, u, hu, rfl⟩
    exact ⟨hr, i, hi, hc, by simp only [hb]; rw [if_pos hf, hu]; rfl⟩

/-- The state of a served IN completion before the signal or the further step (45_requests_completion.md R166). -/
def inCompleted (i : Slot) (s : State) : State :=
  (s.updReg i (fun r => { r with ctrTx := false })).updEp .IN i (·.sent (s.table i).countTx.toNat)

/-- What a served IN completion answers (45_requests_completion.md R166). -/
theorem completeInSingle_eq (i : Slot) (s : State) :
    completeInSingle i s =
      if ((s.ep .IN i).sent (s.table i).countTx.toNat).remainingLength = 0 then
        .next (((inCompleted i s).updEp .IN i (·.released)).emit (.inDone i.val))
      else schedule .IN i (inCompleted i s) := by
  have : ((inCompleted i s).ep .IN i) = (s.ep .IN i).sent (s.table i).countTx.toNat := by simp [inCompleted]
  rw [← this]
  rfl

/-- The state of a served OUT completion before the signal or the further step (45_requests_completion.md R168). -/
def outCompleted (i : Slot) (s : State) : State :=
  (afterRead (s.ep .OUT i).address (s.ep .OUT i).transferBuffer (s.table i).countRx.toNat
    (s.updReg i (fun r => { r with ctrRx := false }))).updEp .OUT i (·.advanced (s.table i).countRx.toNat)

/-- What a served OUT completion answers (45_requests_completion.md R168). -/
theorem completeOutSingle_eq_next {i : Slot} {s t : State} :
    completeOutSingle i s = .next t ↔
      admitted (s.ep .OUT i).address (s.table i).countRx.toNat = true ∧
      regionAdmits (s.ep .OUT i).region (s.ep .OUT i).transferBuffer (s.table i).countRx.toNat = true ∧
      (((s.ep .OUT i).remainingLength = 0 ∧
          t = ((outCompleted i s).updEp .OUT i (·.released)).emit
            (.outDone i.val ((s.ep .OUT i).advanced (s.table i).countRx.toNat).transferCount)) ∨
        ((s.ep .OUT i).remainingLength ≠ 0 ∧ schedule .OUT i (outCompleted i s) = .next t)) := by
  have he : (outCompleted i s).ep .OUT i = (s.ep .OUT i).advanced (s.table i).countRx.toNat := by
    unfold outCompleted
    rw [State.updEp_ep_self]
    rfl
  have hk : ∀ (_ : admitted (s.ep .OUT i).address (s.table i).countRx.toNat = true)
      (_ : regionAdmits (s.ep .OUT i).region (s.ep .OUT i).transferBuffer (s.table i).countRx.toNat = true),
      completeOutSingle i s =
        if ((outCompleted i s).ep .OUT i).remainingLength = 0 then
          .next (((outCompleted i s).updEp .OUT i (·.released)).emit
            (.outDone i.val ((outCompleted i s).ep .OUT i).transferCount))
        else schedule .OUT i (outCompleted i s) := by
    intro ha hr
    unfold completeOutSingle
    simp only
    rw [pmaRead_of ha hr]
    rfl
  rw [he] at hk
  constructor
  · intro h
    have hadm : admitted (s.ep .OUT i).address (s.table i).countRx.toNat = true ∧
        regionAdmits (s.ep .OUT i).region (s.ep .OUT i).transferBuffer (s.table i).countRx.toNat = true := by
      unfold completeOutSingle at h
      obtain ⟨u, hu, _⟩ := andThen_eq_next.mp h
      exact ⟨(pmaRead_eq_next.mp hu).1, (pmaRead_eq_next.mp hu).2.1⟩
    refine ⟨hadm.1, hadm.2, ?_⟩
    rw [hk hadm.1 hadm.2] at h
    split at h
    · exact .inl ⟨‹_›, (Host.Outcome.next.inj h).symm⟩
    · exact .inr ⟨‹_›, h⟩
  · rintro ⟨ha, hr, ⟨h0, rfl⟩ | ⟨h0, h⟩⟩
    · rw [hk ha hr]
      exact if_pos h0
    · rw [hk ha hr]
      rw [← h]
      exact if_neg h0

/-! ### The wire -/

theorem withWire_eq_next {s t : State} {n : Nat} {k : Slot → Result} :
    withWire s n k = .next t ↔ ∃ i : Slot, i.val = n ∧ s.pullup = true ∧ k i = .next t := by
  unfold withWire
  split
  · rename_i h
    split
    · rename_i hc
      exact ⟨fun e => ⟨⟨n, h⟩, rfl, hc, e⟩, by rintro ⟨i, rfl, _, e⟩; exact e⟩
    · rename_i hc
      exact ⟨fun e => absurd e (by simp), by rintro ⟨i, _, hi, _⟩; exact absurd hi hc⟩
  · rename_i h
    exact ⟨fun e => absurd e (by simp), by rintro ⟨i, rfl, _, _⟩; exact absurd i.isLt h⟩

/-- All an enabled IN wire step can do: send the armed packet (45_requests_completion.md R172). -/
theorem serveIn_eq_next {i : Slot} {s t : State} (h : serveIn none i s = .next t) :
    (s.reg i).wireSingle = true ∧
      t = (sendPacket i s).emit (.txPacket i.val (txData (s.table i) s) (s.reg i).dtogTx) := by
  unfold serveIn wireInSingle at h
  simp only at h
  split at h
  · split at h
    · exact ⟨‹_›, (Host.Outcome.next.inj h).symm⟩
    · simp at h
  · simp at h

/-- All `wire_in` can do: answer on the wire, or send the armed packet (45_requests_completion.md R172, R173). -/
theorem wireIn_eq_next {n : Nat} {s t : State} (h : wireIn n s = .next t) :
    ∃ i : Slot, i.val = n ∧ s.pullup = true ∧
      ((∃ a, handshakeOf (s.reg i).statTx = some a ∧ t = s.emit (.handshake i.val .IN a)) ∨
        ((s.reg i).statTx = .valid ∧ (s.reg i).wireSingle = true ∧
          t = (sendPacket i s).emit (.txPacket i.val (txData (s.table i) s) (s.reg i).dtogTx))) := by
  unfold wireIn wireInWith wireDb at h
  obtain ⟨i, hi, hp, h⟩ := withWire_eq_next.mp h
  refine ⟨i, hi, hp, ?_⟩
  split at h
  · exact .inl ⟨_, ‹_›, (Host.Outcome.next.inj h).symm⟩
  · refine .inr ⟨?_, serveIn_eq_next h⟩
    cases hs : (s.reg i).statTx <;> simp_all [handshakeOf]

/-- All a late `wire_in` can do: send the packet of the step that was not withdrawn (70_reset_and_hazards.md R217). -/
theorem lateWireIn_eq_next {n : Nat} {s t : State} (h : lateWireIn n s = .next t) :
    ∃ i : Slot, i.val = n ∧ s.pullup = true ∧ (s.late i).tx = true ∧ (s.reg i).statTx ≠ .valid ∧
      (s.reg i).wireSingle = true ∧
      t = (sendPacket i s).emit (.txPacket i.val (txData (s.table i) s) (s.reg i).dtogTx) := by
  unfold lateWireIn lateWireInWith wireDb at h
  obtain ⟨i, hi, hp, h⟩ := withWire_eq_next.mp h
  split at h
  · rename_i hl
    exact ⟨i, hi, hp, hl.1, hl.2, serveIn_eq_next h⟩
  · simp at h

/-- All an enabled OUT wire step can do: answer a data packet in the status stage, or store the packet
(45_requests_completion.md R174, R175). -/
theorem serveOut_eq_next {i : Slot} {bytes : List Byte} {s t : State} (h : serveOut none i bytes s = .next t) :
    (∃ a, t = s.emit (.handshake i.val .OUT a)) ∨
      ((s.reg i).wireSingle = true ∧ bytes.length ≤ (s.ep .OUT i).maxPacketSize.toNat ∧
        bytes.length < Config.countLimit ∧ wireFits (s.table i).addrRx bytes.length = true ∧ t = storePacket i bytes s) := by
  unfold serveOut wireOutSingle at h
  split at h
  · split at h
    · exact .inl ⟨_, (Host.Outcome.next.inj h).symm⟩
    · split at h
      · simp at h
      · split at h
        · simp at h
        · split at h
          · exact .inr ⟨‹_›, by omega, by omega, ‹_›, (Host.Outcome.next.inj h).symm⟩
          · simp at h
  · simp at h

/-- All `wire_out` can do: answer on the wire, or store the packet (45_requests_completion.md R173 to R175). -/
theorem wireOut_eq_next {n : Nat} {bytes : List Byte} {s t : State} (h : wireOut n bytes s = .next t) :
    ∃ i : Slot, i.val = n ∧ s.pullup = true ∧
      ((∃ a, t = s.emit (.handshake i.val .OUT a)) ∨
        ((s.reg i).statRx = .valid ∧ (s.reg i).wireSingle = true ∧
          bytes.length ≤ (s.ep .OUT i).maxPacketSize.toNat ∧ bytes.length < Config.countLimit ∧
          wireFits (s.table i).addrRx bytes.length = true ∧ t = storePacket i bytes s)) := by
  unfold wireOut wireOutWith wireDb at h
  obtain ⟨i, hi, hp, h⟩ := withWire_eq_next.mp h
  refine ⟨i, hi, hp, ?_⟩
  split at h
  · exact .inl ⟨_, (Host.Outcome.next.inj h).symm⟩
  · have hv : (s.reg i).statRx = .valid := by
      cases hs : (s.reg i).statRx <;> simp_all [handshakeOf]
    exact (serveOut_eq_next h).imp id fun h => ⟨hv, h⟩

/-- All a late `wire_out` can do: answer a data packet in the status stage, or store the packet
(70_reset_and_hazards.md R217). -/
theorem lateWireOut_eq_next {n : Nat} {bytes : List Byte} {s t : State} (h : lateWireOut n bytes s = .next t) :
    ∃ i : Slot, i.val = n ∧ s.pullup = true ∧ (s.late i).takesOut bytes = true ∧ (s.reg i).statRx ≠ .valid ∧
      ((∃ a, t = s.emit (.handshake i.val .OUT a)) ∨
        ((s.reg i).wireSingle = true ∧ bytes.length ≤ (s.ep .OUT i).maxPacketSize.toNat ∧
          bytes.length < Config.countLimit ∧ wireFits (s.table i).addrRx bytes.length = true ∧
          t = storePacket i bytes s)) := by
  unfold lateWireOut lateWireOutWith wireDb at h
  obtain ⟨i, hi, hp, h⟩ := withWire_eq_next.mp h
  split at h
  · rename_i hl
    exact ⟨i, hi, hp, hl.1, hl.2, serveOut_eq_next h⟩
  · simp at h

/-! ### The step -/

/-- All a step can do: wait, or take the first input. -/
theorem step_eq_next {s t : State} :
    step s = .next t ↔
      (s.inputs = [] ∧ t = s) ∨ ∃ x rest, s.inputs = x :: rest ∧ runInput x (s.take rest) = .next t := by
  unfold step fetch
  cases h : s.inputs with
  | nil => simp [@eq_comm _ _ t]
  | cons x rest => simp

theorem runCommand_eq_next {w : CommandWord} {s t : State} :
    runCommand w s = .next t ↔
      (∃ i, decode w = .ok i ∧ exec i s = .next t) ∨
        (∃ e, decode w = .error e ∧ t = s.respond .illegalCommand) := by
  unfold runCommand
  cases decode w with
  | ok i => simp
  | error e => simp [illegalCommand, raise, @eq_comm _ _ t]

end Sys2Proof.Machine
end

