-- ==== Sys2Proof/Laws/Encoding.lean ====
section
/-! SUPPORT. The fields of a packed word, and the operand forms read back from what the encoder writes. -/

namespace Sys2Proof

/-- The low part of two joined words. -/
theorem extract_low {n m : Nat} (x : BitVec n) (y : BitVec m) : (x ++ y).extractLsb' 0 m = y := by
  apply BitVec.eq_of_getLsbD_eq
  intro i hi
  simp [BitVec.getLsbD_append, hi]

/-- A field above the low part lies in the high part. -/
theorem extract_above {n m : Nat} (x : BitVec n) (y : BitVec m) (k l : Nat) :
    (x ++ y).extractLsb' (m + k) l = x.extractLsb' k l := by
  apply BitVec.eq_of_getLsbD_eq
  intro i hi
  have h1 : ¬ m + k + i < m := by omega
  have h2 : m + k + i - m = k + i := by omega
  simp only [BitVec.getLsbD_extractLsb', BitVec.getLsbD_append, h1, h2, if_false]

theorem extract_all {n : Nat} (x : BitVec n) : x.extractLsb' 0 n = x := by
  apply BitVec.eq_of_getLsbD_eq
  intro i hi
  simp [hi]

/-- Two joined halves are the whole. -/
theorem extract_append {n m : Nat} (w : BitVec (n + m)) : w.extractLsb' m n ++ w.extractLsb' 0 m = w := by
  apply BitVec.eq_of_getLsbD_eq
  intro i hi
  simp only [BitVec.getLsbD_append, BitVec.getLsbD_extractLsb']
  by_cases h : i < m
  · simp [h]
  · have h1 : i - m < n := by omega
    have h2 : m + (i - m) = i := by omega
    simp [h, h1, h2]

@[simp] theorem cField_pack (op a : BitVec 8) (b c : BitVec 32) : cField (pack op a b c) = c :=
  extract_low (op ++ a ++ b) c

@[simp] theorem bField_pack (op a : BitVec 8) (b c : BitVec 32) : bField (pack op a b c) = b :=
  (extract_above (op ++ a ++ b) c 0 32).trans (extract_low (op ++ a) b)

@[simp] theorem aField_pack (op a : BitVec 8) (b c : BitVec 32) : aField (pack op a b c) = a :=
  (extract_above (op ++ a ++ b) c 32 8).trans ((extract_above (op ++ a) b 0 8).trans (extract_low op a))

@[simp] theorem opField_pack (op a : BitVec 8) (b c : BitVec 32) : opField (pack op a b c) = op :=
  (extract_above (op ++ a ++ b) c 40 8).trans
    ((extract_above (op ++ a) b 8 8).trans ((extract_above op a 0 8).trans (extract_all op)))

/-- A word is its four fields packed. -/
theorem pack_fields (w : CommandWord) : pack (opField w) (aField w) (bField w) (cField w) = w := by
  apply BitVec.eq_of_getLsbD_eq
  intro i hi
  refine (BitVec.getLsbD_append (x := opField w ++ aField w ++ bField w) (y := cField w) (i := i)).trans ?_
  simp only [opField, aField, bField, cField, BitVec.getLsbD_append, BitVec.getLsbD_extractLsb']
  by_cases h1 : i < 32
  · simp [h1]
  · by_cases h2 : i - 32 < 32
    · have e : 32 + (i - 32) = i := by omega
      simp [h1, h2, e]
    · by_cases h3 : i - 32 - 32 < 8
      · have e : 64 + (i - 32 - 32) = i := by omega
        simp [h1, h2, h3, e]
      · have h4 : i - 32 - 32 - 8 < 8 := by omega
        have e : 72 + (i - 32 - 32 - 8) = i := by omega
        simp [h1, h2, h3, h4, e]

@[simp] theorem lowHalf_append (x y : BitVec 16) : lowHalf (x ++ y) = y := extract_low x y

@[simp] theorem highHalf_append (x y : BitVec 16) : highHalf (x ++ y) = x :=
  (extract_above x y 0 16).trans (extract_all x)

theorem halves_append (c : BitVec 32) : highHalf c ++ lowHalf c = c := extract_append (n := 16) (m := 16) c

@[simp] theorem epAddrOf_encodeEpAddr (ea : EpAddr) (h : ea.num < 128) : epAddrOf (encodeEpAddr ea) = ea := by
  obtain ⟨d, n⟩ := ea
  have hn : (BitVec.ofNat 7 n).toNat = n := by
    simp only [BitVec.toNat_ofNat]
    exact Nat.mod_eq_of_lt h
  have hx : numberOf (encodeEpAddr ⟨d, n⟩) = n := by
    unfold numberOf encodeEpAddr
    exact (congrArg BitVec.toNat (extract_low (BitVec.ofBool (decide (d = .IN))) (BitVec.ofNat 7 n))).trans hn
  have hd : (encodeEpAddr ⟨d, n⟩).getLsbD 7 = decide (d = .IN) := by
    unfold encodeEpAddr
    refine (BitVec.getLsbD_append (x := BitVec.ofBool (decide (d = .IN))) (y := BitVec.ofNat 7 n) (i := 7)).trans ?_
    simp
  unfold epAddrOf
  rw [hx, hd]
  cases d <;> rfl

@[simp] theorem numberOf_encodeNumber (n : Nat) (h : n < 128) : numberOf (encodeNumber n) = n :=
  congrArg EpAddr.num (epAddrOf_encodeEpAddr ⟨.OUT, n⟩ h)

theorem numberOf_lt (a : BitVec 8) : numberOf a < 128 := (a.extractLsb' 0 7).isLt

theorem encodeEpAddr_epAddrOf (a : BitVec 8) : encodeEpAddr (epAddrOf a) = a := by
  revert a
  decide

end Sys2Proof
end

