-- ==== Sys2Proof/Laws/Invariant.lean ====
section
/-! SUPPORT. Every memory operation keeps the canonical form of both memories and stays inside their spaces, and how the
invariant passes through every update of the state: one lemma per update. -/

namespace Sys2Proof.Machine

/-! ### The two memories -/

/-- A memory in canonical form whose addresses lie below a bound. -/
structure MemoryBelow (m : Memory) (bound : Nat) : Prop where
  wf : Memory.wf m
  inside : ∀ c ∈ m, c.1 < bound

theorem MemoryBelow.storeBytes {m : Memory} {bound : Nat} (h : MemoryBelow m bound) (x : Nat) (vs : List Byte)
    (hx : vs = [] ∨ x + vs.length ≤ bound) : MemoryBelow (storeBytes m x vs) bound where
  wf := storeBytes_wf vs m x h.wf
  inside := by
    intro c hc
    rcases mem_storeBytes vs m x c hc with hc | hc
    · exact h.inside c hc
    · rcases hx with hx | hx
      · subst hx
        simp only [List.length_nil] at hc
        omega
      · omega

/-- `write` keeps packet memory canonical and inside its words (20_memory.md R51, R53). -/
theorem afterWrite_memory {p : OddWritePolicy} {r : Option Region} {buf : HostAddr} {a : PmAddr} {n : Nat} {s : State}
    (ha : admitted a n = true) (h : MemoryBelow s.pm (2 * Config.pmWords)) :
    MemoryBelow (afterWrite p r buf a n s).pm (2 * Config.pmWords) := by
  refine h.storeBytes _ _ (.inr ?_)
  rw [length_packetBytes, wordBase_of_admitted ha]
  exact (admitted_inside ha).2

theorem regionAdmits_inside {r : Option Region} {buf : HostAddr} {n : Nat} (h : regionAdmits r buf n = true) :
    n = 0 ∨ buf.toNat + n ≤ Config.hostSize := by
  unfold regionAdmits at h
  split at h
  · exact .inl (eq_of_beq h)
  · rw [Bool.or_eq_true, Bool.and_eq_true, Bool.and_eq_true, decide_eq_true_eq, decide_eq_true_eq,
      decide_eq_true_eq] at h
    rcases h with h | h
    · exact .inl (eq_of_beq h)
    · exact .inr h.2

/-- Every admitted byte lies in the region (20_memory.md R55). -/
theorem regionAdmits_holds {r : Option Region} {buf : HostAddr} {n : Nat} (h : regionAdmits r buf n = true) {x : Nat}
    (h1 : buf.toNat ≤ x) (h2 : x < buf.toNat + n) : ∃ g, r = some g ∧ g.holds x = true := by
  unfold regionAdmits at h
  split at h
  · have := eq_of_beq h
    omega
  · rename_i g
    rw [Bool.or_eq_true, Bool.and_eq_true, Bool.and_eq_true, decide_eq_true_eq, decide_eq_true_eq,
      decide_eq_true_eq] at h
    rcases h with h | ⟨⟨h3, h4⟩, h5⟩
    · have := eq_of_beq h
      omega
    · refine ⟨g, rfl, ?_⟩
      unfold Region.holds
      rw [Bool.and_eq_true, Bool.and_eq_true, decide_eq_true_eq, decide_eq_true_eq, decide_eq_true_eq]
      omega

/-- `read` keeps caller memory canonical and inside its addresses (20_memory.md R54, R55). -/
theorem afterRead_memory {r : Option Region} {buf : HostAddr} {a : PmAddr} {n : Nat} {s : State}
    (hr : regionAdmits r buf n = true) (h : MemoryBelow s.host Config.hostSize) :
    MemoryBelow (afterRead a buf n s).host Config.hostSize := by
  refine h.storeBytes _ _ ?_
  rcases regionAdmits_inside hr with h0 | h0
  · exact .inl (List.eq_nil_of_length_eq_zero (by rw [length_loadBytes]; exact h0))
  · exact .inr (by rw [length_loadBytes]; exact h0)

theorem length_rxBytes (bytes : List Byte) (s : State) : (rxBytes bytes s).length = 2 * ceilDiv2 bytes.length := by
  unfold rxBytes ceilDiv2
  split
  · simp only [List.length_append, List.length_cons, List.length_nil]
    omega
  · omega

/-- A received packet keeps packet memory canonical and inside its words (45_requests_completion.md R174). -/
theorem storePacket_memory {i : Slot} {bytes : List Byte} {s : State}
    (hf : wireFits (s.table i).addrRx bytes.length = true) (h : MemoryBelow s.pm (2 * Config.pmWords)) :
    MemoryBelow (storePacket i bytes s).pm (2 * Config.pmWords) := by
  refine h.storeBytes _ _ ?_
  unfold wireFits fitsPacketMemory at hf
  rw [Bool.or_eq_true, decide_eq_true_eq] at hf
  rcases hf with hf | hf
  · refine .inl (List.eq_nil_of_length_eq_zero ?_)
    rw [length_rxBytes, eq_of_beq hf]
    rfl
  · refine .inr ?_
    rw [length_rxBytes]
    unfold wordBase
    omega

/-- The memories right after power-on are in canonical form. -/
theorem reset_memories_wf : Memory.wf State.reset.pm ∧ Memory.wf State.reset.host :=
  ⟨List.Pairwise.nil, List.Pairwise.nil⟩

/-! ### The invariant through the updates -/

/-- The parts of the state the invariant speaks of. -/
theorem Inv.congr {s t : State} (h : Inv s) (hd : t.dev = s.dev) (hc : t.cntr.fres = s.cntr.fres)
    (hb : t.btable = s.btable) (hp : t.pm = s.pm) (hh : t.host = s.host) (he : ∀ d i, t.ep d i = s.ep d i) : Inv t where
  count := by rw [hd]; exact h.count
  notBusy := by rw [hd]; exact h.notBusy
  address := by rw [hd]; exact h.address
  fres := by rw [hc]; exact h.fres
  btable := by rw [hd, hb]; exact h.btable
  pmWf := by rw [hp]; exact h.pmWf
  pmInside := by rw [hp]; exact h.pmInside
  hostWf := by rw [hh]; exact h.hostWf
  hostInside := by rw [hh]; exact h.hostInside
  records := fun d i => by rw [hd, he]; exact h.records d i

theorem Inv.pm {s : State} (h : Inv s) : MemoryBelow s.pm (2 * Config.pmWords) := ⟨h.pmWf, h.pmInside⟩

theorem Inv.host {s : State} (h : Inv s) : MemoryBelow s.host Config.hostSize := ⟨h.hostWf, h.hostInside⟩

theorem Inv.updReg {s : State} (h : Inv s) (i : Slot) (f : EndpointRegister → EndpointRegister) : Inv (s.updReg i f) :=
  h.congr rfl rfl rfl rfl rfl fun _ _ => rfl

theorem Inv.updLate {s : State} (h : Inv s) (i : Slot) (f : LateWire → LateWire) : Inv (s.updLate i f) :=
  h.congr rfl rfl rfl rfl rfl fun _ _ => rfl

theorem Inv.updTable {s : State} (h : Inv s) (i : Slot) (f : BdtEntry → BdtEntry) : Inv (s.updTable i f) :=
  h.congr rfl rfl rfl rfl rfl fun _ _ => rfl

theorem Inv.setCount {s : State} (h : Inv s) (i : Slot) (k : Bool) (n : Nat) : Inv (s.setCount i k n) := h.updTable i _

theorem Inv.setStatTx {s : State} (h : Inv s) (i : Slot) (v : Status) : Inv (s.setStatTx i v) := h.updReg i _

theorem Inv.setStatRx {s : State} (h : Inv s) (i : Slot) (v : Status) : Inv (s.setStatRx i v) := h.updReg i _

theorem Inv.setKind {s : State} (h : Inv s) (i : Slot) (v : Bool) : Inv (s.setKind i v) := h.updReg i _

theorem Inv.releaseBuffer {s : State} (h : Inv s) (i : Slot) : Inv (releaseBuffer i s) := h.updReg i _

theorem Inv.respond {s : State} (h : Inv s) (r : Response) : Inv (s.respond r) :=
  h.congr rfl rfl rfl rfl rfl fun _ _ => rfl

theorem Inv.emit {s : State} (h : Inv s) (x : Signal) : Inv (s.emit x) := h.congr rfl rfl rfl rfl rfl fun _ _ => rfl

theorem Inv.take {s : State} (h : Inv s) (rest : List Input) : Inv (s.take rest) :=
  h.congr rfl rfl rfl rfl rfl fun _ _ => rfl

theorem Inv.updEp {s : State} (h : Inv s) (d : Direction) (i : Slot) (f : EndpointRecord → EndpointRecord)
    (hf : RecordInv s.dev.count.toNat d i (s.ep d i) → RecordInv s.dev.count.toNat d i (f (s.ep d i))) :
    Inv (s.updEp d i f) where
  count := h.count
  notBusy := h.notBusy
  address := h.address
  fres := h.fres
  btable := h.btable
  pmWf := h.pmWf
  pmInside := h.pmInside
  hostWf := h.hostWf
  hostInside := h.hostInside
  records := by
    intro d' j
    rw [State.updEp_ep]
    split
    · rename_i hj
      rw [hj.1, hj.2]
      exact hf (h.records d i)
    · exact h.records d' j

/-- The parts of a record the invariant speaks of. -/
theorem RecordInv.congr {c : Nat} {d : Direction} {i : Slot} {e f : EndpointRecord} (h : RecordInv c d i e)
    (h1 : f.address = e.address) (h2 : f.address0 = e.address0) (h3 : f.address1 = e.address1)
    (h4 : f.typeCode = e.typeCode) (h5 : f.number = e.number) (h6 : f.direction = e.direction)
    (h7 : f.maxPacketSize = e.maxPacketSize) (h8 : f.lifecycle = .configured → e.lifecycle = .configured) :
    RecordInv c d i f where
  address := by rw [h1]; exact h.address
  address0 := by rw [h2]; exact h.address0
  address1 := by rw [h3]; exact h.address1
  type := by unfold EndpointRecord.epType; rw [h4]; exact h.type
  number := fun hl => by rw [h5]; exact h.number (h8 hl)
  direction := fun hl => by rw [h6]; exact h.direction (h8 hl)
  packet := fun hl => by rw [h7]; exact h.packet (h8 hl)
  slot := fun hl => h.slot (h8 hl)

theorem Inv.afterWrite {s : State} (h : Inv s) {p : OddWritePolicy} {r : Option Region} {buf : HostAddr} {a : PmAddr}
    {n : Nat} (ha : admitted a n = true) : Inv (afterWrite p r buf a n s) where
  count := h.count
  notBusy := h.notBusy
  address := h.address
  fres := h.fres
  btable := h.btable
  pmWf := (afterWrite_memory ha h.pm).wf
  pmInside := (afterWrite_memory ha h.pm).inside
  hostWf := h.hostWf
  hostInside := h.hostInside
  records := h.records

theorem Inv.afterRead {s : State} (h : Inv s) {r : Option Region} {buf : HostAddr} {a : PmAddr} {n : Nat}
    (hr : regionAdmits r buf n = true) : Inv (afterRead a buf n s) where
  count := h.count
  notBusy := h.notBusy
  address := h.address
  fres := h.fres
  btable := h.btable
  pmWf := h.pmWf
  pmInside := h.pmInside
  hostWf := (afterRead_memory hr h.host).wf
  hostInside := (afterRead_memory hr h.host).inside
  records := h.records

theorem Inv.storePacket {s : State} (h : Inv s) {i : Slot} {bytes : List Byte}
    (hf : wireFits (s.table i).addrRx bytes.length = true) : Inv (storePacket i bytes s) where
  count := h.count
  notBusy := h.notBusy
  address := h.address
  fres := h.fres
  btable := h.btable
  pmWf := (storePacket_memory hf h.pm).wf
  pmInside := (storePacket_memory hf h.pm).inside
  hostWf := h.hostWf
  hostInside := h.hostInside
  records := h.records

/-- Every scheduling step keeps the invariant. -/
theorem Inv.schedule {s t : State} {d : Direction} {i : Slot} (h : Inv s) (hs : schedule d i s = .next t) : Inv t := by
  have r : ∀ (e : EndpointRecord) (tb : HostAddr) (rl rls : Len), RecordInv s.dev.count.toNat d i e →
      RecordInv s.dev.count.toNat d i
        { e with transferBuffer := tb, remainingLength := rl, remainingLengthSecondary := rls } :=
    fun e tb rl rls he => he.congr rfl rfl rfl rfl rfl rfl rfl id
  cases d with
  | IN =>
    rcases scheduleIn_cases hs with ⟨_, hs⟩ | ⟨_, _, _, hs⟩ | ⟨_, _, _, hs⟩ | ⟨_, _, hs⟩
    · obtain ⟨_, ha, _, rfl⟩ := inSingle_eq_next.mp hs
      exact ((h.afterWrite ha).setCount _ _ _).setStatTx _ _
    · obtain ⟨_, ha, _, hb, _, rfl⟩ := inDoubleFill_eq_next.mp hs
      have hf : Inv (afterFirstFill i s) := ((h.setKind _ _).setCount _ _ _).afterWrite ha
      exact (((hf.setCount _ _ _).afterWrite hb).updEp _ _ _ (by intro he; exact r _ _ _ _ he)).setStatTx _ _
    · obtain ⟨_, ha, _, rfl⟩ := inAutoSwitch_eq_next.mp hs
      exact ((((h.setKind _ _).setCount _ _ _).afterWrite ha).updEp _ _ _
        (by intro he; exact r _ _ _ _ he)).setStatTx _ _
    · obtain ⟨_, ha, _, rfl⟩ := inDoubleIso_eq_next.mp hs
      exact (((h.setCount _ _ _).afterWrite ha).updEp _ _ _ (by intro he; exact r _ _ _ _ he)).setStatTx _ _
  | OUT =>
    obtain rfl : scheduleOut i s = t := Host.Outcome.next.inj hs
    unfold scheduleOut
    simp only
    split
    · unfold outSingle
      simp only
      split
      · exact (h.setKind _ _).setStatRx _ _
      · exact ((h.setKind _ _).updEp _ _ _ (by intro he; exact r _ _ _ _ he)).setStatRx _ _
    · split
      · unfold outDoubleBulk
        simp only
        split
        · exact (h.releaseBuffer _).setStatRx _ _
        · exact h.setStatRx _ _
      · exact (h.updEp _ _ _ (by intro he; exact r _ _ _ _ he)).setStatRx _ _
      · exact h
      · exact h
      · exact h

end Sys2Proof.Machine
end

