-- ==== Sys2Proof/Laws/PerInstr.lean ====
section
/-! SUPPORT. One family, `EncodedOpcode`, with one lemma per constructor: the word of an instruction selects the row of the
operation map that carries its mnemonic (30_encoding.md R80). -/

namespace Sys2Proof

/-- Two packed words meet field by field. -/
theorem pack_and (o a : BitVec 8) (b c : BitVec 32) (o' a' : BitVec 8) (b' c' : BitVec 32) :
    pack o a b c &&& pack o' a' b' c' = pack (o &&& o') (a &&& a') (b &&& b') (c &&& c') := by
  unfold pack
  have h1 := BitVec.and_append (x₁ := o ++ a ++ b) (y₁ := c) (x₂ := o' ++ a' ++ b') (y₂ := c')
  have h2 := BitVec.and_append (x₁ := o ++ a) (y₁ := b) (x₂ := o' ++ a') (y₂ := b')
  have h3 := BitVec.and_append (x₁ := o) (y₁ := a) (x₂ := o') (y₂ := a')
  rw [h2, h3] at h1
  exact h1

/-- A row given by the fields of its `match` / `mask` pair. -/
def rowOf (mnemonic : String) (op ma : BitVec 8) (mb mc : BitVec 32) : OpcodeRow :=
  ⟨mnemonic, pack op 0 0 0, pack 0xFF ma mb mc⟩

/-- When a word selects a row, field by field (30_encoding.md R80). -/
theorem rowOf_selects (m : String) (op ma : BitVec 8) (mb mc : BitVec 32) (w : CommandWord) :
    (rowOf m op ma mb mc).selects w = true ↔
      opField w = op ∧ aField w &&& ma = 0 ∧ bField w &&& mb = 0 ∧ cField w &&& mc = 0 := by
  unfold OpcodeRow.selects rowOf
  rw [beq_iff_eq]
  conv => lhs; lhs; lhs; rw [← pack_fields w]
  rw [pack_and, show opField w &&& 0xFF = opField w from BitVec.and_allOnes]
  constructor
  · intro h
    exact ⟨by simpa using congrArg opField h, by simpa using congrArg aField h, by simpa using congrArg bField h,
      by simpa using congrArg cField h⟩
  · rintro ⟨rfl, h2, h3, h4⟩
    rw [h2, h3, h4]

/-- The masks of the two must-be-zero forms an operand field may have: all of it, or none of it. -/
theorem and_none_32 (x : BitVec 32) : x &&& 0 = 0 := BitVec.and_zero

theorem and_none_8 (x : BitVec 8) : x &&& 0 = 0 := BitVec.and_zero

/-- The high 24 bits of an 8-bit value joined below zeros are zero (row ACTIVATE). -/
theorem typeCode_mask (c : BitVec 8) : ((0 : BitVec 24) ++ c : BitVec 32) &&& 0xFFFFFF00 = 0 := by
  revert c
  decide

/-- The word selects the row, and the row is the instruction's. -/
theorem selects_of {m : String} {op ma : BitVec 8} {mb mc : BitVec 32} {a : BitVec 8} {b c : BitVec 32}
    (ha : a &&& ma = 0) (hb : b &&& mb = 0) (hc : c &&& mc = 0) :
    (rowOf m op ma mb mc).selects (pack op a b c) = true :=
  (rowOf_selects m op ma mb mc _).mpr ⟨by simp, by simpa using ha, by simpa using hb, by simpa using hc⟩

namespace Laws.EncodedOpcode

/-- The encoded word selects a row of the map with the instruction's mnemonic. -/
def Statement (i : Instr) : Prop := ∃ r ∈ opcodeRows, r.mnemonic = mnemonicOf i ∧ r.selects (encode i) = true

theorem configure (ea : EpAddr) (target : MemTarget) : Statement (.configure ea target) := by
  refine ⟨rowOf "CONFIGURE" 0x01 0 0xFFFFFFFE 0, by decide, rfl, ?_⟩
  cases target with
  | single a => exact selects_of (and_none_8 _) (by decide) (and_none_32 _)
  | double a b => exact selects_of (and_none_8 _) (by decide) (and_none_32 _)

theorem write (buffer : HostAddr) (address : PmAddr) (n : BitVec 16) : Statement (.write buffer address n) :=
  ⟨rowOf "WRITE" 0x02 0xFF 0 0, by decide, rfl, selects_of (by decide) (and_none_32 _) (and_none_32 _)⟩

theorem read (address : PmAddr) (buffer : HostAddr) (n : BitVec 16) : Statement (.read address buffer n) :=
  ⟨rowOf "READ" 0x03 0xFF 0 0, by decide, rfl, selects_of (by decide) (and_none_32 _) (and_none_32 _)⟩

theorem activate (ea : EpAddr) (code : BitVec 8) (mps : Len) : Statement (.activate ea code mps) :=
  ⟨rowOf "ACTIVATE" 0x04 0 0xFFFFFF00 0, by decide, rfl,
    selects_of (and_none_8 _) (typeCode_mask code) (and_none_32 _)⟩

theorem deactivate (ea : EpAddr) : Statement (.deactivate ea) :=
  ⟨rowOf "DEACTIVATE" 0x05 0 0xFFFFFFFF 0xFFFFFFFF, by decide, rfl, selects_of (and_none_8 _) (by decide) (by decide)⟩

theorem stall (ea : EpAddr) : Statement (.stall ea) :=
  ⟨rowOf "STALL" 0x06 0 0xFFFFFFFF 0xFFFFFFFF, by decide, rfl, selects_of (and_none_8 _) (by decide) (by decide)⟩

theorem startTransfer (ea : EpAddr) : Statement (.startTransfer ea) :=
  ⟨rowOf "START_TRANSFER" 0x07 0 0xFFFFFFFF 0xFFFFFFFF, by decide, rfl,
    selects_of (and_none_8 _) (by decide) (by decide)⟩

theorem init (count : BitVec 8) (hp ip : Bool) : Statement (.init count hp ip) := by
  refine ⟨rowOf "INIT" 0x08 0 0xFFFFFFFC 0xFFFFFFFF, by decide, rfl, ?_⟩
  cases hp <;> cases ip <;> exact selects_of (and_none_8 _) (by decide) (by decide)

theorem enableInterrupts : Statement .enableInterrupts :=
  ⟨rowOf "ENABLE_INTERRUPTS" 0x09 0xFF 0xFFFFFFFF 0xFFFFFFFF, by decide, rfl, by decide⟩

theorem disableInterrupts : Statement .disableInterrupts :=
  ⟨rowOf "DISABLE_INTERRUPTS" 0x0A 0xFF 0xFFFFFFFF 0xFFFFFFFF, by decide, rfl, by decide⟩

theorem start : Statement .start :=
  ⟨rowOf "START" 0x0B 0xFF 0xFFFFFFFF 0xFFFFFFFF, by decide, rfl, by decide⟩

theorem activateRemoteWakeup : Statement .activateRemoteWakeup :=
  ⟨rowOf "ACTIVATE_REMOTE_WAKEUP" 0x0C 0xFF 0xFFFFFFFF 0xFFFFFFFF, by decide, rfl, by decide⟩

theorem deactivateRemoteWakeup : Statement .deactivateRemoteWakeup :=
  ⟨rowOf "DEACTIVATE_REMOTE_WAKEUP" 0x0D 0xFF 0xFFFFFFFF 0xFFFFFFFF, by decide, rfl, by decide⟩

theorem send (n : Nat) (buffer : HostAddr) (length : Len) : Statement (.send n buffer length) :=
  ⟨rowOf "SEND" 0x0E 0 0 0, by decide, rfl, selects_of (and_none_8 _) (and_none_32 _) (and_none_32 _)⟩

theorem receive (n : Nat) (buffer : HostAddr) (length : Len) : Statement (.receive n buffer length) :=
  ⟨rowOf "RECEIVE" 0x0F 0 0 0, by decide, rfl, selects_of (and_none_8 _) (and_none_32 _) (and_none_32 _)⟩

theorem completeIn (n : Nat) : Statement (.completeIn n) :=
  ⟨rowOf "COMPLETE_IN" 0x10 0 0xFFFFFFFF 0xFFFFFFFF, by decide, rfl, selects_of (and_none_8 _) (by decide) (by decide)⟩

theorem completeOut (n : Nat) : Statement (.completeOut n) :=
  ⟨rowOf "COMPLETE_OUT" 0x11 0 0xFFFFFFFF 0xFFFFFFFF, by decide, rfl, selects_of (and_none_8 _) (by decide) (by decide)⟩

end Laws.EncodedOpcode

end Sys2Proof
end

