-- ==== Sys2Proof/Tests/Slice0.lean ====
section
/-! SUPPORT. Small tests with results taken from spec/95_test_vectors.md (its ids B<n>.<m>), and for every obligation with
hypotheses a state and operands that meet them. -/

namespace Sys2Proof.Tests

open Sys2Proof.Machine

/-! ### Well-formedness: one ill-formed term for each check -/

theorem test_wf_configure : ¬ WellFormed (.configure ⟨.IN, 128⟩ (.single 64)) ∧
    ¬ WellFormed (.configure ⟨.OUT, 128⟩ (.double 64 128)) := by decide
theorem test_wf_activate : ¬ WellFormed (.activate ⟨.IN, 128⟩ 2 64) := by decide
theorem test_wf_deactivate : ¬ WellFormed (.deactivate ⟨.IN, 128⟩) := by decide
theorem test_wf_stall : ¬ WellFormed (.stall ⟨.OUT, 128⟩) := by decide
theorem test_wf_startTransfer : ¬ WellFormed (.startTransfer ⟨.OUT, 128⟩) := by decide
theorem test_wf_send : ¬ WellFormed (.send 128 0 0) := by decide
theorem test_wf_receive : ¬ WellFormed (.receive 128 0 0) := by decide
theorem test_wf_completeIn : ¬ WellFormed (.completeIn 128) := by decide
theorem test_wf_completeOut : ¬ WellFormed (.completeOut 128) := by decide

/-! ### Decoding: words written out from 30_encoding.md R76 and R80 (95_test_vectors.md B1) -/

theorem test_decode_configure :
    decode 0x01810000000012340040 = .ok (.configure ⟨.IN, 1⟩ (.single 64)) ∧
    decode 0x01820000000101400100 = .ok (.configure ⟨.IN, 2⟩ (.double 0x100 0x140)) ∧
    decode 0x010100000000000000C0 = .ok (.configure ⟨.OUT, 1⟩ (.single 0xC0)) ∧
    decode 0x01810000000200000040 = .error (.mustBeZeroBitSet 0x01) := by decide
theorem test_decode_write :
    decode 0x02002000000000040040 = .ok (.write 0x20000000 64 4) ∧
    decode 0x02012000000000040040 = .error (.mustBeZeroBitSet 0x02) := by decide
theorem test_decode_read : decode 0x03002000010000030040 = .ok (.read 64 0x20000100 3) := by decide
theorem test_decode_activate :
    decode 0x04810000000200000040 = .ok (.activate ⟨.IN, 1⟩ 2 64) ∧
    decode 0x04810000000400000040 = .ok (.activate ⟨.IN, 1⟩ 4 64) ∧
    decode 0x04810000010200000040 = .error (.mustBeZeroBitSet 0x04) := by decide
theorem test_decode_deactivate :
    decode 0x05810000000000000000 = .ok (.deactivate ⟨.IN, 1⟩) ∧
    decode 0x05810000000000000001 = .error (.mustBeZeroBitSet 0x05) := by decide
theorem test_decode_stall :
    decode 0x06810000000000000000 = .ok (.stall ⟨.IN, 1⟩) ∧
    decode 0x067F0000000000000000 = .ok (.stall ⟨.OUT, 127⟩) := by decide
theorem test_decode_startTransfer : decode 0x07810000000000000000 = .ok (.startTransfer ⟨.IN, 1⟩) := by decide
theorem test_decode_init :
    decode 0x08080000000300000000 = .ok (.init 8 true true) ∧
    decode 0x08080000000100000000 = .ok (.init 8 true false) ∧
    decode 0x08080000000200000000 = .ok (.init 8 false true) ∧
    decode 0x08080000000700000000 = .error (.mustBeZeroBitSet 0x08) := by decide
theorem test_decode_enableInterrupts :
    decode 0x09000000000000000000 = .ok .enableInterrupts ∧
    decode 0x09010000000000000000 = .error (.mustBeZeroBitSet 0x09) := by decide
theorem test_decode_disableInterrupts : decode 0x0A000000000000000000 = .ok .disableInterrupts := by decide
theorem test_decode_start : decode 0x0B000000000000000000 = .ok .start := by decide
theorem test_decode_remoteWakeup :
    decode 0x0C000000000000000000 = .ok .activateRemoteWakeup ∧
    decode 0x0D000000000000000000 = .ok .deactivateRemoteWakeup := by decide
theorem test_decode_send :
    decode 0x0E0120000000000000C8 = .ok (.send 1 0x20000000 200) ∧
    decode 0x0E8120000000000000C8 = .ok (.send 1 0x20000000 200) := by decide
theorem test_decode_receive : decode 0x0F002000020000000000 = .ok (.receive 0 0x20000200 0) := by decide
theorem test_decode_completions :
    decode 0x10010000000000000000 = .ok (.completeIn 1) ∧
    decode 0x11000000000000000000 = .ok (.completeOut 0) := by decide
theorem test_decode_reserved :
    decode 0x00000000000000000000 = .error (.reservedOpcode 0x00) ∧
    decode 0x12000000000000000000 = .error (.reservedOpcode 0x12) ∧
    decode 0xFF000000000000000000 = .error (.reservedOpcode 0xFF) := by decide
theorem test_decodeTableWord :
    decodeTableWord 80 0x0B000000000000000000 = some .start ∧ decodeTableWord 80 0 = none := by decide

/-! ### The states the tests start from -/

/-- A next state that passes a check. -/
def nextHas (r : Result) (p : State → Bool) : Bool :=
  match r with
  | .next t => p t
  | .fault _ => false
  | .refused _ => false

/-- A refusal for a given reason. -/
def refusedFor (r : Result) (e : Refusal) : Bool :=
  match r with
  | .next _ => false
  | .fault _ => false
  | .refused e' => decide (e' = e)

theorem exists_next {r : Result} {p : State → Bool} (h : nextHas r p = true) : ∃ t, r = .next t ∧ p t = true := by
  cases r with
  | next t => exact ⟨t, rfl, h⟩
  | fault e => exact absurd h (by simp [nextHas])
  | refused e => exact absurd h (by simp [nextHas])

/-- `init 4` done, the pull-up asserted, the table zero; six caller bytes `11 .. 66` at `0x20000000` (B2). -/
def ready : State :=
  { State.reset with
    dev := { state := .ready, address := 0, count := 4 }
    bdt := Vector.replicate Config.N ⟨0, 0, 0, 0⟩
    pullup := true
    host := [(0x20000000, 0x11), (0x20000001, 0x22), (0x20000002, 0x33), (0x20000003, 0x44), (0x20000004, 0x55),
      (0x20000005, 0x66), (0x20000006, 0x77), (0x20000007, 0x88)] }

/-- The state `ready` with one record and one register in place. -/
def having (d : Direction) (i : Slot) (e : EndpointRecord) (r : EndpointRegister) : State :=
  (ready.updEp d i (fun _ => e)).updReg i (fun _ => r)

/-- A single-buffered record with its buffer at offset 64 and a region of 64 bytes. -/
def single (d : Direction) (code : BitVec 8) (mps remaining : Len) : EndpointRecord :=
  { EndpointRecord.zero with
    number := 1, direction := d, typeCode := code, maxPacketSize := mps, address := 64,
    transferBuffer := 0x20000000, remainingLength := remaining, remainingLengthSecondary := remaining,
    lifecycle := .configured, region := some ⟨0x20000000, 64⟩ }

/-- A double-buffered record with its buffers at `0x100` and `0x140`. -/
def double (d : Direction) (code : BitVec 8) (mps remaining : Len) : EndpointRecord :=
  { single d code mps remaining with buffering := .double, address0 := 0x100, address1 := 0x140 }

/-- A register with its type and, for the rest, what a test needs. -/
def reg (ty : EpType) : EndpointRegister := { EndpointRegister.zero with epType := ty }

/-- Slot 3 with a record of a direction and both late wire steps possible. -/
def havingLate (d : Direction) (r : EndpointRegister) : State :=
  (having d 3 (single d 2 64 0) r).updLate 3 (fun _ => ⟨true, true, false⟩)

theorem names_having (d : Direction) (i : Slot) (e : EndpointRecord) (r : EndpointRegister) (h : i.val < 4) :
    Names (having d i e r) i.val i := ⟨rfl, rfl, h⟩

/-! ### One step each, results from 95_test_vectors.md -/

/-- B7.1, B7.3, B7.4: the mode and its addresses, the others kept. -/
theorem test_configure_sets :
    nextHas (exec (.configure ⟨.IN, 1⟩ (.single 0x180)) (having .IN 1 (double .IN 2 64 0) (reg .bulk))) (fun t =>
      decide ((t.ep .IN 1).buffering = .single ∧ (t.ep .IN 1).address = 0x180 ∧ (t.ep .IN 1).address0 = 0x100 ∧
        (t.ep .IN 1).address1 = 0x140)) = true := by decide
/-- B7.6, B7.7, B7.8. -/
theorem test_configure_refuses :
    refusedFor (exec (.configure ⟨.IN, 1⟩ (.single 65)) ready) .oddPacketAddress = true ∧
    refusedFor (exec (.configure ⟨.IN, 2⟩ (.double 0x100 0x141)) ready) .oddPacketAddress = true ∧
    refusedFor (exec (.configure ⟨.IN, 4⟩ (.single 64)) ready) .slotOutOfRange = true := by decide

/-- B2.4, B2.9: little-endian pairing, the last word, the caller bytes untouched. -/
theorem test_write_pairs :
    nextHas (exec (.write 0x20000000 64 3) ready) (fun t =>
      decide (pmWord t 32 = 0x2211 ∧ pmByte t 66 = 0x33 ∧ t.host = ready.host)) = true ∧
    nextHas (exec (.write 0x20000000 1022 2) ready) (fun t => decide (pmWord t 511 = 0x2211)) = true ∧
    nextHas (exec (.write 0x20000000 1024 0) ready) (fun t => decide (t.pm = [])) = true := by decide
/-- B2.6, B2.10. -/
theorem test_write_refuses :
    refusedFor (exec (.write 0x20000000 65 2) ready) .packetMemoryRange = true ∧
    refusedFor (exec (.write 0x20000000 1022 3) ready) .packetMemoryRange = true := by decide
/-- B2.8: the byte past an odd request is not written. -/
theorem test_read_odd :
    nextHas (exec (.read 64 0x20000000 3) { ready with pm := [(64, 0xA1), (65, 0xA2), (66, 0xA3), (67, 0xA4)] }) (fun t =>
      decide (hostByte t 0x20000000 = 0xA1 ∧ hostByte t 0x20000002 = 0xA3 ∧ hostByte t 0x20000003 = 0x44 ∧
        t.pm.length = 4)) = true := by decide

/-- B3.1, B3.3, B3.5: single-buffered activation, both directions, endpoint 0 and the isochronous OUT. -/
theorem test_activate_single :
    nextHas (exec (.activate ⟨.OUT, 0⟩ 0 64) (having .OUT 0 (single .OUT 0 64 0) { reg .bulk with dtogTx := true, dtogRx := true }))
      (fun t => decide (t.reg 0 = { reg .control with statRx := .valid, dtogTx := true } ∧
        (t.table 0).addrRx = 64 ∧ (t.table 0).addrTx = 0 ∧ (t.ep .OUT 0).lifecycle = .configured)) = true ∧
    nextHas (exec (.activate ⟨.IN, 1⟩ 2 64) (having .IN 1 (single .IN 2 64 0) { reg .bulk with dtogTx := true, dtogRx := true }))
      (fun t => decide (t.reg 1 = { reg .bulk with statTx := .nak, dtogRx := true } ∧ (t.table 1).addrTx = 64)) = true ∧
    nextHas (exec (.activate ⟨.OUT, 1⟩ 1 64) (having .OUT 1 (single .OUT 1 64 0) (reg .bulk)))
      (fun t => decide ((t.reg 1).statRx = .nak)) = true := by decide
/-- B3.6, B3.7, B3.8, B3.11, B3.18: double-buffered activation, and the two that fail. -/
theorem test_activate_double :
    nextHas (exec (.activate ⟨.IN, 2⟩ 2 64) (having .IN 2 (double .IN 2 64 0) { reg .bulk with dtogTx := true, dtogRx := true }))
      (fun t => decide (t.reg 2 = { reg .bulk with kind := true, statTx := .nak } ∧
        (t.table 2).addrTx = 0x100 ∧ (t.table 2).addrRx = 0x140)) = true ∧
    nextHas (exec (.activate ⟨.OUT, 2⟩ 2 64) (having .OUT 2 (double .OUT 2 64 0) (reg .bulk)))
      (fun t => decide (t.reg 2 = { reg .bulk with kind := true, statRx := .valid })) = true ∧
    nextHas (exec (.activate ⟨.IN, 2⟩ 1 64) (having .IN 2 (double .IN 2 64 0) (reg .bulk)))
      (fun t => decide (t.reg 2 = reg .isochronous)) = true ∧
    nextHas (exec (.activate ⟨.IN, 1⟩ 9 64) ready) (fun t => decide (t = ready.respond .invalidEndpointType)) = true ∧
    refusedFor (exec (.activate ⟨.IN, 1⟩ 2 0) ready) .zeroMaxPacket = true := by decide

/-- B3.9, B3.10: the record's own direction when single-buffered, both when double-buffered. -/
theorem test_deactivate :
    nextHas (exec (.deactivate ⟨.IN, 1⟩) (having .IN 1 (single .IN 2 64 0)
      { reg .bulk with statTx := .nak, statRx := .nak, dtogTx := true, dtogRx := true }))
      (fun t => decide (t.reg 1 = { reg .bulk with statRx := .nak, dtogRx := true } ∧
        (t.ep .IN 1).lifecycle = .disabled)) = true ∧
    nextHas (exec (.deactivate ⟨.IN, 2⟩) (having .IN 2 (double .IN 2 64 0)
      { reg .bulk with kind := true, statTx := .valid, statRx := .nak, dtogTx := true, dtogRx := true }))
      (fun t => decide (t.reg 2 = { reg .bulk with kind := true })) = true := by decide

/-- B3.12, B3.13, B3.14, B3.15: the addressed direction; at the count; the silent no-op. -/
theorem test_stall :
    nextHas (exec (.stall ⟨.IN, 3⟩) ready) (fun t =>
      decide ((t.ep .IN 3).stalled = true ∧ t.reg 3 = { reg .bulk with statTx := .stall })) = true ∧
    nextHas (exec (.stall ⟨.OUT, 4⟩) ready) (fun t =>
      decide ((t.ep .OUT 4).stalled = true ∧ t.reg 4 = { reg .bulk with statRx := .stall })) = true ∧
    nextHas (stallWith false ⟨.OUT, 4⟩ ready) (fun t => decide (t = ready.respond .ok)) = true ∧
    nextHas (exec (.stall ⟨.OUT, 127⟩) ready) (fun t => decide (t = ready.respond .ok)) = true := by decide
/-- B3.16: a slot that does not exist. -/
theorem test_stall_refuses :
    refusedFor (exec (.stall ⟨.OUT, 8⟩) { ready with dev := { ready.dev with count := 8 } }) .slotOutOfRange = true := by
  decide

/-- B4.1, B4.2 to B4.4 (at packet size 4), B4.8, B4.10 (at packet size 2), B4.14: the paths of the IN side. -/
theorem test_startTransfer_in :
    nextHas (exec (.startTransfer ⟨.IN, 1⟩) (having .IN 1 (single .IN 2 64 0) (reg .bulk)))
      (fun t => decide ((t.reg 1).statTx = .valid ∧ (t.table 1).countTx = 0 ∧ t.pm = [])) = true ∧
    nextHas (exec (.startTransfer ⟨.IN, 1⟩) (having .IN 1 (single .IN 2 4 5) (reg .bulk)))
      (fun t => decide (pmWord t 32 = 0x2211 ∧ pmWord t 33 = 0x4433 ∧ (t.table 1).countTx = 4 ∧
        (t.ep .IN 1).remainingLength = 5)) = true ∧
    nextHas (exec (.startTransfer ⟨.IN, 2⟩) (having .IN 2 (double .IN 2 2 3) { reg .bulk with dtogTx := true }))
      (fun t => decide (pmWord t 160 = 0x2211 ∧ pmByte t 0x100 = 0x33 ∧ (t.table 2).countRx = 2 ∧
        (t.table 2).countTx = 1 ∧ (t.reg 2).kind = true ∧ (t.ep .IN 2).remainingLengthSecondary = 0 ∧
        (t.ep .IN 2).transferBuffer = 0x20000002)) = true ∧
    nextHas (exec (.startTransfer ⟨.IN, 2⟩) (having .IN 2 (double .IN 2 4 4) { reg .bulk with kind := true, dtogTx := true }))
      (fun t => decide (pmWord t 128 = 0x2211 ∧ pmWord t 129 = 0x4433 ∧ (t.table 2).countTx = 4 ∧
        (t.reg 2).kind = false ∧ (t.ep .IN 2).transferBuffer = 0x20000000)) = true ∧
    nextHas (exec (.startTransfer ⟨.IN, 3⟩) (having .IN 3 { double .IN 1 4 4 with remainingLengthSecondary := 2 } (reg .isochronous)))
      (fun t => decide (pmWord t 128 = 0x2211 ∧ (t.table 3).countTx = 4 ∧
        (t.ep .IN 3).remainingLengthSecondary = 0)) = true ∧
    refusedFor (exec (.startTransfer ⟨.IN, 1⟩) (having .IN 1 (single .IN 2 1024 1024) (reg .bulk))) .countTooLarge = true ∧
    refusedFor (exec (.startTransfer ⟨.IN, 2⟩) (having .IN 2 (double .IN 3 4 4) (reg .interrupt))) .inDoubleOtherType = true := by
  decide
/-- B4.16, B4.17, B4.19, B4.20, B4.23, B4.24, B4.26, B4.27, B4.28: the paths of the OUT side. -/
theorem test_startTransfer_out :
    nextHas (exec (.startTransfer ⟨.OUT, 1⟩) (having .OUT 1 (single .OUT 0 64 0) (reg .control)))
      (fun t => decide (t.reg 1 = { reg .control with kind := true, statRx := .valid })) = true ∧
    nextHas (exec (.startTransfer ⟨.OUT, 1⟩) (having .OUT 1 (single .OUT 2 64 0) (reg .bulk)))
      (fun t => decide (t.reg 1 = { reg .bulk with statRx := .valid })) = true ∧
    nextHas (exec (.startTransfer ⟨.OUT, 1⟩) (having .OUT 1 (single .OUT 2 64 65) (reg .bulk)))
      (fun t => decide ((t.ep .OUT 1).remainingLength = 1)) = true ∧
    nextHas (exec (.startTransfer ⟨.OUT, 1⟩) (having .OUT 1 (single .OUT 2 64 64) (reg .bulk)))
      (fun t => decide ((t.ep .OUT 1).remainingLength = 0)) = true ∧
    nextHas (exec (.startTransfer ⟨.OUT, 2⟩) (having .OUT 2 { double .OUT 2 64 9 with transferCount := 64 }
      { reg .bulk with dtogTx := true, dtogRx := true }))
      (fun t => decide (t.reg 2 = { reg .bulk with dtogRx := true, statRx := .valid })) = true ∧
    nextHas (exec (.startTransfer ⟨.OUT, 2⟩) (having .OUT 2 (double .OUT 2 64 9) { reg .bulk with dtogTx := true, dtogRx := true }))
      (fun t => decide (t.reg 2 = { reg .bulk with dtogTx := true, dtogRx := true, statRx := .valid })) = true ∧
    nextHas (exec (.startTransfer ⟨.OUT, 2⟩) (having .OUT 2 (double .OUT 1 64 300) (reg .isochronous)))
      (fun t => decide ((t.ep .OUT 2).remainingLength = 0 ∧ (t.reg 2).statRx = .valid)) = true ∧
    nextHas (exec (.startTransfer ⟨.OUT, 2⟩) (having .OUT 2 (double .OUT 3 64 9) (reg .interrupt)))
      (fun t => decide ((t.reg 2).statRx = .disabled)) = true := by decide

/-- B5.1, B5.5: what `init` writes and keeps. -/
theorem test_init :
    nextHas (exec (.init 8 true true) (having .IN 2 { double .IN 2 64 5 with stalled := true }
      { reg .interrupt with kind := true, statTx := .stall, ctrTx := true }))
      (fun t => decide (t.dev = { state := .ready, address := 0, count := 8 } ∧
        t.ep .IN 2 = { EndpointRecord.zero with
          buffering := .double, address := 64, address0 := 0x100, address1 := 0x140, stalled := true } ∧
        t.reg 2 = reg .bulk ∧ t.btable = 0 ∧ t.pullup = true ∧ irq t = false)) = true := by decide
/-- B1.18, B5.2, B5.3. -/
theorem test_init_errors :
    nextHas (exec (.init 8 false false) State.reset) (fun t => decide (t.response = some .nullHandle)) = true ∧
    nextHas (exec (.init 8 true false) State.reset) (fun t =>
      decide (t.response = some .nullInstance ∧ t.dev.state = .reset)) = true ∧
    refusedFor (exec (.init 9 true true) State.reset) .countExceedsSlots = true := by decide

/-- B5.6, B5.11: the pending source raises `irq` once enabled. -/
theorem test_enableInterrupts :
    irq { ready with istr := { ready.istr with susp := true } } = false ∧
    nextHas (exec .enableInterrupts { ready with istr := { ready.istr with susp := true } })
      (fun t => irq t && !t.cntr.fres && !t.cntr.resume) = true := by decide
/-- B5.7. -/
theorem test_disableInterrupts :
    nextHas (exec .disableInterrupts { ready with cntr := { ControlRegister.zero.setEnables true with resume := true } })
      (fun t => decide (t.cntr = { ControlRegister.zero with resume := true })) = true := by decide
/-- B5.8, B5.4. -/
theorem test_start :
    nextHas (exec .start { ready with pullup := false })
      (fun t => decide (t.cntr = ControlRegister.zero.setEnables true) && t.pullup) = true ∧
    refusedFor (exec .start State.reset) .notReady = true := by decide
/-- B5.10. -/
theorem test_remoteWakeup :
    nextHas (exec .activateRemoteWakeup ready) (fun t => decide (t.cntr = { ready.cntr with resume := true })) = true ∧
    nextHas (exec .deactivateRemoteWakeup { ready with cntr := { ready.cntr with resume := true } })
      (fun t => decide (t.cntr = ready.cntr)) = true := by decide

/-- B2.13: a packet of seven bytes of ten; the over-read byte lies inside the caller region and is that byte. -/
theorem test_send_overread :
    nextHas (exec (.send 1 0x20000000 10) (having .IN 1 (single .IN 2 7 0) (reg .bulk)))
      (fun t => decide (pmWord t 32 = 0x2211 ∧ pmWord t 33 = 0x4433 ∧ pmWord t 34 = 0x6655 ∧ pmWord t 35 = 0x8877 ∧
        (t.table 1).countTx = 7 ∧ (t.reg 1).statTx = .valid ∧ (t.ep .IN 1).remainingLength = 10 ∧ t.draws = 0)) = true := by
  decide
/-- P6 step 5: the pre-decrement, 100 - 64. -/
theorem test_receive :
    nextHas (exec (.receive 1 0x20000300 100) (having .OUT 1 (single .OUT 2 64 0) (reg .bulk)))
      (fun t => decide ((t.ep .OUT 1).remainingLength = 36 ∧ (t.ep .OUT 1).transferBuffer = 0x20000300 ∧
        (t.reg 1).statRx = .valid ∧ (t.reg 1).kind = false)) = true := by decide

/-- B6.1, B6.4, B6.5: the last completion signals; a further one arms the next packet. -/
theorem test_completeIn :
    nextHas (exec (.completeIn 1) ((having .IN 1 (single .IN 2 4 6) { reg .bulk with ctrTx := true }).setCount 1 false 4))
      (fun t => decide (t.reg 1 = { reg .bulk with statTx := .valid } ∧ (t.ep .IN 1).remainingLength = 2 ∧
        (t.ep .IN 1).transferCount = 4 ∧ pmWord t 32 = 0x6655 ∧ (t.table 1).countTx = 2 ∧ t.signals = [])) = true ∧
    nextHas (exec (.completeIn 1) ((having .IN 1 (single .IN 2 4 4) { reg .bulk with ctrTx := true }).setCount 1 false 4))
      (fun t => decide (t.signals = [.inDone 1] ∧ (t.reg 1).ctrTx = false ∧ (t.ep .IN 1).remainingLength = 0)) = true := by
  decide
theorem test_completeIn_refuses :
    refusedFor (exec (.completeIn 1) (having .IN 1 (single .IN 2 4 4) (reg .bulk))) .noCompletionPending = true ∧
    refusedFor (exec (.completeIn 2) (having .IN 2 (double .IN 2 4 4) { reg .bulk with ctrTx := true })) .dbCompletionOpen =
      true := by decide
/-- P6 steps 7 and 9 with a packet of three bytes: the copy, then the next step or the signal. -/
theorem test_completeOut :
    nextHas (exec (.completeOut 1) ({ (having .OUT 1 (single .OUT 2 64 36) { reg .bulk with ctrRx := true }) with
        pm := [(64, 0xA1), (65, 0xA2), (66, 0xA3), (67, 0xA4)] }.setCount 1 true 3))
      (fun t => decide (hostByte t 0x20000002 = 0xA3 ∧ hostByte t 0x20000003 = 0x44 ∧
        (t.ep .OUT 1).remainingLength = 0 ∧ (t.reg 1).statRx = .valid ∧ t.signals = [])) = true ∧
    nextHas (exec (.completeOut 1) ((having .OUT 1 { single .OUT 2 64 0 with transferCount := 5 }
        { reg .bulk with ctrRx := true }).setCount 1 true 0))
      (fun t => decide (t.signals = [.outDone 1 5] ∧ (t.reg 1).ctrRx = false)) = true := by decide

/-- P1 step 6 at two bytes, and B6.9. -/
theorem test_wireIn :
    nextHas (wireIn 1 ({ (having .IN 1 (single .IN 2 64 0) { reg .bulk with statTx := .valid, dtogTx := true }) with
        pm := [(0, 0xA1), (1, 0xA2)] }.setCount 1 false 2))
      (fun t => decide (t.signals = [.txPacket 1 [0xA1, 0xA2] true] ∧
        t.reg 1 = { reg .bulk with statTx := .nak, ctrTx := true })) = true ∧
    refusedFor (wireIn 1 { (having .IN 1 (single .IN 2 64 0) { reg .bulk with statTx := .valid }) with pullup := false })
      .wireStepNotEnabled = true := by decide
/-- P6 step 6 at three bytes, and B6.6. -/
theorem test_wireOut :
    nextHas (wireOut 1 [0xA1, 0xA2, 0xA3] ((having .OUT 1 (single .OUT 2 64 0) { reg .bulk with statRx := .valid }).updTable 1
        (fun b => { b with addrRx := 0xC0 })))
      (fun t => decide (pmWord t 96 = 0xA2A1 ∧ pmByte t 0xC2 = 0xA3 ∧ (t.table 1).countRx = 3 ∧
        t.reg 1 = { reg .bulk with statRx := .nak, dtogRx := true, ctrRx := true })) = true ∧
    nextHas (wireOut 0 [1, 2, 3] (having .OUT 0 (single .OUT 0 64 0) { reg .control with kind := true, statRx := .valid }))
      (fun t => decide (t.reg 0 = { reg .control with kind := true, statRx := .valid } ∧
        t.signals = [.handshake 0 .OUT .stalled])) = true := by decide
/-- 70_reset_and_hazards.md R217 with 45_requests_completion.md R172, R174: a step enabled before `stall` or `deactivate`
is taken; one that was not enabled is not, and a new request meets the new status. -/
theorem test_lateWire :
    nextHas (andThen (exec (.stall ⟨.IN, 1⟩) (having .IN 1 (single .IN 2 64 0) { reg .bulk with statTx := .valid }))
      (lateWireIn 1)) (fun t => decide (t.reg 1 = { reg .bulk with statTx := .nak, dtogTx := true, ctrTx := true })) = true ∧
    nextHas (andThen (exec (.deactivate ⟨.OUT, 1⟩) (having .OUT 1 (single .OUT 2 64 0) { reg .bulk with statRx := .valid }))
      (lateWireOut 1 [7])) (fun t => decide ((t.table 1).countRx = 1 ∧ (t.reg 1).ctrRx = true)) = true ∧
    refusedFor (andThen (exec (.stall ⟨.IN, 1⟩) (having .IN 1 (single .IN 2 64 0) { reg .bulk with statTx := .nak }))
      (lateWireIn 1)) .wireStepNotEnabled = true ∧
    nextHas (andThen (exec (.stall ⟨.IN, 1⟩) (having .IN 1 (single .IN 2 64 0) { reg .bulk with statTx := .valid }))
      (wireIn 1)) (fun t => decide (t.signals = [.handshake 1 .IN .stalled])) = true := by decide
/-- 70_reset_and_hazards.md R217 with 45_requests_completion.md R172, R174, R175: a step that the buffer mode or the status
stage did not enable at STALL is not enabled by what runs after it (RECEIVE clears `kind`, ACTIVATE of the other direction
makes the number single-buffered). -/
theorem test_lateWire_enables_none :
    refusedFor (andThen (exec (.stall ⟨.IN, 1⟩) ((having .IN 1 (double .IN 2 64 0)
        { reg .bulk with kind := true, statTx := .valid }).updEp .OUT 1 (fun _ => single .OUT 2 64 0)))
      (fun t => andThen (exec (.receive 1 0x20000000 8) t) (lateWireIn 1))) .wireStepNotEnabled = true ∧
    refusedFor (andThen (exec (.stall ⟨.OUT, 1⟩) ((having .OUT 1 (double .OUT 2 64 0)
        { reg .bulk with kind := true, statRx := .valid }).updEp .IN 1 (fun _ => single .IN 2 64 0)))
      (fun t => andThen (exec (.activate ⟨.IN, 1⟩ 2 64) t) (lateWireOut 1 [7]))) .wireStepNotEnabled = true ∧
    refusedFor (andThen (exec (.stall ⟨.OUT, 0⟩) (having .OUT 0 (single .OUT 0 64 0)
        { reg .control with kind := true, statRx := .valid }))
      (fun t => andThen (exec (.activate ⟨.IN, 0⟩ 0 64) t) (lateWireOut 0 [7]))) .wireStepNotEnabled = true := by decide
/-- B6.7, B6.8. -/
theorem test_events :
    nextHas (fatal ready) (fun t => refusedFor (exec (.stall ⟨.IN, 1⟩) t) .notReady) = true ∧
    nextHas (busReset (having .IN 1 (single .IN 2 64 0) { reg .control with statTx := .valid, dtogTx := true, ctrTx := true }))
      (fun t => decide (t.reg 1 = { reg .bulk with ctrTx := true } ∧ t.istr.reset = true ∧
        (t.ep .IN 1).lifecycle = .configured)) = true := by decide

/-! ### Witnesses: for each obligation with hypotheses, a state and operands that meet all of them together -/

/-- The invariant holds of a block that is ready, all records as power-on leaves them. -/
theorem ready_inv (s : State) (hd : s.dev = ready.dev) (hc : s.cntr.fres = false) (hb : s.btable = 0) (hp : s.pm = [])
    (hh : s.host = []) (he : ∀ d i, s.ep d i = EndpointRecord.zero) : Inv s where
  count := by rw [hd]; decide
  notBusy := by rw [hd]; decide
  address := by rw [hd]; rfl
  fres := hc
  btable := fun _ => hb
  pmWf := by rw [hp]; exact List.Pairwise.nil
  pmInside := by rw [hp]; intro c h; exact absurd h List.not_mem_nil
  hostWf := by rw [hh]; exact List.Pairwise.nil
  hostInside := by rw [hh]; intro c h; exact absurd h List.not_mem_nil
  records := by
    intro d i
    rw [he]
    exact ⟨rfl, rfl, rfl, by decide, by simp [EndpointRecord.zero], by simp [EndpointRecord.zero],
      by simp [EndpointRecord.zero], by simp [EndpointRecord.zero]⟩

theorem witness_EncodedCommandDecodesToItself :
    WellFormed (.send 127 0xFFFFFFFF 0xFFFFFFFF) ∧ WellFormed (.configure ⟨.IN, 127⟩ (.double 0xFFFF 0xFFFF)) ∧
    WellFormed (.activate ⟨.OUT, 0⟩ 0xFF 0) := by decide
theorem witness_DecodedWordIsItsEncoding :
    decode 0x0EFFFFFFFFFFFFFFFFFF = .ok (.send 127 0xFFFFFFFF 0xFFFFFFFF) ∧
    decode 0x017F00000000FFFF0040 = .ok (.configure ⟨.OUT, 127⟩ (.single 64)) := by decide
theorem witness_WordDecodesExactlyWhenARowSelectsIt :
    decode 0x11FF0000000000000000 = .ok (.completeOut 127) ∧
    ⟨"COMPLETE_OUT", 0x11000000000000000000, 0xFF00FFFFFFFFFFFFFFFF⟩ ∈ opcodeRows ∧
    OpcodeRow.selects ⟨"COMPLETE_OUT", 0x11000000000000000000, 0xFF00FFFFFFFFFFFFFFFF⟩ 0x11FF0000000000000000 = true := by
  decide
theorem witness_IllegalWordChangesNothing :
    { ready with inputs := [.command 0x02012000000000040040] }.inputs = .command 0x02012000000000040040 :: [] ∧
    (∀ r ∈ opcodeRows, r.selects 0x02012000000000040040 = false) ∧
    (∀ r ∈ opcodeRows, r.selects 0x12000000000000000000 = false) := by decide
theorem witness_StepRunsDecodedCommand :
    { ready with inputs := [.command 0x0B000000000000000000] }.inputs = .command 0x0B000000000000000000 :: [] ∧
    decode 0x0B000000000000000000 = .ok .start ∧ ready.inputs = [] ∧
    { ready with inputs := [.wireOut 7 [1], .fatal] }.inputs = .wireOut 7 [1] :: [.fatal] ∧
    { ready with inputs := [.lateWireIn 7] }.inputs = .lateWireIn 7 :: [] ∧
    { ready with inputs := [.lateWireOut 0 []] }.inputs = .lateWireOut 0 [] :: [] := by decide
theorem witness_StepKeepsInvariant :
    Inv { State.reset with dev := ready.dev, inputs := [.command 0x06040000000000000000] } ∧
    ∃ t, step { State.reset with dev := ready.dev, inputs := [.command 0x06040000000000000000] } = .next t ∧
      decide ((t.ep .OUT 4).stalled = true) = true :=
  ⟨ready_inv _ rfl rfl rfl rfl rfl (fun d i => by cases d <;> simp [State.ep, State.reset]), exists_next (by decide)⟩
theorem witness_OnlyInitRunsUnlessReady :
    State.reset.dev.state ≠ .ready ∧ (∀ c hp ip, Instr.start ≠ .init c hp ip) ∧
    (8 : BitVec 8).toNat ≤ Config.N ∧ (0 : BitVec 8).toNat ≤ Config.N :=
  ⟨by decide, fun _ _ _ => by simp, by decide, by decide⟩
theorem witness_PullUpRisesOnlyByStartAndStays :
    (∃ t, step { ready with inputs := [.command 0x08040000000300000000] } = .next t ∧ t.pullup = true) ∧
    (∃ t, step { ready with pullup := false, inputs := [.command 0x0B000000000000000000] } = .next t ∧ t.pullup = true) :=
  ⟨exists_next (p := (·.pullup)) (by decide), exists_next (p := (·.pullup)) (by decide)⟩
theorem witness_StalledFlagSetOnlyByStallAndStays :
    ∃ t, step { ready with inputs := [.command 0x06830000000000000000] } = .next t ∧ (t.ep .IN 3).stalled = true :=
  exists_next (p := fun t => (t.ep .IN 3).stalled) (by decide)
theorem witness_BufferingWrittenOnlyByConfigure :
    ∃ t, step { ready with inputs := [.command 0x01820000000101400100] } = .next t ∧
      decide ((t.ep .IN 2).buffering ≠ (ready.ep .IN 2).buffering) = true := exists_next (by decide)
theorem witness_DeviceContextWrittenOnlyByInitAndFault :
    (∃ t, step { ready with inputs := [.command 0x08080000000300000000] } = .next t ∧ decide (t.dev ≠ ready.dev) = true) ∧
    (∃ t, step { ready with inputs := [.fatal] } = .next t ∧ decide (t.dev ≠ ready.dev) = true) :=
  ⟨exists_next (by decide), exists_next (by decide)⟩
theorem witness_CompletionFlagsSetOnlyByTheWire :
    (∃ t, step { having .IN 1 (single .IN 2 64 0) { reg .bulk with statTx := .valid } with inputs := [.wireIn 1] } =
      .next t ∧ (t.reg 1).ctrTx = true) ∧
    (∃ t, step { having .OUT 1 (single .OUT 2 64 0) { reg .bulk with statRx := .valid } with
      inputs := [.wireOut 1 [7]] } = .next t ∧ (t.reg 1).ctrRx = true) ∧
    (∃ t, step { havingLate .IN { reg .bulk with statTx := .stall } with inputs := [.lateWireIn 3] } = .next t ∧
      (t.reg 3).ctrTx = true) ∧
    (∃ t, step { havingLate .OUT { reg .bulk with statRx := .disabled } with inputs := [.lateWireOut 3 []] } =
      .next t ∧ (t.reg 3).ctrRx = true) :=
  ⟨exists_next (p := fun t => (t.reg 1).ctrTx) (by decide), exists_next (p := fun t => (t.reg 1).ctrRx) (by decide),
    exists_next (p := fun t => (t.reg 3).ctrTx) (by decide), exists_next (p := fun t => (t.reg 3).ctrRx) (by decide)⟩
theorem witness_WireAgentWritesOnlyItsFields :
    (∃ t, wireIn 1 (having .IN 1 (single .IN 2 64 0) { reg .bulk with statTx := .valid }) = .next t ∧
      (t.reg 1).ctrTx = true) ∧
    (∃ t, wireOut 1 [7] (having .OUT 1 (single .OUT 2 64 0) { reg .bulk with statRx := .valid }) = .next t ∧
      (t.reg 1).ctrRx = true) ∧
    (∃ t, lateWireIn 3 (havingLate .IN { reg .bulk with statTx := .disabled }) = .next t ∧ (t.reg 3).ctrTx = true) ∧
    (∃ t, lateWireOut 3 [7] (havingLate .OUT { reg .bulk with statRx := .stall }) = .next t ∧ (t.reg 3).ctrRx = true) :=
  ⟨exists_next (p := fun t => (t.reg 1).ctrTx) (by decide), exists_next (p := fun t => (t.reg 1).ctrRx) (by decide),
    exists_next (p := fun t => (t.reg 3).ctrTx) (by decide), exists_next (p := fun t => (t.reg 3).ctrRx) (by decide)⟩
theorem witness_CallerMemoryWrittenOnlyInsideItsRegion :
    (∃ t, step { ready with pm := [(64, 0xA1), (65, 0xA2)], inputs := [.command 0x03002000000000020040] } = .next t ∧
      decide (hostByte t 0x20000001 ≠ hostByte ready 0x20000001) = true) ∧
    (∃ t, step { ready with inputs := [.callerWrite 0x20000007 0] } = .next t ∧
      decide (hostByte t 0x20000007 ≠ hostByte ready 0x20000007) = true) ∧
    (∃ t, step { (having .OUT 1 (single .OUT 2 64 0) { reg .bulk with ctrRx := true }).setCount 1 true 1 with
      pm := [(64, 0xA1)], inputs := [.command 0x11010000000000000000] } = .next t ∧
      decide (hostByte t 0x20000000 ≠ hostByte ready 0x20000000) = true) :=
  ⟨exists_next (by decide), exists_next (by decide), exists_next (by decide)⟩
theorem witness_ConfigureSetsTheRecord :
    ready.dev.state = .ready ∧ ready.dev.count.toNat ≤ (⟨.IN, 4⟩ : EpAddr).num ∧
    Names ready 3 3 ∧ (0xFFFE : PmAddr).toNat % 2 = 0 ∧ (0 : PmAddr).toNat % 2 = 0 ∧ (0xFFFF : PmAddr).toNat % 2 = 1 :=
  ⟨rfl, by decide, ⟨rfl, rfl, by decide⟩, by decide, by decide, by decide⟩
theorem witness_ConfigureTwiceIsConfigureOnce :
    ∃ t, exec (.configure ⟨.IN, 3⟩ (.double 2 4)) ready = .next t ∧ decide ((t.ep .IN 3).address1 = 4) = true :=
  exists_next (by decide)
theorem witness_SlotBeyondTheCountIsRefused :
    ready.dev.state = .ready ∧ ready.dev.count.toNat ≤ (⟨.IN, 4⟩ : EpAddr).num ∧
    ready.dev.count.toNat ≤ (⟨.OUT, 127⟩ : EpAddr).num := by decide
theorem witness_WriteStoresCallerBytes :
    ready.dev.state = .ready ∧ (1020 : PmAddr).toNat % 2 = 0 ∧
    (1020 : PmAddr).toNat / 2 + ((3 : BitVec 16).toNat + 1) / 2 ≤ Config.pmWords ∧
    (0xFFFFFFFD : HostAddr).toNat + (3 : BitVec 16).toNat ≤ Config.hostSize ∧ 2 * 0 + 1 < (3 : BitVec 16).toNat ∧
    (3 : BitVec 16).toNat % 2 = 1 ∧
    (1024 : PmAddr).toNat / 2 + ((0 : BitVec 16).toNat + 1) / 2 ≤ Config.pmWords ∧ (0 : BitVec 16).toNat = 0 := by decide
theorem witness_OddWriteFillsTheLastHighByte :
    (7 : Nat) % 2 = 1 ∧
    (∃ t, pmaWrite .overread (some ⟨0x20000000, 10⟩) 0x20000000 64 7 ready = .next t ∧ decide (t.draws = 0) = true) ∧
    regionHolds (some ⟨0x20000000, 10⟩) ((0x20000000 : HostAddr).toNat + 7) = true ∧
    (∃ t, pmaWrite .maskZero (some ⟨0x20000000, 7⟩) 0x20000000 64 7 ready = .next t ∧ decide (t.draws = 0) = true) :=
  ⟨by decide, exists_next (by decide), by decide, exists_next (by decide)⟩
theorem witness_ReadReturnsPacketBytes :
    ready.dev.state = .ready ∧ (1020 : PmAddr).toNat % 2 = 0 ∧
    (1020 : PmAddr).toNat / 2 + ((3 : BitVec 16).toNat + 1) / 2 ≤ Config.pmWords ∧
    (0xFFFFFFFD : HostAddr).toNat + (3 : BitVec 16).toNat ≤ Config.hostSize ∧ 2 < (3 : BitVec 16).toNat := by decide
theorem witness_WriteThenReadReturnsTheBytes :
    (∃ s1, pmaWrite .overread (some ⟨0x20000000, 4⟩) 0x20000000 64 3 ready = .next s1 ∧
      nextHas (pmaRead (some ⟨0x20000100, 3⟩) 64 0x20000100 3 s1) (fun t => decide (hostByte t 0x20000102 = 0x33)) = true) ∧
    ready.dev.state = .ready ∧ (1020 : PmAddr).toNat % 2 = 0 ∧
    (1020 : PmAddr).toNat / 2 + ((3 : BitVec 16).toNat + 1) / 2 ≤ Config.pmWords ∧
    (0x20000000 : HostAddr).toNat + (3 : BitVec 16).toNat ≤ Config.hostSize ∧
    (0xFFFFFFFD : HostAddr).toNat + (3 : BitVec 16).toNat ≤ Config.hostSize :=
  ⟨exists_next (p := fun s1 => nextHas (pmaRead (some ⟨0x20000100, 3⟩) 64 0x20000100 3 s1)
    (fun t => decide (hostByte t 0x20000102 = 0x33))) (by decide), by decide⟩
theorem witness_InadmissibleRequestIsRefused :
    ready.dev.state = .ready ∧ (65 : PmAddr).toNat % 2 = 1 ∧
    Config.pmWords < (1022 : PmAddr).toNat / 2 + ((3 : BitVec 16).toNat + 1) / 2 ∧
    (64 : PmAddr).toNat / 2 + ((3 : BitVec 16).toNat + 1) / 2 ≤ Config.pmWords ∧ (3 : BitVec 16).toNat ≠ 0 ∧
    Config.hostSize < (0xFFFFFFFE : HostAddr).toNat + (3 : BitVec 16).toNat := by decide
theorem witness_ActivateFailuresChangeNothing :
    Names ready (⟨.IN, 3⟩ : EpAddr).num 3 ∧ 4 ≤ (4 : BitVec 8).toNat ∧ 4 ≤ (255 : BitVec 8).toNat ∧ (3 : BitVec 8).toNat < 4 :=
  ⟨⟨rfl, rfl, by decide⟩, by decide⟩
theorem witness_ActivateSingleSetsItsDirection :
    Names ready (⟨.IN, 3⟩ : EpAddr).num 3 ∧ Names ready (⟨.OUT, 0⟩ : EpAddr).num 0 ∧ (1 : Len) ≠ 0 ∧
    (ready.ep .IN 3).buffering = .single ∧ (ready.ep .OUT 0).buffering = .single :=
  ⟨⟨rfl, rfl, by decide⟩, ⟨rfl, rfl, by decide⟩, by decide⟩
theorem witness_ActivateDoubleSetsBothDirections :
    Names (having .IN 3 (double .IN 2 64 0) (reg .bulk)) (⟨.IN, 3⟩ : EpAddr).num 3 ∧ (64 : Len) ≠ 0 ∧
    ((having .IN 3 (double .IN 2 64 0) (reg .bulk)).ep .IN 3).buffering = .double ∧
    Names (having .OUT 0 (double .OUT 1 64 0) (reg .bulk)) (⟨.OUT, 0⟩ : EpAddr).num 0 ∧
    ((having .OUT 0 (double .OUT 1 64 0) (reg .bulk)).ep .OUT 0).buffering = .double :=
  ⟨names_having _ 3 _ _ (by decide), by decide, by decide, names_having _ 0 _ _ (by decide), by decide⟩
theorem witness_DeactivateDisablesItsDirections :
    ready.dev.state = .ready ∧ ready.dev.count.toNat ≤ (⟨.IN, 4⟩ : EpAddr).num ∧
    Names ready (⟨.IN, 3⟩ : EpAddr).num 3 ∧ (ready.ep .IN 3).buffering = .single ∧
    Names ready (⟨.OUT, 0⟩ : EpAddr).num 0 ∧ (ready.ep .OUT 0).buffering = .single ∧
    (having .IN 3 (double .IN 2 64 0) (reg .bulk)).dev.state = .ready ∧
    Names (having .IN 3 (double .IN 2 64 0) (reg .bulk)) (⟨.IN, 3⟩ : EpAddr).num 3 ∧
    ((having .IN 3 (double .IN 2 64 0) (reg .bulk)).ep .IN 3).buffering = .double :=
  ⟨rfl, by decide, ⟨rfl, rfl, by decide⟩, by decide, ⟨rfl, rfl, by decide⟩, by decide, by decide,
    names_having _ 3 _ _ (by decide), by decide⟩
theorem witness_ActivateThenDeactivateLeavesDisabled :
    Names (having .IN 3 (double .IN 2 64 0) { reg .control with statRx := .valid, dtogRx := true })
      (⟨.IN, 3⟩ : EpAddr).num 3 ∧ (64 : Len) ≠ 0 ∧
    ((having .IN 3 (double .IN 2 64 0) { reg .control with statRx := .valid, dtogRx := true }).ep .IN 3).buffering =
      .double ∧
    Names ready (⟨.IN, 3⟩ : EpAddr).num 3 ∧ (ready.ep .IN 3).buffering = .single ∧ Direction.OUT ≠ (⟨.IN, 3⟩ : EpAddr).dir :=
  ⟨names_having _ 3 _ _ (by decide), by decide, by decide, ⟨rfl, rfl, by decide⟩, by decide⟩
theorem witness_StallForcesItsDirection :
    ready.dev.state = .ready ∧ ready.dev.count.toNat < (⟨.OUT, 5⟩ : EpAddr).num ∧
    (⟨.OUT, 4⟩ : EpAddr).num = (4 : Slot).val ∧ (4 : Slot).val ≤ ready.dev.count.toNat ∧
    ready.dev.count.toNat ≤ (⟨.OUT, 4⟩ : EpAddr).num ∧ (⟨.OUT, 3⟩ : EpAddr).num < ready.dev.count.toNat ∧
    { ready with dev := { ready.dev with count := 8 } }.dev.state = .ready ∧
    (⟨.OUT, 8⟩ : EpAddr).num ≤ { ready with dev := { ready.dev with count := 8 } }.dev.count.toNat ∧
    Config.N ≤ (⟨.OUT, 8⟩ : EpAddr).num := by decide
theorem witness_StallSettingsDifferOnlyAtTheCount :
    (⟨.OUT, 3⟩ : EpAddr).num ≠ ready.dev.count.toNat ∧ (⟨.OUT, 5⟩ : EpAddr).num ≠ ready.dev.count.toNat ∧
    ready.dev.state = .ready ∧ ready.dev.count.toNat ≤ (⟨.OUT, 4⟩ : EpAddr).num := by decide

theorem witness_InSingleStepArmsOnePacket :
    Names (having .IN 3 (single .IN 2 64 64) (reg .bulk)) 3 3 ∧
    single .IN 2 64 64 = (having .IN 3 (single .IN 2 64 64) (reg .bulk)).ep .IN 3 ∧
    (single .IN 2 64 64).buffering = .single ∧ 64 = min (64 : Len).toNat (64 : Len).toNat ∧ 64 < Config.countLimit ∧
    PacketAdmitted (single .IN 2 64 64) 0x20000000 64 64 ∧
    ¬PacketAdmitted { single .IN 2 64 64 with region := some ⟨0x20000000, 63⟩ } 0x20000000 64 64 ∧
    Names (having .IN 3 (single .IN 2 1024 1024) (reg .bulk)) 3 3 ∧
    single .IN 2 1024 1024 = (having .IN 3 (single .IN 2 1024 1024) (reg .bulk)).ep .IN 3 ∧
    Config.countLimit ≤ min (1024 : Len).toNat (1024 : Len).toNat :=
  ⟨names_having _ 3 _ _ (by decide), by decide, by decide, by decide, by decide, ⟨by decide, by decide⟩,
    fun h => absurd h.2 (by decide), names_having _ 3 _ _ (by decide), by decide, by decide⟩
theorem witness_InDoubleBulkStepFillsBothBuffers :
    Names (having .IN 3 (double .IN 2 32 33) { reg .bulk with dtogTx := true }) 3 3 ∧
    double .IN 2 32 33 = (having .IN 3 (double .IN 2 32 33) { reg .bulk with dtogTx := true }).ep .IN 3 ∧
    (double .IN 2 32 33).buffering = .double ∧ (double .IN 2 32 33).epType = some .bulk ∧
    32 < (33 : Len).toNat ∧ 32 < Config.countLimit ∧ 1 = min 32 ((33 : Len).toNat - 32) ∧
    PacketAdmitted (double .IN 2 32 33) 0x20000000 0x140 32 ∧
    PacketAdmitted (double .IN 2 32 33) (0x20000000 + BitVec.ofNat 32 32) 0x100 1 ∧
    ¬PacketAdmitted { double .IN 2 32 33 with region := some ⟨0x20000000, 32⟩ }
      (0x20000000 + BitVec.ofNat 32 32) 0x100 1 ∧
    Apart (0x140 : PmAddr).toNat 32 (0x100 : PmAddr).toNat (2 * ((1 + 1) / 2)) ∧
    true = ((having .IN 3 (double .IN 2 32 33) { reg .bulk with dtogTx := true }).reg 3).dtogTx ∧
    Config.countLimit ≤ (1024 : Len).toNat ∧ (1024 : Len).toNat < (1025 : Len).toNat :=
  ⟨names_having _ 3 _ _ (by decide), by decide, by decide, by decide, by decide, by decide, by decide,
    ⟨by decide, by decide⟩, ⟨by decide, by decide⟩, fun h => absurd h.2 (by decide), .inr (by decide), by decide,
    by decide, by decide⟩
theorem witness_InDoubleBulkStepSwitchesAtTheLastPacket :
    Names (having .IN 3 (double .IN 2 32 32) (reg .bulk)) 3 3 ∧
    double .IN 2 32 32 = (having .IN 3 (double .IN 2 32 32) (reg .bulk)).ep .IN 3 ∧
    (double .IN 2 32 32).buffering = .double ∧ (double .IN 2 32 32).epType = some .bulk ∧
    (32 : Len).toNat ≤ (32 : Len).toNat ∧ 32 < Config.countLimit ∧
    PacketAdmitted (double .IN 2 32 32) 0x20000000 0x100 32 ∧
    ¬PacketAdmitted { double .IN 2 32 32 with region := none } 0x20000000 0x100 32 ∧
    Config.countLimit ≤ (1024 : Len).toNat ∧ (1024 : Len).toNat ≤ (1024 : Len).toNat :=
  ⟨names_having _ 3 _ _ (by decide), by decide, by decide, by decide, by decide, by decide, ⟨by decide, by decide⟩,
    fun h => absurd h.2 (by decide), by decide, by decide⟩
theorem witness_InDoubleIsoStepFillsTheFreeBuffer :
    Names (having .IN 3 (double .IN 1 32 40) { reg .isochronous with dtogTx := true }) 3 3 ∧
    double .IN 1 32 40 = (having .IN 3 (double .IN 1 32 40) { reg .isochronous with dtogTx := true }).ep .IN 3 ∧
    (double .IN 1 32 40).buffering = .double ∧ (double .IN 1 32 40).epType = some .isochronous ∧
    true = ((having .IN 3 (double .IN 1 32 40) { reg .isochronous with dtogTx := true }).reg 3).dtogTx ∧
    false = ((having .IN 3 (double .IN 1 32 40) (reg .isochronous)).reg 3).dtogTx ∧
    32 = min (32 : Len).toNat (40 : Len).toNat ∧ 32 < Config.countLimit ∧
    PacketAdmitted (double .IN 1 32 40) 0x20000000 0x140 32 ∧ PacketAdmitted (double .IN 1 32 40) 0x20000000 0x100 32 ∧
    ¬PacketAdmitted { double .IN 1 32 40 with region := none } 0x20000000 0x140 32 ∧
    Config.countLimit ≤ min (1024 : Len).toNat (1025 : Len).toNat :=
  ⟨names_having _ 3 _ _ (by decide), by decide, by decide, by decide, by decide, by decide, by decide, by decide,
    ⟨by decide, by decide⟩, ⟨by decide, by decide⟩, fun h => absurd h.2 (by decide), by decide⟩
theorem witness_InDoubleOtherTypeIsRefused :
    Names (having .IN 3 (double .IN 3 8 8) (reg .interrupt)) 3 3 ∧
    ((having .IN 3 (double .IN 3 8 8) (reg .interrupt)).ep .IN 3).buffering = .double ∧
    ((having .IN 3 (double .IN 3 8 8) (reg .interrupt)).ep .IN 3).epType = some .interrupt ∧
    ((having .IN 3 (double .IN 0 8 8) (reg .control)).ep .IN 3).epType = some .control :=
  ⟨names_having _ 3 _ _ (by decide), by decide, by decide, by decide⟩
theorem witness_OutSingleStepBooksOnePacket :
    Names (having .OUT 3 (single .OUT 0 64 0) (reg .control)) 3 3 ∧
    single .OUT 0 64 0 = (having .OUT 3 (single .OUT 0 64 0) (reg .control)).ep .OUT 3 ∧
    (single .OUT 0 64 0).buffering = .single ∧ (single .OUT 0 64 0).epType = some .control ∧
    (single .OUT 2 64 65).maxPacketSize < (single .OUT 2 64 65).remainingLength ∧
    ¬ (single .OUT 0 64 64).maxPacketSize < (single .OUT 0 64 64).remainingLength ∧
    (single .OUT 0 64 64).remainingLength ≠ 0 :=
  ⟨names_having _ 3 _ _ (by decide), by decide, by decide, by decide, by decide, by decide, by decide⟩
theorem witness_OutDoubleStepByType :
    Names (having .OUT 3 { double .OUT 2 64 9 with transferCount := 64 } (reg .bulk)) 3 3 ∧
    (double .OUT 2 64 9).buffering = .double ∧ (double .OUT 2 64 9).epType = some .bulk ∧
    ({ double .OUT 2 64 9 with transferCount := 64 } : EndpointRecord).transferCount ≠ 0 ∧
    (reg .bulk).dtogRx = (reg .bulk).dtogTx ∧ (double .OUT 1 64 9).epType = some .isochronous ∧
    (double .OUT 0 64 9).epType = some .control ∧ (double .OUT 3 64 9).epType = some .interrupt :=
  ⟨names_having _ 3 _ _ (by decide), by decide⟩
theorem witness_EverySchedulingPathEndsValid :
    (∃ t, exec (.startTransfer ⟨.IN, 1⟩) (having .IN 1 (single .IN 2 4 4) (reg .bulk)) = .next t ∧
      decide ((t.reg 1).statTx = .valid) = true) ∧
    (∃ t, exec (.startTransfer ⟨.OUT, 1⟩) (having .OUT 1 (double .OUT 1 4 4) (reg .bulk)) = .next t ∧
      decide ((t.reg 1).statRx = .valid) = true) ∧
    ¬((⟨.OUT, 1⟩ : EpAddr).dir = .OUT ∧ (double .OUT 1 4 4).buffering = .double ∧
      (double .OUT 1 4 4).epType ≠ some .bulk ∧ (double .OUT 1 4 4).epType ≠ some .isochronous) :=
  ⟨exists_next (by decide), exists_next (by decide), by decide⟩
theorem witness_SchedulerWritesOnlyItsFields :
    ∃ t, exec (.startTransfer ⟨.OUT, 1⟩) (having .OUT 1 { double .OUT 2 4 4 with transferCount := 4 } (reg .bulk)) =
      .next t ∧ (t.reg 1).dtogTx = true :=
  exists_next (p := fun t => (t.reg 1).dtogTx) (by decide)
theorem witness_BulkDoubleBufferedBytesAddUp :
    Names (having .IN 3 (double .IN 2 2 5) (reg .bulk)) 3 3 ∧
    ((having .IN 3 (double .IN 2 2 5) (reg .bulk)).ep .IN 3).buffering = .double ∧
    ((having .IN 3 (double .IN 2 2 5) (reg .bulk)).ep .IN 3).epType = some .bulk ∧
    (∃ t, repeatCommand (.startTransfer ⟨.IN, 3⟩) 3 (having .IN 3 (double .IN 2 2 5) (reg .bulk)) = .next t ∧
      decide ((t.ep .IN 3).remainingLengthSecondary = 0) = true) ∧ (5 : Len).toNat ≤ 3 * (2 : Len).toNat :=
  ⟨names_having _ 3 _ _ (by decide), by decide, by decide, exists_next (by decide), by decide⟩
theorem witness_InitErrorsChangeNothing : Config.N < (9 : BitVec 8).toNat := by decide
theorem witness_InitBringsUpTheBlock : (8 : BitVec 8).toNat ≤ Config.N ∧ (0 : BitVec 8).toNat ≤ Config.N := by decide
theorem witness_EnablesPullUpAndResumeAreWritten : ready.dev.state = .ready := by decide
theorem witness_MaskedSourceRaisesIrqWhenEnabled :
    ready.dev.state = .ready ∧ ((having .IN 1 (single .IN 2 4 4) { reg .bulk with ctrTx := true }).reg 1).ctrTx = true := by
  decide
theorem witness_RequestIsBookkeepingThenOneStep :
    ready.dev.state = .ready ∧ ready.dev.count.toNat ≤ 4 ∧ Names ready 3 3 := ⟨rfl, by decide, rfl, rfl, by decide⟩
theorem witness_SendArmsItsFirstPacket :
    Names (having .IN 3 (single .IN 2 64 0) (reg .bulk)) 3 3 ∧
    single .IN 2 64 0 = (having .IN 3 (single .IN 2 64 0) (reg .bulk)).ep .IN 3 ∧
    (single .IN 2 64 0).buffering = .single ∧ 64 = min (single .IN 2 64 0).maxPacketSize.toNat (200 : Len).toNat ∧
    64 < Config.countLimit ∧ (single .IN 2 64 0).address.toNat % 2 = 0 ∧
    (single .IN 2 64 0).address.toNat / 2 + (64 + 1) / 2 ≤ Config.pmWords ∧
    (0xFFFFFFC0 : HostAddr).toNat + 64 ≤ Config.hostSize :=
  ⟨names_having _ 3 _ _ (by decide), by decide, by decide, by decide, by decide, by decide, by decide, by decide⟩
theorem witness_ReceiveBooksAndArms :
    Names (having .OUT 3 (single .OUT 2 64 0) (reg .bulk)) 3 3 ∧
    single .OUT 2 64 0 = (having .OUT 3 (single .OUT 2 64 0) (reg .bulk)).ep .OUT 3 ∧
    (single .OUT 2 64 0).buffering = .single ∧
    Names (having .OUT 3 (double .OUT 1 64 0) (reg .isochronous)) 3 3 ∧
    double .OUT 1 64 0 = (having .OUT 3 (double .OUT 1 64 0) (reg .isochronous)).ep .OUT 3 ∧
    (double .OUT 1 64 0).buffering = .double ∧ (double .OUT 1 64 0).epType = some .isochronous ∧
    Names (having .OUT 3 (double .OUT 2 64 0) (reg .bulk)) 3 3 ∧
    double .OUT 2 64 0 = (having .OUT 3 (double .OUT 2 64 0) (reg .bulk)).ep .OUT 3 ∧
    (double .OUT 2 64 0).buffering = .double ∧ (double .OUT 2 64 0).epType ≠ some .isochronous ∧
    (double .OUT 0 64 0).buffering = .double ∧ (double .OUT 0 64 0).epType ≠ some .isochronous :=
  ⟨names_having _ 3 _ _ (by decide), by decide, by decide, names_having _ 3 _ _ (by decide), by decide, by decide,
    by decide, names_having _ 3 _ _ (by decide), by decide⟩
theorem witness_CompleteInServesTheCompletion :
    Names ((having .IN 3 (single .IN 2 64 64) { reg .bulk with ctrTx := true }).setCount 3 false 32) 3 3 ∧
    single .IN 2 64 64 =
      ((having .IN 3 (single .IN 2 64 64) { reg .bulk with ctrTx := true }).setCount 3 false 32).ep .IN 3 ∧
    (single .IN 2 64 64).buffering = .single ∧
    (((having .IN 3 (single .IN 2 64 64) { reg .bulk with ctrTx := true }).setCount 3 false 32).reg 3).ctrTx = true ∧
    32 = (((having .IN 3 (single .IN 2 64 64) { reg .bulk with ctrTx := true }).setCount 3 false 32).table 3).countTx.toNat ∧
    32 < (64 : Len).toNat ∧ 32 = min (64 : Len).toNat ((64 : Len).toNat - 32) ∧ 32 < Config.countLimit ∧
    PacketAdmitted (single .IN 2 64 64) (0x20000000 + BitVec.ofNat 32 32) 64 32 ∧
    64 = (((having .IN 3 (single .IN 2 64 64) { reg .bulk with ctrTx := true }).setCount 3 false 64).table 3).countTx.toNat ∧
    (64 : Len).toNat ≤ 64 ∧
    ¬PacketAdmitted { single .IN 2 64 64 with region := none } (0x20000000 + BitVec.ofNat 32 32) 64 32 ∧
    Config.countLimit ≤ min (1024 : Len).toNat ((1056 : Len).toNat - 32) :=
  ⟨⟨rfl, rfl, by decide⟩, by decide, by decide, by decide, by decide, by decide, by decide, by decide,
    ⟨by decide, by decide⟩, by decide, by decide, fun h => absurd h.2 (by decide), by decide⟩
theorem witness_CompleteOutServesTheCompletion :
    Names ((having .OUT 3 (single .OUT 2 64 36) { reg .bulk with ctrRx := true }).setCount 3 true 64) 3 3 ∧
    single .OUT 2 64 36 =
      ((having .OUT 3 (single .OUT 2 64 36) { reg .bulk with ctrRx := true }).setCount 3 true 64).ep .OUT 3 ∧
    (single .OUT 2 64 36).buffering = .single ∧
    (((having .OUT 3 (single .OUT 2 64 36) { reg .bulk with ctrRx := true }).setCount 3 true 64).reg 3).ctrRx = true ∧
    64 = (((having .OUT 3 (single .OUT 2 64 36) { reg .bulk with ctrRx := true }).setCount 3 true 64).table 3).countRx.toNat ∧
    PacketAdmitted (single .OUT 2 64 36) 0x20000000 64 64 ∧ (single .OUT 2 64 36).remainingLength ≠ 0 ∧
    (single .OUT 2 64 0).remainingLength = 0 ∧ PacketAdmitted (single .OUT 2 64 0) 0x20000000 64 64 ∧
    ¬PacketAdmitted { single .OUT 2 64 36 with region := some ⟨0x20000000, 63⟩ } 0x20000000 64 64 :=
  ⟨⟨rfl, rfl, by decide⟩, by decide, by decide, by decide, by decide, ⟨by decide, by decide⟩, by decide, by decide,
    ⟨by decide, by decide⟩, fun h => absurd h.2 (by decide)⟩
theorem witness_UnservableCompletionIsRefused :
    Names (having .IN 3 (double .IN 2 64 0) (reg .bulk)) 3 3 ∧
    ((having .IN 3 (double .IN 2 64 0) (reg .bulk)).ep .IN 3).buffering = .double ∧
    ((having .OUT 3 (double .OUT 2 64 0) (reg .bulk)).ep .OUT 3).buffering = .double ∧
    (ready.ep .IN 3).buffering = .single ∧ (ready.reg 3).ctrTx = false ∧ (ready.ep .OUT 3).buffering = .single ∧
    (ready.reg 3).ctrRx = false :=
  ⟨names_having _ 3 _ _ (by decide), by decide⟩
theorem witness_WireInSendsTheArmedPacket :
    (having .IN 7 (single .IN 2 64 0) { reg .bulk with statTx := .valid }).pullup = true ∧
    ((having .IN 7 (single .IN 2 64 0) { reg .bulk with statTx := .valid }).reg 7).statTx = .valid ∧
    ((having .IN 7 (single .IN 2 64 0) { reg .bulk with statTx := .valid }).reg 7).epType = .bulk ∧
    ((having .IN 7 (single .IN 2 64 0) { reg .bulk with statTx := .valid }).reg 7).kind = false ∧
    ((having .IN 7 (single .IN 2 64 0) { reg .bulk with statTx := .valid }).table 7).addrTx.toNat / 2 +
      (((having .IN 7 (single .IN 2 64 0) { reg .bulk with statTx := .valid }).table 7).countTx.toNat + 1) / 2 ≤
        Config.pmWords := by decide
theorem witness_WireOutStoresThePacket :
    (having .OUT 7 (single .OUT 0 3 0) { reg .control with statRx := .valid }).pullup = true ∧
    ((having .OUT 7 (single .OUT 0 3 0) { reg .control with statRx := .valid }).reg 7).statRx = .valid ∧
    ((having .OUT 7 (single .OUT 0 3 0) { reg .control with statRx := .valid }).reg 7).epType = .control ∧
    ((having .OUT 7 (single .OUT 0 3 0) { reg .control with statRx := .valid }).reg 7).kind = false ∧
    [1, 2, (3 : Byte)].length ≤
      ((having .OUT 7 (single .OUT 0 3 0) { reg .control with statRx := .valid }).ep .OUT 7).maxPacketSize.toNat ∧
    [1, 2, (3 : Byte)].length < Config.countLimit ∧
    ((having .OUT 7 (single .OUT 0 3 0) { reg .control with statRx := .valid }).table 7).addrRx.toNat / 2 +
      ([1, 2, (3 : Byte)].length + 1) / 2 ≤ Config.pmWords := by decide
theorem witness_WireAnswersChangeNothing :
    ready.pullup = true ∧ (ready.reg 7).statTx ≠ .valid ∧ (ready.reg 7).statRx ≠ .valid ∧
    ((having .OUT 0 (single .OUT 0 3 0) { reg .control with kind := true, statRx := .valid }).reg 0).statRx = .valid ∧
    ((having .OUT 0 (single .OUT 0 3 0) { reg .control with kind := true, statRx := .valid }).reg 0).epType = .control ∧
    ((having .OUT 0 (single .OUT 0 3 0) { reg .control with kind := true, statRx := .valid }).reg 0).kind = true ∧
    [(1 : Byte)] ≠ [] := by decide
theorem witness_EnvironmentEventsHaveTheirEffect :
    ready.pullup = true ∧ { ready with pullup := false }.pullup = false := by decide
theorem witness_StallAndDeactivateWithdrawNoWireStep :
    Names (having .IN 3 (single .IN 2 64 0) { reg .bulk with statTx := .valid }) (⟨.IN, 3⟩ : EpAddr).num 3 ∧
    (having .IN 3 (single .IN 2 64 0) { reg .bulk with statTx := .valid }).pullup = true ∧
    ((having .IN 3 (single .IN 2 64 0) { reg .bulk with statTx := .valid }).reg 3).epType = .bulk ∧
    ((having .IN 3 (single .IN 2 64 0) { reg .bulk with statTx := .valid }).reg 3).kind = false ∧
    ((having .IN 3 (single .IN 2 64 0) { reg .bulk with statTx := .valid }).reg 3).statTx = .valid ∧
    ((having .IN 3 (single .IN 2 64 0) { reg .bulk with statTx := .valid }).table 3).addrTx.toNat / 2 +
      (((having .IN 3 (single .IN 2 64 0) { reg .bulk with statTx := .valid }).table 3).countTx.toNat + 1) / 2 ≤
        Config.pmWords ∧
    Names (having .OUT 0 (single .OUT 0 3 0) { reg .control with statRx := .valid }) (⟨.OUT, 0⟩ : EpAddr).num 0 ∧
    (having .OUT 0 (single .OUT 0 3 0) { reg .control with statRx := .valid }).pullup = true ∧
    ((having .OUT 0 (single .OUT 0 3 0) { reg .control with statRx := .valid }).reg 0).epType = .control ∧
    ((having .OUT 0 (single .OUT 0 3 0) { reg .control with statRx := .valid }).reg 0).kind = false ∧
    ((having .OUT 0 (single .OUT 0 3 0) { reg .control with statRx := .valid }).reg 0).statRx = .valid ∧
    [1, 2, (3 : Byte)].length ≤
      ((having .OUT 0 (single .OUT 0 3 0) { reg .control with statRx := .valid }).ep .OUT 0).maxPacketSize.toNat ∧
    [1, 2, (3 : Byte)].length < Config.countLimit ∧
    ((having .OUT 0 (single .OUT 0 3 0) { reg .control with statRx := .valid }).table 0).addrRx.toNat / 2 +
      ([1, 2, (3 : Byte)].length + 1) / 2 ≤ Config.pmWords :=
  ⟨names_having _ 3 _ _ (by decide), by decide, by decide, by decide, by decide, by decide,
    names_having _ 0 _ _ (by decide), by decide⟩
theorem witness_StallAndDeactivateWithdrawNoWireStep_enables_none :
    Names (having .IN 3 (double .IN 2 64 0) { reg .bulk with kind := true, statTx := .valid }) (⟨.IN, 3⟩ : EpAddr).num 3 ∧
    (((having .IN 3 (double .IN 2 64 0) { reg .bulk with kind := true, statTx := .valid }).reg 3).status .IN = .valid ∧
      (having .IN 3 (double .IN 2 64 0) { reg .bulk with kind := true, statTx := .valid }).pullup = true ∧
      ((having .IN 3 (double .IN 2 64 0) { reg .bulk with kind := true, statTx := .valid }).reg 3).wireSingle = false) ∧
    Names (having .OUT 0 (single .OUT 0 3 0) { reg .control with kind := true, statRx := .valid })
      (⟨.OUT, 0⟩ : EpAddr).num 0 ∧
    ((having .OUT 0 (single .OUT 0 3 0) { reg .control with kind := true, statRx := .valid }).reg 0).status .OUT = .valid ∧
    (having .OUT 0 (single .OUT 0 3 0) { reg .control with kind := true, statRx := .valid }).pullup = true ∧
    ((having .OUT 0 (single .OUT 0 3 0) { reg .control with kind := true, statRx := .valid }).reg 0).epType = .control ∧
    ((having .OUT 0 (single .OUT 0 3 0) { reg .control with kind := true, statRx := .valid }).reg 0).kind = true ∧
    [(7 : Byte)] ≠ [] :=
  ⟨names_having _ 3 _ _ (by decide), by decide, names_having _ 0 _ _ (by decide), by decide⟩

/-- A SEND of eight bytes and a collection by the host, queued. -/
def sendThenCollect : State :=
  { having .IN 3 (single .IN 2 4 0) { reg .bulk with dtogTx := true } with
    bdt := Vector.replicate Config.N ⟨64, 0, 0, 0⟩
    inputs := [.command (encode (.send 3 0x20000000 8)), .wireIn 3] }

theorem witness_SentPacketReachesTheHost :
    Names sendThenCollect 3 3 ∧ sendThenCollect.inputs = [.command (encode (.send 3 0x20000000 8)), .wireIn 3] ∧
    single .IN 2 4 0 = sendThenCollect.ep .IN 3 ∧ (single .IN 2 4 0).buffering = .single ∧
    4 = min (single .IN 2 4 0).maxPacketSize.toNat (8 : Len).toNat ∧ 4 < Config.countLimit ∧
    (single .IN 2 4 0).address.toNat % 2 = 0 ∧
    (single .IN 2 4 0).address.toNat / 2 + (4 + 1) / 2 ≤ Config.pmWords ∧
    (0x20000000 : HostAddr).toNat + 4 ≤ Config.hostSize ∧ sendThenCollect.pullup = true ∧
    (sendThenCollect.table 3).addrTx = (single .IN 2 4 0).address ∧
    (sendThenCollect.reg 3).epType = .bulk ∧ (sendThenCollect.reg 3).kind = false :=
  ⟨⟨rfl, rfl, by decide⟩, rfl, by decide⟩

/-- A packet of three bytes delivered by the host and a COMPLETE_OUT, queued. -/
def deliverThenComplete : State :=
  { having .OUT 3 (single .OUT 2 64 0) { reg .bulk with statRx := .valid } with
    bdt := Vector.replicate Config.N ⟨0, 0, 64, 0⟩
    inputs := [.wireOut 3 [0xA1, 0xA2, 0xA3], .command (encode (.completeOut 3))] }

theorem witness_ReceivedPacketReachesTheCaller :
    Names deliverThenComplete 3 3 ∧
    deliverThenComplete.inputs = [.wireOut 3 [0xA1, 0xA2, 0xA3], .command (encode (.completeOut 3))] ∧
    PacketAdmitted (single .OUT 2 64 0) 0x20000000 64 [0xA1, 0xA2, (0xA3 : Byte)].length ∧
    single .OUT 2 64 0 = deliverThenComplete.ep .OUT 3 ∧ (single .OUT 2 64 0).buffering = .single ∧
    [0xA1, 0xA2, (0xA3 : Byte)].length ≤ (single .OUT 2 64 0).maxPacketSize.toNat ∧
    [0xA1, 0xA2, (0xA3 : Byte)].length < Config.countLimit ∧ deliverThenComplete.pullup = true ∧
    (deliverThenComplete.table 3).addrRx = (single .OUT 2 64 0).address ∧
    (deliverThenComplete.reg 3).statRx = .valid ∧ (deliverThenComplete.reg 3).epType = .bulk ∧
    (deliverThenComplete.reg 3).kind = false ∧ (single .OUT 2 64 0).remainingLength = 0 :=
  ⟨⟨rfl, rfl, by decide⟩, rfl, ⟨by decide, by decide⟩, by decide⟩

/-- Two configured IN records, one single-buffered at offset 64, one double-buffered at `0x100` and `0x140`. -/
def twoRecords : State :=
  (ready.updEp .IN 1 (fun _ => single .IN 2 4 4)).updEp .IN 3 (fun _ => double .IN 2 4 4)

theorem configured_twoRecords (d : Direction) (i : Slot) (h : (twoRecords.ep d i).lifecycle = .configured) :
    d = .IN ∧ (i = 1 ∨ i = 3) := by
  revert i
  cases d <;> decide

theorem bases_twoRecords (b : Buffer) (h : b.inUse twoRecords) :
    (b = ⟨.IN, 1, false⟩ ∧ b.base twoRecords = 64 ∧ b.size twoRecords = 4) ∨
    (b = ⟨.IN, 3, false⟩ ∧ b.base twoRecords = 0x100 ∧ b.size twoRecords = 4) ∨
    (b = ⟨.IN, 3, true⟩ ∧ b.base twoRecords = 0x140 ∧ b.size twoRecords = 4) := by
  obtain ⟨d, i, k⟩ := b
  obtain ⟨hl, hk⟩ := h
  obtain ⟨rfl, rfl | rfl⟩ := configured_twoRecords d i hl
  · cases k
    · exact .inl ⟨rfl, by decide, by decide⟩
    · exact absurd (hk (by decide)) (by decide)
  · cases k
    · exact .inr (.inl ⟨rfl, by decide, by decide⟩)
    · exact .inr (.inr ⟨rfl, by decide, by decide⟩)

theorem twoRecords_partitioned : Partitioned twoRecords where
  apart := by
    intro b c hb hc hne
    unfold Apart
    rcases bases_twoRecords b hb with ⟨rfl, h1, h2⟩ | ⟨rfl, h1, h2⟩ | ⟨rfl, h1, h2⟩ <;>
      rcases bases_twoRecords c hc with ⟨rfl, h3, h4⟩ | ⟨rfl, h3, h4⟩ | ⟨rfl, h3, h4⟩ <;>
      first
        | exact absurd rfl hne
        | omega
  inside := by
    intro b hb
    have : Config.pmWords = 512 := rfl
    rcases bases_twoRecords b hb with ⟨rfl, h1, h2⟩ | ⟨rfl, h1, h2⟩ | ⟨rfl, h1, h2⟩ <;> omega
  table := by
    intro b hb
    have h0 : twoRecords.btable.toNat = 0 := rfl
    have : Config.N = 8 := rfl
    unfold Apart
    rcases bases_twoRecords b hb with ⟨rfl, h1, h2⟩ | ⟨rfl, h1, h2⟩ | ⟨rfl, h1, h2⟩ <;> omega

theorem witness_PartitionedStepLeavesOtherBuffers :
    Partitioned twoRecords ∧ (⟨.IN, 3⟩ : EpAddr).num = (3 : Slot).val ∧
    (twoRecords.ep .IN 3).lifecycle = .configured ∧
    (∃ t, exec (.startTransfer ⟨.IN, 3⟩) twoRecords = .next t ∧ decide (pmWord t 128 = 0x2211) = true) ∧
    (⟨.IN, 1, false⟩ : Buffer).inUse twoRecords ∧ (⟨.IN, 1, false⟩ : Buffer).base twoRecords ≤ 67 ∧
    67 < (⟨.IN, 1, false⟩ : Buffer).base twoRecords + (⟨.IN, 1, false⟩ : Buffer).size twoRecords :=
  ⟨twoRecords_partitioned, rfl, by decide, exists_next (by decide), ⟨by decide, fun _ => rfl⟩, by decide, by decide⟩

end Sys2Proof.Tests
end

section
/-! The Endpoint Registry: what CONFIGURE answers in each of its cases (40_registry.md R96), and the obligation. -/

namespace Sys2Proof.Machine

/-! ### CONFIGURE -/

theorem exec_configure (ea : EpAddr) (target : MemTarget) (s : State) :
    exec (.configure ea target) s = execConfigure ea target s := rfl

theorem targetEven_single_iff {a : PmAddr} : targetEven (.single a) = true ↔ a.toNat % 2 = 0 :=
  evenAddr_iff a

theorem targetEven_double_iff {a0 a1 : PmAddr} :
    targetEven (.double a0 a1) = true ↔ a0.toNat % 2 = 0 ∧ a1.toNat % 2 = 0 := by
  rw [targetEven, Bool.and_eq_true, evenAddr_iff, evenAddr_iff]

theorem exec_configure_beyond {s : State} {ea : EpAddr} (hr : s.dev.state = .ready) (hc : s.dev.count.toNat ≤ ea.num)
    (target : MemTarget) : exec (.configure ea target) s = .refused .slotOutOfRange := by
  rw [exec_configure, execConfigure, requireReady_of hr, withSlot_beyond hc]

theorem exec_configure_odd {s : State} {ea : EpAddr} {i : Slot} {target : MemTarget} (hn : Names s ea.num i)
    (ho : ¬ targetEven target = true) : exec (.configure ea target) s = .refused .oddPacketAddress := by
  rw [exec_configure, execConfigure, requireReady_of hn.ready, withSlot_of i hn.number hn.below, if_neg ho]

theorem exec_configure_even {s : State} {ea : EpAddr} {i : Slot} {target : MemTarget} (hn : Names s ea.num i)
    (he : targetEven target = true) :
    exec (.configure ea target) s = .next ((s.updEp ea.dir i (·.configured target)).respond .ok) := by
  rw [exec_configure, execConfigure_eq_next]
  exact ⟨hn.ready, i, hn.number.symm, hn.number ▸ hn.below, he, rfl⟩

/-- Both forms of CONFIGURE at once: the named record becomes `configured target`, everything else is framed. -/
theorem exec_configure_sets {s : State} {ea : EpAddr} {i : Slot} {target : MemTarget} (hn : Names s ea.num i)
    (he : targetEven target = true) :
    ∃ t, exec (.configure ea target) s = .next t ∧ t.response = some .ok ∧
      t.ep ea.dir i = (s.ep ea.dir i).configured target ∧
      OnlyTouches s t ea.dir i ∧ t.reg i = s.reg i ∧ t.table i = s.table i ∧ KeepsPm s t ∧ KeepsHost s t ∧
      t.signals = s.signals := by
  refine ⟨_, exec_configure_even hn he, State.respond_response .., ?record, ?frame,
    rfl, rfl, fun _ => rfl, fun _ => rfl, rfl⟩
  case record => rw [State.respond_ep, State.updEp_ep_self]
  case frame => exact ((OnlyTouches.refl s ea.dir i).updEp _).respond .ok

/-- Settles O18: the gates give the first refusal, and the parity of the addresses splits the named slot's cases. -/
theorem configureSetsTheRecord : Obligations.ConfigureSetsTheRecord := by
  unfold Obligations.ConfigureSetsTheRecord
  intro s ea hr
  refine ⟨fun hc target => exec_configure_beyond hr hc target, fun i hn => ⟨?single, ?double, ?oddSingle, ?oddDouble⟩⟩
  case single =>
    intro a ha
    exact exec_configure_sets hn (targetEven_single_iff.mpr ha)
  case double =>
    intro a0 a1 h0 h1
    exact exec_configure_sets hn (targetEven_double_iff.mpr ⟨h0, h1⟩)
  case oddSingle =>
    intro a ha
    refine exec_configure_odd hn ?_
    rw [targetEven_single_iff]
    omega
  case oddDouble =>
    intro a0 a1 h
    refine exec_configure_odd hn ?_
    rw [targetEven_double_iff]
    omega

end Sys2Proof.Machine
end

section
/-! The Endpoint Lifecycle: what ACTIVATE and DEACTIVATE answer on a named slot (42_lifecycle.md R111 to R118), what they
leave in its register, and the obligation about one after the other (R120). -/

namespace Sys2Proof.Machine

/-! ### ACTIVATE -/

theorem exec_activate (ea : EpAddr) (code : BitVec 8) (mps : Len) (s : State) :
    exec (.activate ea code mps) s = execActivate ea code mps s := rfl

@[simp] theorem epTypeOfCode_portTypeCode (ty : EpType) : epTypeOfCode (portTypeCode ty) = some ty := by
  cases ty <;> rfl

theorem exec_activate_of_names {s : State} {ea : EpAddr} {i : Slot} {mps : Len} (ty : EpType) (hn : Names s ea.num i)
    (hm : mps ≠ 0) :
    exec (.activate ea (portTypeCode ty) mps) s =
      .next ((activateSlot ea.dir i ty (portTypeCode ty) mps s).respond .ok) := by
  rw [exec_activate, execActivate_eq_next]
  exact ⟨hn.ready, i, hn.number.symm, hn.number ▸ hn.below, .inr ⟨ty, epTypeOfCode_portTypeCode ty, hm, rfl⟩⟩

@[simp] theorem activateSlot_reg_self (d : Direction) (i : Slot) (ty : EpType) (code : BitVec 8) (mps : Len) (s : State) :
    (activateSlot d i ty code mps s).reg i = (s.reg i).activated d i ty (s.ep d i).buffering := by
  simp [activateSlot]

@[simp] theorem activateSlot_ep_self (d : Direction) (i : Slot) (ty : EpType) (code : BitVec 8) (mps : Len) (s : State) :
    (activateSlot d i ty code mps s).ep d i = (s.ep d i).loaded d i code mps := by
  simp [activateSlot]

/-- The descriptor load leaves the buffering mode, which CONFIGURE alone writes (10_state.md R19). -/
@[simp] theorem EndpointRecord.loaded_buffering (e : EndpointRecord) (d : Direction) (i : Slot) (code : BitVec 8)
    (mps : Len) : (e.loaded d i code mps).buffering = e.buffering := rfl

/-! ### DEACTIVATE -/

theorem exec_deactivate (ea : EpAddr) (s : State) : exec (.deactivate ea) s = execDeactivate ea s := rfl

theorem exec_deactivate_of_names {s : State} {ea : EpAddr} {i : Slot} (hn : Names s ea.num i) :
    exec (.deactivate ea) s = .next ((deactivateSlot ea.dir i s).respond .ok) := by
  rw [exec_deactivate, execDeactivate_eq_next]
  exact ⟨hn.ready, i, hn.number.symm, hn.number ▸ hn.below, rfl⟩

@[simp] theorem deactivateSlot_reg_self (d : Direction) (i : Slot) (s : State) :
    (deactivateSlot d i s).reg i = (s.reg i).deactivated d (s.ep d i).buffering := by
  simp [deactivateSlot]

/-! ### The register, one direction at a time -/

/-- A direction at rest: status `Disabled` and toggle 0. -/
def EndpointRegister.AtRest (r : EndpointRegister) (d : Direction) : Prop := r.status d = .disabled ∧ r.toggle d = false

/-- The status and the toggle of a direction are the same in both registers. -/
def EndpointRegister.AgreeOn (d : Direction) (r q : EndpointRegister) : Prop :=
  r.status d = q.status d ∧ r.toggle d = q.toggle d

theorem EndpointRegister.AgreeOn.trans {d : Direction} {r q p : EndpointRegister} (h : AgreeOn d r q)
    (h' : AgreeOn d q p) : AgreeOn d r p :=
  ⟨h.1.trans h'.1, h.2.trans h'.2⟩

theorem EndpointRegister.deactivated_atRest_self (r : EndpointRegister) (d : Direction) (b : Buffering) :
    (r.deactivated d b).AtRest d := by
  cases b
  case single => cases d <;> exact ⟨rfl, rfl⟩
  case double => cases d <;> exact ⟨rfl, rfl⟩

theorem EndpointRegister.deactivated_double_atRest (r : EndpointRegister) (d d' : Direction) :
    (r.deactivated d .double).AtRest d' := by
  cases d' <;> exact ⟨rfl, rfl⟩

theorem EndpointRegister.deactivated_single_agreeOn (r : EndpointRegister) {d d' : Direction} (h : d' ≠ d) :
    AgreeOn d' (r.deactivated d .single) r := by
  cases d <;> cases d'
  case IN.OUT | OUT.IN => exact ⟨rfl, rfl⟩
  case IN.IN | OUT.OUT => exact absurd rfl h

theorem EndpointRegister.activated_single_agreeOn (r : EndpointRegister) {d d' : Direction} (i : Slot) (ty : EpType)
    (h : d' ≠ d) : AgreeOn d' (r.activated d i ty .single) r := by
  cases d <;> cases d'
  case IN.OUT | OUT.IN => exact ⟨rfl, rfl⟩
  case IN.IN | OUT.OUT => exact absurd rfl h

/-! ### One after the other -/

/-- ACTIVATE keeps the device context, so the slot it was given is named in the state it leaves. -/
theorem Names.activateSlot {s : State} {n : Nat} {i : Slot} (hn : Names s n i) (d : Direction) (ty : EpType)
    (code : BitVec 8) (mps : Len) : Names ((activateSlot d i ty code mps s).respond .ok) n i :=
  ⟨hn.ready, hn.number, hn.below⟩

theorem deactivateSlot_activateSlot_reg (d : Direction) (i : Slot) (ty : EpType) (code : BitVec 8) (mps : Len)
    (s : State) :
    ((deactivateSlot d i ((activateSlot d i ty code mps s).respond .ok)).respond .ok).reg i =
      ((s.reg i).activated d i ty (s.ep d i).buffering).deactivated d (s.ep d i).buffering := by
  simp

/-- Settles O30: both commands complete on the named slot, the second in the buffering mode of the first, so the register
is `deactivated` of `activated` in one mode. -/
theorem activateThenDeactivateLeavesDisabled : Obligations.ActivateThenDeactivateLeavesDisabled := by
  unfold Obligations.ActivateThenDeactivateLeavesDisabled
  intro s ea i ty mps hn hm
  refine ⟨_, _, exec_activate_of_names ty hn hm, exec_deactivate_of_names (hn.activateSlot ..), ?_⟩
  rw [deactivateSlot_activateSlot_reg]
  obtain ⟨hstatus, htoggle⟩ := EndpointRegister.deactivated_atRest_self
    ((s.reg i).activated ea.dir i ty (s.ep ea.dir i).buffering) ea.dir (s.ep ea.dir i).buffering
  refine ⟨hstatus, htoggle, ?double, ?single⟩
  case double =>
    intro hb d
    rw [hb]
    exact EndpointRegister.deactivated_double_atRest _ ea.dir d
  case single =>
    intro hb d hd
    rw [hb]
    exact (EndpointRegister.deactivated_single_agreeOn _ hd).trans
      (EndpointRegister.activated_single_agreeOn _ i ty hd)

end Sys2Proof.Machine
end

section
/-! The Transfer Scheduler: what START_TRANSFER answers on each path of the IN side and on the OUT single-buffer path
(43_scheduler.md R128 to R137), and the obligations about them. Every IN path begins alike, with a count-field check and a
packet (`checkedPacket`), so its refusals and its bytes are said once. -/

namespace Sys2Proof.Machine

/-! ### START_TRANSFER on a named slot -/

theorem exec_startTransfer (ea : EpAddr) (s : State) : exec (.startTransfer ea) s = execStartTransfer ea s := rfl

theorem exec_startTransfer_of_names {s : State} {n : Nat} {i : Slot} (d : Direction) (hn : Names s n i) :
    exec (.startTransfer ⟨d, n⟩) s = andThen (schedule d i s) answerOk := by
  rw [exec_startTransfer, execStartTransfer, requireReady_of hn.ready, withSlot_of i hn.number hn.below]

/-- A completed scheduling step, with what every path leaves unchanged (43_scheduler.md R142). -/
theorem exec_startTransfer_completes {s t : State} {d : Direction} {n : Nat} {i : Slot} (hn : Names s n i)
    (h : schedule d i s = .next t) :
    exec (.startTransfer ⟨d, n⟩) s = .next (t.respond .ok) ∧ OnlyTouches s (t.respond .ok) d i ∧
      KeepsHost s (t.respond .ok) ∧ (t.respond .ok).signals = s.signals := by
  have hk := schedule_keeps h
  refine ⟨?answer, hk.touches.respond .ok, fun x => ?host, hk.signals⟩
  case answer => rw [exec_startTransfer_of_names d hn, h]; rfl
  case host => rw [State.respond_hostByte, hostByte, hk.host, ← hostByte]

/-! ### The path of a record -/

theorem scheduleIn_single {i : Slot} {s : State} (hb : (s.ep .IN i).buffering = .single) :
    scheduleIn i s = inSingle i s := by
  simp [scheduleIn, hb]

theorem scheduleIn_bulk {i : Slot} {s : State} (hb : (s.ep .IN i).buffering = .double)
    (ht : (s.ep .IN i).epType = some .bulk) : scheduleIn i s = inDoubleBulk i s := by
  simp [scheduleIn, hb, ht]

theorem scheduleIn_isochronous {i : Slot} {s : State} (hb : (s.ep .IN i).buffering = .double)
    (ht : (s.ep .IN i).epType = some .isochronous) : scheduleIn i s = inDoubleIso i s := by
  simp [scheduleIn, hb, ht]

theorem scheduleIn_otherType {i : Slot} {s : State} (hb : (s.ep .IN i).buffering = .double)
    (ht : (s.ep .IN i).epType = some .control ∨ (s.ep .IN i).epType = some .interrupt) :
    scheduleIn i s = .refused .inDoubleOtherType := by
  rcases ht with ht | ht
  · simp [scheduleIn, hb, ht]
  · simp [scheduleIn, hb, ht]

theorem scheduleOut_single {i : Slot} {s : State} (hb : (s.ep .OUT i).buffering = .single) :
    scheduleOut i s = outSingle i s := by
  simp [scheduleOut, hb]

theorem inDoubleBulk_fills {i : Slot} {s : State}
    (h : (s.ep .IN i).maxPacketSize.toNat < (s.ep .IN i).remainingLengthSecondary.toNat) :
    inDoubleBulk i s = inDoubleFill i s := if_pos h

theorem inDoubleBulk_switches {i : Slot} {s : State}
    (h : (s.ep .IN i).remainingLengthSecondary.toNat ≤ (s.ep .IN i).maxPacketSize.toNat) :
    inDoubleBulk i s = inAutoSwitch i s := if_neg (Nat.not_lt.mpr h)

/-! ### Refusals of a packet -/

/-- One of the two refusals of a packet that is not admitted (20_memory.md R53, R55). -/
def PacketRefused (r : Result) : Prop := r = .refused .packetMemoryRange ∨ r = .refused .outsideCallerRegion

theorem PacketRefused.andThen {r : Result} (h : PacketRefused r) (f : State → Result) :
    PacketRefused (andThen r f) := by
  rcases h with rfl | rfl
  · exact .inl rfl
  · exact .inr rfl

theorem writePacket_refused {e : EndpointRecord} {cursor : HostAddr} {a : PmAddr} {len : Nat} {s : State}
    (h : ¬PacketAdmitted e cursor a len) : PacketRefused (writePacket e cursor a len s) :=
  pmaWrite_not_admitted h

theorem writePacket_of_admitted {e : EndpointRecord} {cursor : HostAddr} {a : PmAddr} {len : Nat}
    (h : PacketAdmitted e cursor a len) (s : State) :
    writePacket e cursor a len s = .next (afterWrite Config.oddWritePolicy e.region cursor a len s) :=
  pmaWrite_of h.1 h.2

/-- How every IN path begins: the length fits a count field, then one packet from the record's cursor. -/
def checkedPacket (e : EndpointRecord) (a : PmAddr) (len : Nat) (s : State) (k : State → Result) : Result :=
  if Config.countLimit ≤ len then .refused .countTooLarge
  else andThen (writePacket e e.transferBuffer a len s) k

section
variable {e : EndpointRecord} {a : PmAddr} {len : Nat} {s : State} {k : State → Result}

theorem checkedPacket_tooLong (h : Config.countLimit ≤ len) :
    checkedPacket e a len s k = .refused .countTooLarge := if_pos h

theorem checkedPacket_refused (hl : len < Config.countLimit) (h : ¬PacketAdmitted e e.transferBuffer a len) :
    PacketRefused (checkedPacket e a len s k) := by
  rw [checkedPacket, if_neg (Nat.not_le.mpr hl)]
  exact (writePacket_refused h).andThen k

theorem checkedPacket_of_admitted (hl : len < Config.countLimit) (h : PacketAdmitted e e.transferBuffer a len) :
    checkedPacket e a len s k = k (afterWrite Config.oddWritePolicy e.region e.transferBuffer a len s) := by
  rw [checkedPacket, if_neg (Nat.not_le.mpr hl), writePacket_of_admitted h, andThen_next]

end

theorem inSingle_eq_checkedPacket (i : Slot) (s : State) :
    inSingle i s = checkedPacket (s.ep .IN i) (s.ep .IN i).address (s.ep .IN i).packetLength s fun t =>
      .next ((t.setCount i false (s.ep .IN i).packetLength).setStatTx i .valid) := rfl

theorem inAutoSwitch_eq_checkedPacket (i : Slot) (s : State) :
    inAutoSwitch i s = checkedPacket (s.ep .IN i) (s.ep .IN i).address0 (s.ep .IN i).remainingLengthSecondary.toNat
      ((s.setKind i false).setCount i false (s.ep .IN i).remainingLengthSecondary.toNat) fun t =>
      .next ((t.updEp .IN i (fun r => { r with remainingLengthSecondary := 0 })).setStatTx i .valid) := rfl

theorem inDoubleIso_eq_checkedPacket (i : Slot) (s : State) :
    inDoubleIso i s = checkedPacket (s.ep .IN i) ((s.ep .IN i).bufferAddress (s.reg i).dtogTx)
      (s.ep .IN i).packetLength (s.setCount i (s.reg i).dtogTx (s.ep .IN i).packetLength) fun t =>
      .next ((t.updEp .IN i (fun r =>
        { r with remainingLengthSecondary :=
            satSub (s.ep .IN i).remainingLengthSecondary (s.ep .IN i).packetLength })).setStatTx i .valid) := rfl

/-! ### The bytes of a packet -/

theorem afterWrite_packetHolds {a : PmAddr} {len : Nat} (ha : admitted a len = true) (p : OddWritePolicy)
    (r : Option Region) (cursor : HostAddr) (s : State) :
    PacketHolds s (afterWrite p r cursor a len s) cursor a len := by
  intro k hk
  have hceil := two_ceilDiv2 len
  rw [afterWrite_pmByte, wordBase_of_admitted ha, if_pos (by omega), Nat.add_sub_cancel_left, if_pos hk]

theorem afterWrite_keepsPmOutside {a : PmAddr} {len : Nat} (ha : admitted a len = true) (p : OddWritePolicy)
    (r : Option Region) (cursor : HostAddr) (s : State) :
    KeepsPmOutside s (afterWrite p r cursor a len s) a.toNat (2 * ceilDiv2 len) := by
  intro y hy
  rw [afterWrite_pmByte, wordBase_of_admitted ha, if_neg (by omega)]

/-- A packet stays where it is while only bytes apart from it are written. -/
theorem PacketHolds.of_apart {s t u : State} {cursor : HostAddr} {a : PmAddr} {len x n : Nat}
    (h : PacketHolds s t cursor a len) (hu : KeepsPmOutside t u x n) (hx : Apart a.toNat len x n) :
    PacketHolds s u cursor a len := by
  intro k hk
  rw [hu _ (by unfold Apart at hx; omega), h k hk]

theorem PacketHolds.respond {s t : State} {cursor : HostAddr} {a : PmAddr} {len : Nat}
    (h : PacketHolds s t cursor a len) (r : Response) : PacketHolds s (t.respond r) cursor a len := h

/-! ### The paths that put one packet: R128, R132, R134 -/

/-- What an IN path of one packet answers. The path starts from `s'`, whose two memories read as those of `s`, and ends
with updates `finish` that move no byte. -/
theorem startTransfer_onePacket {s s' : State} {n : Nat} {i : Slot} {e : EndpointRecord} {a : PmAddr} {len : Nat}
    {finish : State → State} (hn : Names s n i)
    (hs : scheduleIn i s = checkedPacket e a len s' fun t => .next (finish t))
    (hpm : KeepsPm s s') (hhost : KeepsHost s s') (hfinish : ∀ t, KeepsPm t (finish t)) :
    (Config.countLimit ≤ len → exec (.startTransfer ⟨.IN, n⟩) s = .refused .countTooLarge) ∧
    (len < Config.countLimit → ¬PacketAdmitted e e.transferBuffer a len →
      PacketRefused (exec (.startTransfer ⟨.IN, n⟩) s)) ∧
    (len < Config.countLimit → PacketAdmitted e e.transferBuffer a len →
      ∃ t, t = (finish (afterWrite Config.oddWritePolicy e.region e.transferBuffer a len s')).respond .ok ∧
        exec (.startTransfer ⟨.IN, n⟩) s = .next t ∧ PacketHolds s t e.transferBuffer a len ∧
        KeepsPmOutside s t a.toNat (2 * ((len + 1) / 2)) ∧
        OnlyTouches s t .IN i ∧ KeepsHost s t ∧ t.signals = s.signals) := by
  have hx : exec (.startTransfer ⟨.IN, n⟩) s = _ := exec_startTransfer_of_names .IN hn
  rw [schedule, hs] at hx
  refine ⟨fun hl => ?tooLong, fun hl ha => ?refused, fun hl ha => ?done⟩
  case tooLong => rw [hx, checkedPacket_tooLong hl, andThen_refused]
  case refused =>
    rw [hx]
    exact (checkedPacket_refused hl ha).andThen _
  case done =>
    rw [checkedPacket_of_admitted hl ha] at hs
    obtain ⟨hanswer, hframe⟩ := exec_startTransfer_completes (d := .IN) hn hs
    refine ⟨_, rfl, hanswer, fun k hk => ?packet, fun y hy => ?outside, hframe⟩
    case packet =>
      rw [State.respond_pmByte, hfinish, afterWrite_packetHolds ha.1 _ _ _ _ k hk, hhost]
    case outside =>
      rw [State.respond_pmByte, hfinish, afterWrite_keepsPmOutside ha.1 _ _ _ _ y hy, hpm]

/-- Settles O33: the single-buffer path puts its packet first and writes count and status after it. -/
theorem inSingleStepArmsOnePacket : Obligations.InSingleStepArmsOnePacket := by
  unfold Obligations.InSingleStepArmsOnePacket
  rintro s n i _ _ hn rfl hb rfl
  obtain ⟨htooLong, hrefused, hdone⟩ := startTransfer_onePacket hn
    ((scheduleIn_single hb).trans (inSingle_eq_checkedPacket i s)) (fun _ => rfl) (fun _ => rfl) (fun _ _ => rfl)
  refine ⟨htooLong, hrefused, fun hl ha => ?_⟩
  obtain ⟨_, rfl, hanswer, hpacket, houtside, hframe⟩ := hdone hl ha
  refine ⟨_, hanswer, rfl, hpacket, houtside, ?table, ?reg, ?record, hframe⟩
  case table => simp [countOf, EndpointRecord.packetLength]
  case reg => simp
  case record => simp

/-- Settles O35: the switch writes kind and count before its packet, the record and the status after it. -/
theorem inDoubleBulkStepSwitchesAtTheLastPacket : Obligations.InDoubleBulkStepSwitchesAtTheLastPacket := by
  unfold Obligations.InDoubleBulkStepSwitchesAtTheLastPacket
  rintro s n i _ _ hn rfl hb ht rfl hm
  obtain ⟨htooLong, hrefused, hdone⟩ := startTransfer_onePacket hn
    (((scheduleIn_bulk hb ht).trans (inDoubleBulk_switches hm)).trans (inAutoSwitch_eq_checkedPacket i s))
    (fun _ => rfl) (fun _ => rfl) (fun _ _ => rfl)
  refine ⟨htooLong, hrefused, fun hl ha => ?_⟩
  obtain ⟨_, rfl, hanswer, hpacket, houtside, hframe⟩ := hdone hl ha
  refine ⟨_, hanswer, rfl, hpacket, houtside, ?table, ?reg, ?record, hframe⟩
  case table => simp [countOf]
  case reg => simp
  case record => simp

/-- Settles O36: the toggle chooses the buffer and its count; the packet is one, whatever is left. -/
theorem inDoubleIsoStepFillsTheFreeBuffer : Obligations.InDoubleIsoStepFillsTheFreeBuffer := by
  unfold Obligations.InDoubleIsoStepFillsTheFreeBuffer
  rintro s n i _ free _ hn rfl hb ht hfree rfl
  obtain ⟨htooLong, hrefused, hdone⟩ := startTransfer_onePacket hn
    ((scheduleIn_isochronous hb ht).trans (inDoubleIso_eq_checkedPacket i s))
    (fun _ => rfl) (fun _ => rfl) (fun _ _ => rfl)
  rw [← hfree] at hdone hrefused
  refine ⟨htooLong, hrefused, fun hl ha => ?_⟩
  obtain ⟨_, rfl, hanswer, hpacket, houtside, hframe⟩ := hdone hl ha
  refine ⟨_, hanswer, rfl, hpacket, houtside, ?tableTx, ?tableRx, ?reg, ?record, hframe⟩
  case tableTx => rintro rfl; simp [countOf, EndpointRecord.packetLength]
  case tableRx => rintro rfl; simp [countOf, EndpointRecord.packetLength]
  case reg => simp
  case record => simp [satSub, EndpointRecord.packetLength]

/-! ### The double fill: R131 -/

@[simp] theorem satSub_toNat (x : Len) (n : Nat) : (satSub x n).toNat = x.toNat - n := by
  rw [satSub, BitVec.toNat_ofNat]
  omega

theorem satSub_satSub (x : Len) (m n : Nat) : satSub (satSub x m) n = BitVec.ofNat 32 (x.toNat - m - n) := by
  rw [satSub, satSub_toNat]

theorem secondLength_eq (e : EndpointRecord) :
    secondLength e = min e.maxPacketSize.toNat (e.remainingLengthSecondary.toNat - e.maxPacketSize.toNat) := by
  rw [secondLength, satSub_toNat]

/-- The first packet of the double fill, into the free buffer, is admitted. -/
def FirstFillAdmitted (i : Slot) (s : State) : Prop :=
  PacketAdmitted (s.ep .IN i) (s.ep .IN i).transferBuffer ((s.ep .IN i).bufferAddress (s.reg i).dtogTx)
    (s.ep .IN i).maxPacketSize.toNat

/-- The second packet of the double fill, into the other buffer, is admitted. -/
def SecondFillAdmitted (i : Slot) (s : State) : Prop :=
  PacketAdmitted (s.ep .IN i) (addW (s.ep .IN i).transferBuffer (s.ep .IN i).maxPacketSize.toNat)
    ((s.ep .IN i).bufferAddress (!(s.reg i).dtogTx)) (secondLength (s.ep .IN i))

/-- After its first packet the double fill goes on to the second, which may be refused in its turn. -/
theorem inDoubleFill_eq_checkedPacket (i : Slot) (s : State) :
    ∃ k, inDoubleFill i s = checkedPacket (s.ep .IN i) ((s.ep .IN i).bufferAddress (s.reg i).dtogTx)
        (s.ep .IN i).maxPacketSize.toNat
        ((s.setKind i true).setCount i (s.reg i).dtogTx (s.ep .IN i).maxPacketSize.toNat) k ∧
      ∀ t, ¬SecondFillAdmitted i s → PacketRefused (k t) :=
  ⟨_, rfl, fun _ h => (writePacket_refused h).andThen _⟩

theorem inDoubleFill_tooLong {i : Slot} {s : State} (hl : Config.countLimit ≤ (s.ep .IN i).maxPacketSize.toNat) :
    inDoubleFill i s = .refused .countTooLarge := if_pos hl

theorem inDoubleFill_refused {i : Slot} {s : State} (hl : (s.ep .IN i).maxPacketSize.toNat < Config.countLimit)
    (h : ¬(FirstFillAdmitted i s ∧ SecondFillAdmitted i s)) : PacketRefused (inDoubleFill i s) := by
  obtain ⟨k, hfill, hk⟩ := inDoubleFill_eq_checkedPacket i s
  rw [hfill]
  by_cases hfirst : FirstFillAdmitted i s
  · rw [checkedPacket_of_admitted hl hfirst]
    exact hk _ fun hsecond => h ⟨hfirst, hsecond⟩
  · exact checkedPacket_refused hl hfirst

/-- The state after both fills. -/
def afterDoubleFill (i : Slot) (s : State) : State :=
  ((afterWrite Config.oddWritePolicy (s.ep .IN i).region
    (addW (s.ep .IN i).transferBuffer (s.ep .IN i).maxPacketSize.toNat)
    ((s.ep .IN i).bufferAddress (!(s.reg i).dtogTx)) (secondLength (s.ep .IN i))
    ((afterFirstFill i s).setCount i (!(s.reg i).dtogTx) (secondLength (s.ep .IN i)))).updEp .IN i (fun r =>
      { r with
        transferBuffer := addW (s.ep .IN i).transferBuffer (s.ep .IN i).maxPacketSize.toNat,
        remainingLengthSecondary :=
          satSub (satSub (s.ep .IN i).remainingLengthSecondary (s.ep .IN i).maxPacketSize.toNat)
            (secondLength (s.ep .IN i)) })).setStatTx i .valid

theorem inDoubleFill_of_admitted {i : Slot} {s : State} (hl : (s.ep .IN i).maxPacketSize.toNat < Config.countLimit)
    (hfirst : FirstFillAdmitted i s) (hsecond : SecondFillAdmitted i s) :
    inDoubleFill i s = .next (afterDoubleFill i s) :=
  inDoubleFill_eq_next.mpr ⟨hl, hfirst.1, hfirst.2, hsecond.1, hsecond.2, rfl⟩

theorem afterDoubleFill_table (i : Slot) (s : State) :
    (afterDoubleFill i s).table i =
      { s.table i with
        countTx := countOf
          (if (s.reg i).dtogTx then secondLength (s.ep .IN i) else (s.ep .IN i).maxPacketSize.toNat),
        countRx := countOf
          (if (s.reg i).dtogTx then (s.ep .IN i).maxPacketSize.toNat else secondLength (s.ep .IN i)) } := by
  cases hfree : (s.reg i).dtogTx
  case false => simp [afterDoubleFill, afterFirstFill, hfree]
  case true => simp [afterDoubleFill, afterFirstFill, hfree]

theorem afterDoubleFill_reg (i : Slot) (s : State) :
    (afterDoubleFill i s).reg i = { s.reg i with kind := true, statTx := .valid } := by
  simp [afterDoubleFill, afterFirstFill]

theorem afterDoubleFill_ep (i : Slot) (s : State) :
    (afterDoubleFill i s).ep .IN i =
      { s.ep .IN i with
        transferBuffer := addW (s.ep .IN i).transferBuffer (s.ep .IN i).maxPacketSize.toNat,
        remainingLengthSecondary :=
          satSub (satSub (s.ep .IN i).remainingLengthSecondary (s.ep .IN i).maxPacketSize.toNat)
            (secondLength (s.ep .IN i)) } := by
  rw [afterDoubleFill, State.setStatTx_ep, State.updEp_ep_self]
  rfl

theorem afterFirstFill_packetHolds {i : Slot} {s : State} (h : FirstFillAdmitted i s) :
    PacketHolds s (afterFirstFill i s) (s.ep .IN i).transferBuffer ((s.ep .IN i).bufferAddress (s.reg i).dtogTx)
      (s.ep .IN i).maxPacketSize.toNat :=
  afterWrite_packetHolds h.1 _ _ _ _

theorem afterFirstFill_keepsPmOutside {i : Slot} {s : State} (h : FirstFillAdmitted i s) :
    KeepsPmOutside s (afterFirstFill i s) ((s.ep .IN i).bufferAddress (s.reg i).dtogTx).toNat
      (2 * ceilDiv2 (s.ep .IN i).maxPacketSize.toNat) :=
  afterWrite_keepsPmOutside h.1 _ _ _ _

theorem afterDoubleFill_packetHolds {i : Slot} {s : State} (h : SecondFillAdmitted i s) :
    PacketHolds s (afterDoubleFill i s) (addW (s.ep .IN i).transferBuffer (s.ep .IN i).maxPacketSize.toNat)
      ((s.ep .IN i).bufferAddress (!(s.reg i).dtogTx)) (secondLength (s.ep .IN i)) :=
  afterWrite_packetHolds h.1 _ _ _ _

/-- The second fill writes its own range only. -/
theorem afterDoubleFill_keepsPmOutside {i : Slot} {s : State} (h : SecondFillAdmitted i s) :
    KeepsPmOutside (afterFirstFill i s) (afterDoubleFill i s)
      ((s.ep .IN i).bufferAddress (!(s.reg i).dtogTx)).toNat (2 * ceilDiv2 (secondLength (s.ep .IN i))) :=
  afterWrite_keepsPmOutside h.1 _ _ _ _

/-- Settles O34: the second packet is written over the state the first one left, so it is always there, and the first one
is when the two ranges are apart. -/
theorem inDoubleBulkStepFillsBothBuffers : Obligations.InDoubleBulkStepFillsBothBuffers := by
  unfold Obligations.InDoubleBulkStepFillsBothBuffers
  rintro s n i _ _ _ len2 hn rfl hb ht rfl hm rfl hlen2
  obtain rfl : len2 = secondLength (s.ep .IN i) := hlen2.trans (secondLength_eq _).symm
  have hpath : schedule .IN i s = inDoubleFill i s := (scheduleIn_bulk hb ht).trans (inDoubleBulk_fills hm)
  have hx : exec (.startTransfer ⟨.IN, n⟩) s = andThen (inDoubleFill i s) answerOk :=
    (exec_startTransfer_of_names .IN hn).trans (congrArg (andThen · answerOk) hpath)
  refine ⟨fun hl => ?tooLong, fun hl ha => ?refused, fun hl hfirst hsecond => ?done⟩
  case tooLong => rw [hx, inDoubleFill_tooLong hl, andThen_refused]
  case refused =>
    rw [hx]
    exact (inDoubleFill_refused hl ha).andThen _
  case done =>
    obtain ⟨hanswer, hframe⟩ := exec_startTransfer_completes hn
      (hpath.trans (inDoubleFill_of_admitted hl hfirst hsecond))
    have hsecondFrame := afterDoubleFill_keepsPmOutside hsecond
    refine ⟨_, hanswer, rfl, (afterDoubleFill_packetHolds hsecond).respond .ok, fun hapart => ?first,
      fun y hy hy' => ?outside, afterDoubleFill_table i s, afterDoubleFill_reg i s, ?record, hframe⟩
    case first => exact ((afterFirstFill_packetHolds hfirst).of_apart hsecondFrame hapart).respond .ok
    case outside => exact (hsecondFrame y hy').trans (afterFirstFill_keepsPmOutside hfirst y hy)
    case record => rw [State.respond_ep, afterDoubleFill_ep, satSub_satSub, addW]

/-- Settles O37: the dispatch itself refuses. -/
theorem inDoubleOtherTypeIsRefused : Obligations.InDoubleOtherTypeIsRefused := by
  unfold Obligations.InDoubleOtherTypeIsRefused
  intro s n i hn hb ht
  rw [exec_startTransfer_of_names .IN hn, schedule, scheduleIn_otherType hb ht, andThen_refused]

/-! ### The OUT single-buffer path: R136, R137 -/

/-- With nothing left the pre-decrement changes nothing. -/
theorem preDecremented_of_empty {e : EndpointRecord} (h : e.remainingLength = 0) :
    e.preDecremented = e.remainingLength := by
  rw [preDecremented_eq, h]
  exact if_neg BitVec.not_lt_zero

/-- Settles O38: one register and one record, whose new fields are the status stage and the pre-decrement. -/
theorem outSingleStepBooksOnePacket : Obligations.OutSingleStepBooksOnePacket := by
  unfold Obligations.OutSingleStepBooksOnePacket
  rintro s n i _ hn rfl hb
  have hpath : schedule .OUT i s = .next (outSingle i s) := congrArg _ (scheduleOut_single hb)
  obtain ⟨hpm, hbdt⟩ := scheduleOut_keeps i s
  rw [scheduleOut_single hb] at hpm hbdt
  obtain ⟨hanswer, htouches, hhost, hsignals⟩ := exec_startTransfer_completes hn hpath
  refine ⟨_, hanswer, rfl, fun hstage => ⟨?stageReg, ?stageRecord⟩,
    fun hstage => ⟨?reg, fun hmore => ?more, fun hlast => ?last⟩, ?table, htouches, fun x => ?pm, hhost, hsignals⟩
  case stageReg => rw [State.respond_reg, outSingle_reg, statusStage_eq, decide_eq_true hstage]
  case stageRecord => rw [State.respond_ep, outSingle_ep, preDecremented_of_empty hstage.1]
  case reg => rw [State.respond_reg, outSingle_reg, statusStage_eq, decide_eq_false hstage]
  case more => rw [State.respond_ep, outSingle_ep, preDecremented_eq, if_pos hmore]
  case last => rw [State.respond_ep, outSingle_ep, preDecremented_eq, if_neg hlast]
  case table => rw [State.respond_table, State.table, hbdt, ← State.table]
  case pm => rw [State.respond_pmByte, pmByte, hpm, ← pmByte]

end Sys2Proof.Machine
end

section
/-! Controller Bring-up: the checks of INIT (44_bringup.md R146), what the operand-less commands write in a Ready block
(R151, R152, R154, R156, R157), and the interrupt output once the enables are written together (10_state.md R36, R39). -/

namespace Sys2Proof.Machine

/-! ### The checks of INIT -/

theorem exec_init (c : BitVec 8) (handlePresent instancePresent : Bool) (s : State) :
    exec (.init c handlePresent instancePresent) s = execInit c handlePresent instancePresent s := rfl

theorem exec_init_noHandle (c : BitVec 8) (instancePresent : Bool) (s : State) :
    exec (.init c false instancePresent) s = .next (s.respond .nullHandle) := by
  rw [exec_init, execInit_eq_next]
  exact .inl ⟨rfl, rfl⟩

theorem exec_init_noInstance (c : BitVec 8) (s : State) :
    exec (.init c true false) s = .next (s.respond .nullInstance) := by
  rw [exec_init, execInit_eq_next]
  exact .inr (.inl ⟨rfl, rfl, rfl⟩)

theorem exec_init_tooMany {c : BitVec 8} (h : Config.N < c.toNat) (s : State) :
    exec (.init c true true) s = .refused .countExceedsSlots := by
  rw [exec_init, execInit]
  exact if_pos h

/-- Settles O43: the three checks, each reached when those before it pass. -/
theorem initErrorsChangeNothing : Obligations.InitErrorsChangeNothing := by
  unfold Obligations.InitErrorsChangeNothing
  exact ⟨rfl, rfl, fun s c =>
    ⟨fun ip => exec_init_noHandle c ip s, exec_init_noInstance c s, fun h => exec_init_tooMany h s⟩⟩

/-! ### The operand-less commands in a Ready block -/

theorem exec_enableInterrupts_of_ready {s : State} (hr : s.dev.state = .ready) :
    exec .enableInterrupts s = .next ((s.writeEnables true).respond .ok) :=
  execEnableInterrupts_eq_next.mpr ⟨hr, rfl⟩

theorem exec_disableInterrupts_of_ready {s : State} (hr : s.dev.state = .ready) :
    exec .disableInterrupts s = .next ((s.writeEnables false).respond .ok) :=
  execDisableInterrupts_eq_next.mpr ⟨hr, rfl⟩

theorem exec_start_of_ready {s : State} (hr : s.dev.state = .ready) :
    exec .start s = .next ({ s.writeEnables true with pullup := true }.respond .ok) :=
  execStart_eq_next.mpr ⟨hr, rfl⟩

theorem exec_activateRemoteWakeup_of_ready {s : State} (hr : s.dev.state = .ready) :
    exec .activateRemoteWakeup s = .next ((s.writeResume true).respond .ok) :=
  execActivateRemoteWakeup_eq_next.mpr ⟨hr, rfl⟩

theorem exec_deactivateRemoteWakeup_of_ready {s : State} (hr : s.dev.state = .ready) :
    exec .deactivateRemoteWakeup s = .next ((s.writeResume false).respond .ok) :=
  execDeactivateRemoteWakeup_eq_next.mpr ⟨hr, rfl⟩

/-- Settles O45: the four next states, each with its one write of `cntr`. -/
theorem enablesPullUpAndResumeAreWritten : Obligations.EnablesPullUpAndResumeAreWritten := by
  unfold Obligations.EnablesPullUpAndResumeAreWritten
  intro s hr
  exact ⟨exec_enableInterrupts_of_ready hr, exec_start_of_ready hr, exec_activateRemoteWakeup_of_ready hr,
    exec_deactivateRemoteWakeup_of_ready hr⟩

/-! ### The interrupt output after the enables are written together -/

@[simp] theorem State.writeEnables_dev (s : State) (v : Bool) : (s.writeEnables v).dev = s.dev := rfl
@[simp] theorem State.writeEnables_istr (s : State) (v : Bool) : (s.writeEnables v).istr = s.istr := rfl
@[simp] theorem State.writeEnables_reg (s : State) (v : Bool) (i : Slot) : (s.writeEnables v).reg i = s.reg i := rfl
@[simp] theorem irq_respond (s : State) (r : Response) : irq (s.respond r) = irq s := rfl

theorem istrCtr_iff {s : State} : istrCtr s = true ↔ ∃ i : Slot, (s.reg i).ctrTx = true ∨ (s.reg i).ctrRx = true := by
  rw [istrCtr, Vector.any_toList, Vector.any_eq_true, Fin.exists_iff]
  simp [State.reg]

/-- Some source is pending, enabled or not: a completion flag or a stored flag (10_state.md R36). -/
def SomePending (s : State) : Prop :=
  (∃ i : Slot, (s.reg i).ctrTx = true ∨ (s.reg i).ctrRx = true) ∨ s.istr.wkup = true ∨ s.istr.susp = true ∨
    s.istr.err = true ∨ s.istr.sof = true ∨ s.istr.esof = true ∨ s.istr.reset = true ∨ s.istr.l1req = true

theorem irq_writeEnables_false (s : State) : irq (s.writeEnables false) = false := by
  simp [irq, State.writeEnables, ControlRegister.setEnables]

theorem irq_writeEnables_true_iff {s : State} : irq (s.writeEnables true) = true ↔ SomePending s := by
  have hctr : istrCtr (s.writeEnables true) = istrCtr s := rfl
  rw [SomePending, ← istrCtr_iff, irq, hctr]
  simp [State.writeEnables, ControlRegister.setEnables, or_assoc]

/-- Settles O46: with every enable clear no source reaches `irq`; writing enables and answering changes no flag, so with
every enable set `irq` is high for exactly the sources that were pending at the start. -/
theorem maskedSourceRaisesIrqWhenEnabled : Obligations.MaskedSourceRaisesIrqWhenEnabled := by
  unfold Obligations.MaskedSourceRaisesIrqWhenEnabled
  intro s hr
  have hdisable := exec_disableInterrupts_of_ready hr
  have henable := exec_enableInterrupts_of_ready (s := (s.writeEnables false).respond .ok) hr
  refine ⟨_, _, hdisable, henable, rfl, ?masked, ?raised⟩
  case masked => rw [irq_respond, irq_writeEnables_false]
  case raised =>
    rw [irq_respond, irq_writeEnables_true_iff, SomePending]
    simp only [State.respond_reg, State.respond_istr, State.writeEnables_reg, State.writeEnables_istr]

end Sys2Proof.Machine
end

section
/-! Requests: SEND and RECEIVE as their bookkeeping and one START_TRANSFER (45_requests_completion.md R161, R163). The wire
agent: what its steps never write (R177). -/

namespace Sys2Proof.Machine

/-! ### Requests -/

theorem exec_send (n : Nat) (buf : HostAddr) (len : Len) (s : State) :
    exec (.send n buf len) s = request .IN n buf len s := rfl

theorem exec_receive (n : Nat) (buf : HostAddr) (len : Len) (s : State) :
    exec (.receive n buf len) s = request .OUT n buf len s := rfl

theorem request_beyond {s : State} {n : Nat} (hr : s.dev.state = .ready) (hc : s.dev.count.toNat ≤ n) (d : Direction)
    (buf : HostAddr) (len : Len) : request d n buf len s = .refused .slotOutOfRange := by
  rw [request, requireReady_of hr, withSlot_beyond hc]

/-- Writing a record changes no name. -/
theorem Names.updEp {s : State} {n : Nat} {j : Slot} (h : Names s n j) (d : Direction) (i : Slot)
    (f : EndpointRecord → EndpointRecord) : Names (s.updEp d i f) n j :=
  ⟨h.ready, h.number, h.below⟩

/-- The two gates pass before the bookkeeping exactly as they pass after it. -/
theorem request_of_names {s : State} {n : Nat} {i : Slot} (hn : Names s n i) (d : Direction) (buf : HostAddr)
    (len : Len) :
    request d n buf len s = exec (.startTransfer ⟨d, n⟩) (s.updEp d i (·.requested buf len)) := by
  rw [request, requireReady_of hn.ready, withSlot_of i hn.number hn.below,
    exec_startTransfer_of_names d (hn.updEp d i _)]

/-- Settles O47: both commands are one request, of the IN or of the OUT record. -/
theorem requestIsBookkeepingThenOneStep : Obligations.RequestIsBookkeepingThenOneStep := by
  unfold Obligations.RequestIsBookkeepingThenOneStep
  intro s n buf len hr
  refine ⟨fun hc => ⟨?sendBeyond, ?receiveBeyond⟩, fun i hn => ⟨?send, ?receive⟩⟩
  case sendBeyond => rw [exec_send, request_beyond hr hc]
  case receiveBeyond => rw [exec_receive, request_beyond hr hc]
  case send => exact (exec_send n buf len s).trans (request_of_names hn .IN buf len)
  case receive => exact (exec_receive n buf len s).trans (request_of_names hn .OUT buf len)

/-! ### What a sent and a stored packet write -/

theorem sendPacket_reg (i j : Slot) (s : State) :
    (sendPacket i s).reg j = if j = i then (s.reg i).afterTx else s.reg j :=
  State.updReg_reg s i j _

theorem storePacket_reg (i j : Slot) (bytes : List Byte) (s : State) :
    (storePacket i bytes s).reg j = if j = i then (s.reg i).afterRx else s.reg j :=
  State.updReg_reg _ i j _

theorem storePacket_table (i j : Slot) (bytes : List Byte) (s : State) :
    (storePacket i bytes s).table j =
      if j = i then { s.table i with countRx := countOf bytes.length } else s.table j := by
  simp [storePacket, State.updTable_table]

/-! ### The frame of the wire agent: R177 -/

/-- What a wire step keeps of a register `r`: type and kind; no completion flag falls, no direction is armed. -/
structure EndpointRegister.KeptByWire (r r' : EndpointRegister) : Prop where
  epType : r'.epType = r.epType
  kind : r'.kind = r.kind
  ctrTx : r.ctrTx = true → r'.ctrTx = true
  ctrRx : r.ctrRx = true → r'.ctrRx = true
  statTx : r'.statTx = .valid → r.statTx = .valid
  statRx : r'.statRx = .valid → r.statRx = .valid

theorem EndpointRegister.KeptByWire.refl (r : EndpointRegister) : r.KeptByWire r := ⟨rfl, rfl, id, id, id, id⟩

/-- After a sent packet the status is Nak, so not Valid, and the flag is set. -/
theorem EndpointRegister.keptByWire_afterTx (r : EndpointRegister) : r.KeptByWire r.afterTx :=
  ⟨rfl, rfl, fun _ => rfl, id, nofun, id⟩

theorem EndpointRegister.keptByWire_afterRx (r : EndpointRegister) : r.KeptByWire r.afterRx :=
  ⟨rfl, rfl, id, fun _ => rfl, id, nofun⟩

/-- What a wire step keeps of a table entry: all but the count of received bytes. -/
structure BdtEntry.KeptByWire (b b' : BdtEntry) : Prop where
  addrTx : b'.addrTx = b.addrTx
  addrRx : b'.addrRx = b.addrRx
  countTx : b'.countTx = b.countTx

/-- What a step of the wire agent keeps of the state. -/
structure KeptByWire (s t : State) : Prop where
  records : KeepsRecords s t
  dev : t.dev = s.dev
  cntr : t.cntr = s.cntr
  btable : t.btable = s.btable
  pullup : t.pullup = s.pullup
  host : KeepsHost s t
  regs : ∀ j, (s.reg j).KeptByWire (t.reg j)
  table : ∀ j, (s.table j).KeptByWire (t.table j)

theorem KeptByWire.refl (s : State) : KeptByWire s s :=
  ⟨fun _ _ => rfl, rfl, rfl, rfl, rfl, fun _ => rfl, fun _ => .refl _, fun _ => ⟨rfl, rfl, rfl⟩⟩

/-- A signal is on the wire only. -/
theorem KeptByWire.emit {s t : State} (h : KeptByWire s t) (x : Signal) : KeptByWire s (t.emit x) :=
  ⟨h.records, h.dev, h.cntr, h.btable, h.pullup, h.host, h.regs, h.table⟩

theorem keptByWire_sendPacket (i : Slot) (s : State) : KeptByWire s (sendPacket i s) := by
  refine { KeptByWire.refl s with regs := fun j => ?_ }
  rw [sendPacket_reg]
  split
  case isTrue hj => exact hj ▸ (s.reg i).keptByWire_afterTx
  case isFalse => exact .refl _

theorem keptByWire_storePacket (i : Slot) (bytes : List Byte) (s : State) : KeptByWire s (storePacket i bytes s) := by
  refine { KeptByWire.refl s with regs := fun j => ?regs, table := fun j => ?table }
  case regs =>
    rw [storePacket_reg]
    split
    case isTrue hj => exact hj ▸ (s.reg i).keptByWire_afterRx
    case isFalse => exact .refl _
  case table =>
    rw [storePacket_table]
    split
    case isTrue hj => subst hj; exact ⟨rfl, rfl, rfl⟩
    case isFalse => exact ⟨rfl, rfl, rfl⟩

theorem wireIn_keeps {n : Nat} {s t : State} (h : wireIn n s = .next t) : KeptByWire s t := by
  obtain ⟨i, _, _, ⟨_, _, rfl⟩ | ⟨_, _, rfl⟩⟩ := wireIn_eq_next h
  · exact (KeptByWire.refl s).emit _
  · exact (keptByWire_sendPacket i s).emit _

theorem lateWireIn_keeps {n : Nat} {s t : State} (h : lateWireIn n s = .next t) : KeptByWire s t := by
  obtain ⟨i, _, _, _, _, _, rfl⟩ := lateWireIn_eq_next h
  exact (keptByWire_sendPacket i s).emit _

theorem wireOut_keeps {n : Nat} {bytes : List Byte} {s t : State} (h : wireOut n bytes s = .next t) :
    KeptByWire s t := by
  obtain ⟨i, _, _, ⟨_, rfl⟩ | ⟨_, _, _, _, _, rfl⟩⟩ := wireOut_eq_next h
  · exact (KeptByWire.refl s).emit _
  · exact keptByWire_storePacket i bytes s

theorem lateWireOut_keeps {n : Nat} {bytes : List Byte} {s t : State} (h : lateWireOut n bytes s = .next t) :
    KeptByWire s t := by
  obtain ⟨i, _, _, _, _, ⟨_, rfl⟩ | ⟨_, _, _, _, rfl⟩⟩ := lateWireOut_eq_next h
  · exact (KeptByWire.refl s).emit _
  · exact keptByWire_storePacket i bytes s

/-- Settles O16: a wire step signals, sends a packet or stores one, and each of the three stays inside `KeptByWire`. -/
theorem wireAgentWritesOnlyItsFields : Obligations.WireAgentWritesOnlyItsFields := by
  unfold Obligations.WireAgentWritesOnlyItsFields
  intro s t n bytes h
  have hk : KeptByWire s t := by
    rcases h with h | h | h | h
    · exact wireIn_keeps h
    · exact wireOut_keeps h
    · exact lateWireIn_keeps h
    · exact lateWireOut_keeps h
  refine ⟨hk.records, hk.dev, hk.cntr, hk.btable, hk.pullup, hk.host, fun i => ?_⟩
  obtain ⟨hepType, hkind, hctrTx, hctrRx, hstatTx, hstatRx⟩ := hk.regs i
  obtain ⟨haddrTx, haddrRx, hcountTx⟩ := hk.table i
  exact ⟨hepType, hkind, haddrTx, haddrRx, hcountTx, hctrTx, hctrRx, hstatTx, hstatRx⟩

end Sys2Proof.Machine
end

section
/-! Exceptions: which commands the gate on `dev.state` guards (60_exceptions.md R188), and the obligation. -/

namespace Sys2Proof.Machine

/-- Every command but INIT has the gate on `dev.state` as its outermost test, so no other check of the command can
answer before it. -/
theorem exec_eq_requireReady {i : Instr} (hi : ∀ c hp ip, i ≠ .init c hp ip) (s : State) :
    ∃ k, exec i s = requireReady s k := by
  cases i
  case init c hp ip => exact absurd rfl (hi c hp ip)
  all_goals exact ⟨_, rfl⟩

theorem exec_of_not_ready {i : Instr} {s : State} (hs : s.dev.state ≠ .ready) (hi : ∀ c hp ip, i ≠ .init c hp ip) :
    exec i s = .refused .notReady := by
  obtain ⟨k, hk⟩ := exec_eq_requireReady hi s
  rw [hk, requireReady_not hs]

/-- INIT past its three checks, in every `dev.state` (44_bringup.md R147). -/
theorem exec_init_of_fits {c : BitVec 8} (hc : c.toNat ≤ Config.N) (s : State) :
    exec (.init c true true) s = .next ((initEffects c s).respond .ok) := by
  rw [exec_init, execInit_eq_next]
  exact .inr (.inr ⟨rfl, rfl, hc, rfl⟩)

@[simp] theorem initEffects_dev (c : BitVec 8) (s : State) :
    (initEffects c s).dev = { state := .ready, address := 0, count := c } := rfl

/-- Settles O10: the gate refuses every other command, and INIT, which has no gate, ends by writing `Ready`. -/
theorem onlyInitRunsUnlessReady : Obligations.OnlyInitRunsUnlessReady := by
  unfold Obligations.OnlyInitRunsUnlessReady
  refine ⟨fun i s hs hi => exec_of_not_ready hs hi, fun s c hc => ?init⟩
  case init =>
    refine ⟨_, exec_init_of_fits hc s, State.respond_response .., ?ready⟩
    case ready => rw [State.respond_dev, initEffects_dev]

end Sys2Proof.Machine
end

section
/-! The decoder read from its result: `Reads w i` says of each row which fields of `w` the operands of `i` are
(30_encoding.md R80 to R89), and the obligations about words. -/

namespace Sys2Proof

/-! ### What a word that decodes says -/

/-- The must-be-zero bits and the operands of the row of `i`, as the fields of `w` give them. -/
def Reads (w : CommandWord) : Instr → Prop
  | .configure ea target => opField w = 0x01 ∧ (bField w).extractLsb' 1 31 = 0 ∧ ea = epAddrOf (aField w) ∧
      target = memTargetOf ((bField w).getLsbD 0) (cField w)
  | .write buffer address n => opField w = 0x02 ∧ aField w = 0 ∧ buffer = bField w ∧ address = lowHalf (cField w) ∧
      n = highHalf (cField w)
  | .read address buffer n => opField w = 0x03 ∧ aField w = 0 ∧ buffer = bField w ∧ address = lowHalf (cField w) ∧
      n = highHalf (cField w)
  | .activate ea code mps => opField w = 0x04 ∧ (bField w).extractLsb' 8 24 = 0 ∧ ea = epAddrOf (aField w) ∧
      code = (bField w).extractLsb' 0 8 ∧ mps = cField w
  | .deactivate ea => opField w = 0x05 ∧ bField w = 0 ∧ cField w = 0 ∧ ea = epAddrOf (aField w)
  | .stall ea => opField w = 0x06 ∧ bField w = 0 ∧ cField w = 0 ∧ ea = epAddrOf (aField w)
  | .startTransfer ea => opField w = 0x07 ∧ bField w = 0 ∧ cField w = 0 ∧ ea = epAddrOf (aField w)
  | .init count hp ip => opField w = 0x08 ∧ (bField w).extractLsb' 2 30 = 0 ∧ cField w = 0 ∧ count = aField w ∧
      hp = (bField w).getLsbD 0 ∧ ip = (bField w).getLsbD 1
  | .enableInterrupts => opField w = 0x09 ∧ aField w = 0 ∧ bField w = 0 ∧ cField w = 0
  | .disableInterrupts => opField w = 0x0A ∧ aField w = 0 ∧ bField w = 0 ∧ cField w = 0
  | .start => opField w = 0x0B ∧ aField w = 0 ∧ bField w = 0 ∧ cField w = 0
  | .activateRemoteWakeup => opField w = 0x0C ∧ aField w = 0 ∧ bField w = 0 ∧ cField w = 0
  | .deactivateRemoteWakeup => opField w = 0x0D ∧ aField w = 0 ∧ bField w = 0 ∧ cField w = 0
  | .send n buffer len => opField w = 0x0E ∧ n = numberOf (aField w) ∧ buffer = bField w ∧ len = cField w
  | .receive n buffer len => opField w = 0x0F ∧ n = numberOf (aField w) ∧ buffer = bField w ∧ len = cField w
  | .completeIn n => opField w = 0x10 ∧ bField w = 0 ∧ cField w = 0 ∧ n = numberOf (aField w)
  | .completeOut n => opField w = 0x11 ∧ bField w = 0 ∧ cField w = 0 ∧ n = numberOf (aField w)

theorem ifZero_eq_ok {op : BitVec 8} {zero : Bool} {i j : Instr} :
    ifZero op zero i = .ok j ↔ zero = true ∧ i = j := by
  cases zero <;> simp [ifZero]

/-- Every row but SEND and RECEIVE checks its must-be-zero bits and answers; the next row is asked only of another
`OP`. -/
theorem decodeRow_eq_ok {op op' : BitVec 8} {zero : Bool} {j i : Instr} {next : Except DecodeError Instr} :
    (if op = op' then ifZero op zero j else next) = .ok i ↔
      (op = op' ∧ zero = true ∧ j = i) ∨ (op ≠ op' ∧ next = .ok i) := by
  rw [ite_eq_iff, ifZero_eq_ok]

/-- The decode procedure, read from its result (30_encoding.md R89). -/
theorem reads_of_decode {w : CommandWord} {i : Instr} (h : decode w = .ok i) : Reads w i := by
  unfold decode at h
  iterate 13
    rcases decodeRow_eq_ok.mp h with ⟨hop, hzero, rfl⟩ | ⟨-, h⟩
    · simpa [Reads, hop, and_assoc] using hzero
  iterate 2
    rcases ite_eq_iff.mp h with ⟨hop, h⟩ | ⟨-, h⟩
    · cases h
      simp [Reads, hop]
  iterate 2
    rcases decodeRow_eq_ok.mp h with ⟨hop, hzero, rfl⟩ | ⟨-, h⟩
    · simpa [Reads, hop, and_assoc] using hzero
  cases h

theorem decode_of_reads {w : CommandWord} {i : Instr} (h : Reads w i) : decode w = .ok i := by
  cases i
  all_goals
    unfold Reads at h
    simp [decode, ifZero, h]

theorem decode_eq_ok_iff {w : CommandWord} {i : Instr} : decode w = .ok i ↔ Reads w i :=
  ⟨reads_of_decode, decode_of_reads⟩

/-! ### What the encoder writes -/

theorem numberFits_iff {n : Nat} : numberFits n = true ↔ n < 128 := decide_eq_true_iff

/-- The two flags of INIT in the low bits of field `B` (30_encoding.md R80). -/
theorem presence_bits (hp ip : Bool) :
    ((0 : BitVec 30) ++ BitVec.ofBool ip ++ BitVec.ofBool hp : BitVec 32).extractLsb' 2 30 = 0 ∧
      ((0 : BitVec 30) ++ BitVec.ofBool ip ++ BitVec.ofBool hp : BitVec 32).getLsbD 0 = hp ∧
      ((0 : BitVec 30) ++ BitVec.ofBool ip ++ BitVec.ofBool hp : BitVec 32).getLsbD 1 = ip := by
  revert hp ip
  decide

theorem typeCode_bits (code : BitVec 8) :
    ((0 : BitVec 24) ++ code : BitVec 32).extractLsb' 8 24 = 0 ∧
      ((0 : BitVec 24) ++ code : BitVec 32).extractLsb' 0 8 = code :=
  ⟨(extract_above (0 : BitVec 24) code 0 24).trans (extract_all _), extract_low (0 : BitVec 24) code⟩

/-- The fields the encoder packs are those the row reads. -/
theorem reads_encode {i : Instr} (hw : WellFormed i) : Reads (encode i) i := by
  cases i
  case configure ea target =>
    have hn := numberFits_iff.mp hw
    cases target
    case single a => simp [Reads, encode, encodeConfigure, memTargetOf, hn]
    case double a0 a1 => simp [Reads, encode, encodeConfigure, memTargetOf, hn]
  case activate ea code mps =>
    obtain ⟨hzero, hcode⟩ := typeCode_bits code
    simp only [Reads, encode, opField_pack, aField_pack, bField_pack, cField_pack]
    exact ⟨trivial, hzero, (epAddrOf_encodeEpAddr ea (numberFits_iff.mp hw)).symm, hcode.symm, trivial⟩
  case init count hp ip =>
    obtain ⟨hzero, hhandle, hpointer⟩ := presence_bits hp ip
    simp only [Reads, encode, opField_pack, aField_pack, bField_pack, cField_pack]
    exact ⟨trivial, hzero, trivial, trivial, hhandle.symm, hpointer.symm⟩
  case deactivate ea | stall ea | startTransfer ea => simp [Reads, encode, numberFits_iff.mp hw]
  case send n b l | receive n b l | completeIn n | completeOut n => simp [Reads, encode, numberFits_iff.mp hw]
  all_goals simp [Reads, encode]

/-- Settles O1: the encoded word reads as the instruction. -/
theorem encodedCommandDecodesToItself : Obligations.EncodedCommandDecodesToItself := by
  unfold Obligations.EncodedCommandDecodesToItself
  exact fun i hw => decode_of_reads (reads_encode hw)

/-! ### The encoding of what a word reads as -/

theorem pack_eq_and_iff {op a : BitVec 8} {b c : BitVec 32} {w : CommandWord} {ma : BitVec 8} {mb mc : BitVec 32} :
    pack op a b c = w &&& pack 0xFF ma mb mc ↔
      op = opField w ∧ a = aField w &&& ma ∧ b = bField w &&& mb ∧ c = cField w &&& mc := by
  conv => lhs; rhs; lhs; rw [← pack_fields w]
  rw [pack_and, show opField w &&& 0xFF = opField w from BitVec.and_allOnes]
  constructor
  · intro h
    exact ⟨by simpa using congrArg opField h, by simpa using congrArg aField h, by simpa using congrArg bField h,
      by simpa using congrArg cField h⟩
  · rintro ⟨rfl, rfl, rfl, rfl⟩
    rfl

/-- No bit of the row is ignored. -/
theorem mask_all : (0xFFFFFFFFFFFFFFFFFFFF : CommandWord) = pack 0xFF 0xFF 0xFFFFFFFF 0xFFFFFFFF := by decide

/-- The ignored bit of an endpoint number is `A[7]`. -/
theorem mask_number : (0xFF7FFFFFFFFFFFFFFFFF : CommandWord) = pack 0xFF 0x7F 0xFFFFFFFF 0xFFFFFFFF := by decide

/-- The ignored half of a single address is `C[31:16]`. -/
theorem mask_single : (0xFFFFFFFFFFFF0000FFFF : CommandWord) = pack 0xFF 0xFF 0xFFFFFFFF 0xFFFF := by decide

theorem and_all_8 (x : BitVec 8) : x &&& 0xFF = x := BitVec.and_allOnes

theorem and_all_32 (x : BitVec 32) : x &&& 0xFFFFFFFF = x := BitVec.and_allOnes

theorem encodeNumber_numberOf (a : BitVec 8) : encodeNumber (numberOf a) = a &&& 0x7F := by
  revert a
  decide

theorem and_lowHalf (c : BitVec 32) : c &&& 0xFFFF = (0 : BitVec 16) ++ lowHalf c := by
  rw [← halves_append c, lowHalf_append]
  have h := BitVec.and_append (x₁ := highHalf c) (y₁ := lowHalf c) (x₂ := (0 : BitVec 16)) (y₂ := 0xFFFF)
  rw [show highHalf c &&& 0 = 0 from BitVec.and_zero,
    show lowHalf c &&& 0xFFFF = lowHalf c from BitVec.and_allOnes] at h
  exact h

/-- A field whose upper bits are zero is its low bit. -/
theorem bit_of_upper_zero {b : BitVec 32} (h : b.extractLsb' 1 31 = 0) :
    b = if b.getLsbD 0 then 1 else 0 := by
  have hb := extract_append (n := 31) (m := 1) b
  rw [h] at hb
  rw [← hb]
  generalize b.extractLsb' 0 1 = x
  revert x
  decide

theorem typeCode_of_upper_zero {b : BitVec 32} (h : b.extractLsb' 8 24 = 0) :
    (0 : BitVec 24) ++ b.extractLsb' 0 8 = b := by
  have hb := extract_append (n := 24) (m := 8) b
  rwa [h] at hb

theorem presence_of_upper_zero {b : BitVec 32} (h : b.extractLsb' 2 30 = 0) :
    (0 : BitVec 30) ++ BitVec.ofBool (b.getLsbD 1) ++ BitVec.ofBool (b.getLsbD 0) = b := by
  have hb := extract_append (n := 30) (m := 2) b
  rw [h] at hb
  rw [← hb]
  generalize b.extractLsb' 0 2 = x
  revert x
  decide

theorem epAddrOf_numberFits (a : BitVec 8) : numberFits (epAddrOf a).num = true := numberFits_iff.mpr (numberOf_lt a)

theorem wellFormed_of_reads {w : CommandWord} {i : Instr} (h : Reads w i) : WellFormed i := by
  cases i
  case configure | activate =>
    obtain ⟨_, _, rfl, _⟩ := h
    exact epAddrOf_numberFits _
  case deactivate | stall | startTransfer =>
    obtain ⟨_, _, _, rfl⟩ := h
    exact epAddrOf_numberFits _
  case send | receive =>
    obtain ⟨_, rfl, _⟩ := h
    exact numberFits_iff.mpr (numberOf_lt _)
  case completeIn | completeOut =>
    obtain ⟨_, _, _, rfl⟩ := h
    exact numberFits_iff.mpr (numberOf_lt _)
  all_goals rfl

theorem encode_of_reads {w : CommandWord} {i : Instr} (h : Reads w i) : encode i = w &&& meaningfulBits i := by
  cases i
  case configure ea target =>
    obtain ⟨hop, hzero, rfl, rfl⟩ := h
    have hb := bit_of_upper_zero hzero
    cases hk : (bField w).getLsbD 0
    case false =>
      rw [hk] at hb
      simp only [encode, memTargetOf, encodeConfigure, meaningfulBits, if_neg Bool.false_ne_true, mask_single]
      exact pack_eq_and_iff.mpr ⟨hop.symm, by rw [encodeEpAddr_epAddrOf, and_all_8], by rw [and_all_32]; exact hb.symm,
        (and_lowHalf _).symm⟩
    case true =>
      rw [hk] at hb
      simp only [encode, memTargetOf, encodeConfigure, meaningfulBits, if_true, mask_all]
      exact pack_eq_and_iff.mpr ⟨hop.symm, by rw [encodeEpAddr_epAddrOf, and_all_8], by rw [and_all_32]; exact hb.symm,
        by rw [halves_append, and_all_32]⟩
  case activate ea code mps =>
    obtain ⟨hop, hzero, rfl, rfl, rfl⟩ := h
    rw [meaningfulBits, mask_all]
    exact pack_eq_and_iff.mpr ⟨hop.symm, by rw [encodeEpAddr_epAddrOf, and_all_8],
      by rw [typeCode_of_upper_zero hzero, and_all_32], (and_all_32 _).symm⟩
  case init count hp ip =>
    obtain ⟨hop, hzero, hc, rfl, rfl, rfl⟩ := h
    rw [meaningfulBits, mask_all]
    exact pack_eq_and_iff.mpr ⟨hop.symm, (and_all_8 _).symm,
      by rw [presence_of_upper_zero hzero, and_all_32], by rw [hc]; rfl⟩
  all_goals
    unfold Reads at h
    simp only [meaningfulBits, mask_all, mask_number, encode, pack_eq_and_iff, and_all_8, and_all_32]
    simp [h, halves_append, encodeEpAddr_epAddrOf, encodeNumber_numberOf]

/-- Settles O2: the encoder packs the fields the row reads, and the mask clears the ignored ones. -/
theorem decodedWordIsItsEncoding : Obligations.DecodedWordIsItsEncoding := by
  unfold Obligations.DecodedWordIsItsEncoding
  intro w i h
  have hreads := reads_of_decode h
  exact ⟨wellFormed_of_reads hreads, encode_of_reads hreads⟩

/-! ### The operation map -/

/-- An encoded instruction selects the row of its mnemonic. -/
theorem encode_selects (i : Instr) : ∃ r ∈ opcodeRows, r.mnemonic = mnemonicOf i ∧ r.selects (encode i) = true := by
  cases i
  case configure => exact Laws.EncodedOpcode.configure ..
  case write => exact Laws.EncodedOpcode.write ..
  case read => exact Laws.EncodedOpcode.read ..
  case activate => exact Laws.EncodedOpcode.activate ..
  case deactivate => exact Laws.EncodedOpcode.deactivate ..
  case stall => exact Laws.EncodedOpcode.stall ..
  case startTransfer => exact Laws.EncodedOpcode.startTransfer ..
  case init => exact Laws.EncodedOpcode.init ..
  case enableInterrupts => exact Laws.EncodedOpcode.enableInterrupts
  case disableInterrupts => exact Laws.EncodedOpcode.disableInterrupts
  case start => exact Laws.EncodedOpcode.start
  case activateRemoteWakeup => exact Laws.EncodedOpcode.activateRemoteWakeup
  case deactivateRemoteWakeup => exact Laws.EncodedOpcode.deactivateRemoteWakeup
  case send => exact Laws.EncodedOpcode.send ..
  case receive => exact Laws.EncodedOpcode.receive ..
  case completeIn => exact Laws.EncodedOpcode.completeIn ..
  case completeOut => exact Laws.EncodedOpcode.completeOut ..

/-- No row tests an ignored bit of its instructions. -/
theorem mask_and_meaningfulBits (i : Instr) :
    ∀ r ∈ opcodeRows, r.mnemonic = mnemonicOf i → meaningfulBits i &&& r.mask = r.mask := by
  cases i
  case configure ea target =>
    cases target
    all_goals
      dsimp only [mnemonicOf, meaningfulBits]
      decide
  all_goals
    dsimp only [mnemonicOf, meaningfulBits]
    decide

/-- A word that decodes selects the row of what it decodes to: the row tests meaningful bits only. -/
theorem selects_of_reads {w : CommandWord} {i : Instr} (h : Reads w i) :
    ∃ r ∈ opcodeRows, r.mnemonic = mnemonicOf i ∧ r.selects w = true := by
  obtain ⟨r, hr, hm, hs⟩ := encode_selects i
  refine ⟨r, hr, hm, ?_⟩
  rwa [OpcodeRow.selects, encode_of_reads h, BitVec.and_assoc, mask_and_meaningfulBits i r hr hm] at hs

/-- The operation map, each row field by field. -/
theorem opcodeRows_eq : opcodeRows =
    [rowOf "CONFIGURE" 0x01 0 0xFFFFFFFE 0, rowOf "WRITE" 0x02 0xFF 0 0, rowOf "READ" 0x03 0xFF 0 0,
      rowOf "ACTIVATE" 0x04 0 0xFFFFFF00 0, rowOf "DEACTIVATE" 0x05 0 0xFFFFFFFF 0xFFFFFFFF,
      rowOf "STALL" 0x06 0 0xFFFFFFFF 0xFFFFFFFF, rowOf "START_TRANSFER" 0x07 0 0xFFFFFFFF 0xFFFFFFFF,
      rowOf "INIT" 0x08 0 0xFFFFFFFC 0xFFFFFFFF, rowOf "ENABLE_INTERRUPTS" 0x09 0xFF 0xFFFFFFFF 0xFFFFFFFF,
      rowOf "DISABLE_INTERRUPTS" 0x0A 0xFF 0xFFFFFFFF 0xFFFFFFFF, rowOf "START" 0x0B 0xFF 0xFFFFFFFF 0xFFFFFFFF,
      rowOf "ACTIVATE_REMOTE_WAKEUP" 0x0C 0xFF 0xFFFFFFFF 0xFFFFFFFF,
      rowOf "DEACTIVATE_REMOTE_WAKEUP" 0x0D 0xFF 0xFFFFFFFF 0xFFFFFFFF, rowOf "SEND" 0x0E 0 0 0,
      rowOf "RECEIVE" 0x0F 0 0 0, rowOf "COMPLETE_IN" 0x10 0 0xFFFFFFFF 0xFFFFFFFF,
      rowOf "COMPLETE_OUT" 0x11 0 0xFFFFFFFF 0xFFFFFFFF] := by
  decide

theorem extract_eq_zero_of_and {b m : BitVec 32} {k n : Nat} (hm : m.extractLsb' k n = BitVec.allOnes n)
    (h : b &&& m = 0) : b.extractLsb' k n = 0 := by
  have hx := congrArg (BitVec.extractLsb' k n) h
  rw [BitVec.extractLsb'_and, hm, BitVec.and_allOnes] at hx
  simpa using hx

/-- Every row of the map gives its words a reading. -/
theorem reads_of_selects {w : CommandWord} {r : OpcodeRow} (hr : r ∈ opcodeRows) (h : r.selects w = true) :
    ∃ i, Reads w i := by
  rw [opcodeRows_eq] at hr
  simp only [List.mem_cons, List.not_mem_nil, or_false] at hr
  rcases hr with rfl | rfl | rfl | rfl | rfl | rfl | rfl | rfl | rfl | rfl | rfl | rfl | rfl | rfl | rfl | rfl | rfl
  all_goals
    obtain ⟨hop, ha, hb, hc⟩ := (rowOf_selects ..).mp h
    simp only [and_all_8, and_all_32, and_none_8, and_none_32] at ha hb hc
  · exact ⟨.configure _ _, hop, extract_eq_zero_of_and (by decide) hb, rfl, rfl⟩
  · exact ⟨.write _ _ _, hop, ha, rfl, rfl, rfl⟩
  · exact ⟨.read _ _ _, hop, ha, rfl, rfl, rfl⟩
  · exact ⟨.activate _ _ _, hop, extract_eq_zero_of_and (by decide) hb, rfl, rfl, rfl⟩
  · exact ⟨.deactivate _, hop, hb, hc, rfl⟩
  · exact ⟨.stall _, hop, hb, hc, rfl⟩
  · exact ⟨.startTransfer _, hop, hb, hc, rfl⟩
  · exact ⟨.init _ _ _, hop, extract_eq_zero_of_and (by decide) hb, hc, rfl, rfl, rfl⟩
  · exact ⟨.enableInterrupts, hop, ha, hb, hc⟩
  · exact ⟨.disableInterrupts, hop, ha, hb, hc⟩
  · exact ⟨.start, hop, ha, hb, hc⟩
  · exact ⟨.activateRemoteWakeup, hop, ha, hb, hc⟩
  · exact ⟨.deactivateRemoteWakeup, hop, ha, hb, hc⟩
  · exact ⟨.send _ _ _, hop, rfl, rfl, rfl⟩
  · exact ⟨.receive _ _ _, hop, rfl, rfl, rfl⟩
  · exact ⟨.completeIn _, hop, hb, hc, rfl⟩
  · exact ⟨.completeOut _, hop, hb, hc, rfl⟩

/-- A row tests the whole field `OP`. -/
theorem opField_of_selects {w : CommandWord} {r : OpcodeRow} (hr : r ∈ opcodeRows) (h : r.selects w = true) :
    opField w = opField r.pattern := by
  have hmask : ∀ r ∈ opcodeRows, opField r.mask = 0xFF := by decide
  rw [← beq_iff_eq.mp h, opField, opField, BitVec.extractLsb'_and, ← opField, ← opField, hmask r hr, and_all_8]

/-- The rows differ in `OP`, so a word selects one row at most. -/
theorem row_unique : ∀ r ∈ opcodeRows, ∀ q ∈ opcodeRows, opField r.pattern = opField q.pattern → r = q := by
  decide

/-- Settles O3: a reading selects its row, a row gives a reading, and two rows differ in `OP`. -/
theorem wordDecodesExactlyWhenARowSelectsIt : Obligations.WordDecodesExactlyWhenARowSelectsIt := by
  unfold Obligations.WordDecodesExactlyWhenARowSelectsIt
  refine ⟨fun w => ⟨?selected, ?decoded⟩, fun w i r h hr hs => ?mnemonic⟩
  case selected =>
    rintro ⟨i, h⟩
    obtain ⟨r, hr, _, hs⟩ := selects_of_reads (reads_of_decode h)
    exact ⟨r, hr, hs⟩
  case decoded =>
    rintro ⟨r, hr, hs⟩
    obtain ⟨i, h⟩ := reads_of_selects hr hs
    exact ⟨i, decode_of_reads h⟩
  case mnemonic =>
    obtain ⟨q, hq, hm, hsq⟩ := selects_of_reads (reads_of_decode h)
    rw [row_unique r hr q hq ((opField_of_selects hr hs).symm.trans (opField_of_selects hq hsq)), hm]

/-! ### Words written out, and the step of a word -/

/-- Settles O5: ten closed words, each run through the decoder. -/
theorem sampleWordsDecode : Obligations.SampleWordsDecode := by
  unfold Obligations.SampleWordsDecode
  decide

end Sys2Proof

namespace Sys2Proof.Machine

/-- The first input is taken and run at the state without it. -/
theorem step_of_inputs {s : State} {x : Input} {rest : List Input} (h : s.inputs = x :: rest) :
    step s = runInput x (s.take rest) := by
  rw [step, fetch, h]

theorem runCommand_of_decode {w : CommandWord} {i : Instr} (h : decode w = .ok i) (s : State) :
    runCommand w s = exec i s := by
  rw [runCommand, h]

theorem runCommand_of_not_decoded {w : CommandWord} (h : ∀ i, decode w ≠ .ok i) (s : State) :
    runCommand w s = .next (s.respond .illegalCommand) := by
  rw [runCommand]
  cases hw : decode w with
  | ok i => exact absurd hw (h i)
  | error e => rfl

/-- Settles O4: by O3 the word does not decode. -/
theorem illegalWordChangesNothing : Obligations.IllegalWordChangesNothing := by
  unfold Obligations.IllegalWordChangesNothing
  refine ⟨rfl, fun s w rest hin hw => ?_⟩
  have hnone : ∀ i, decode w ≠ .ok i := by
    intro i h
    obtain ⟨r, hr, _, hs⟩ := selects_of_reads (reads_of_decode h)
    exact absurd hs (by rw [hw r hr]; decide)
  rw [step_of_inputs hin]
  exact runCommand_of_not_decoded hnone _

/-- Settles O6: the step takes the first input; a command word is decoded on the way. -/
theorem stepRunsDecodedCommand : Obligations.StepRunsDecodedCommand := by
  unfold Obligations.StepRunsDecodedCommand
  intro s
  refine ⟨fun w rest i hin hi => ?word, fun w i hi => ?fetched, fun _ _ hin => step_of_inputs hin,
    fun _ _ _ hin => step_of_inputs hin, fun _ _ hin => step_of_inputs hin, fun _ _ _ hin => step_of_inputs hin,
    fun _ _ hin => step_of_inputs hin, fun _ _ hin => step_of_inputs hin, fun _ hin => step_of_inputs hin,
    fun _ hin => step_of_inputs hin, fun _ _ _ hin => step_of_inputs hin, fun hin => ?waits⟩
  case word =>
    rw [step_of_inputs hin]
    exact runCommand_of_decode hi _
  case fetched =>
    have hin : (s.withFetchWord 80 w.toNat).inputs = .command w :: s.inputs := by
      simp [State.withFetchWord, Nat.mod_eq_of_lt w.isLt]
    rw [step_of_inputs hin]
    exact runCommand_of_decode hi _
  case waits => rw [step, fetch, hin]

end Sys2Proof.Machine
end

section
/-! The invariant: every command and every step of the environment keeps it, so a step does. -/

namespace Sys2Proof.Machine

/-! ### Records -/

/-- CONFIGURE stores even addresses only (40_registry.md R96). -/
theorem RecordInv.configured {c : Nat} {d : Direction} {i : Slot} {e : EndpointRecord} (h : RecordInv c d i e)
    {target : MemTarget} (he : targetEven target = true) : RecordInv c d i (e.configured target) := by
  cases target
  case single a => exact { h with address := he }
  case double a0 a1 =>
    obtain ⟨h0, h1⟩ := (Bool.and_eq_true ..).mp he
    exact { h with address0 := h0, address1 := h1 }

/-- ACTIVATE stores what it checked: a recognised type, a positive packet size, a slot below the count
(42_lifecycle.md R112). -/
theorem RecordInv.loaded {c : Nat} {d : Direction} {i : Slot} {e : EndpointRecord} (h : RecordInv c d i e)
    {code : BitVec 8} {ty : EpType} {mps : Len} (ht : epTypeOfCode code = some ty) (hm : mps ≠ 0) (hi : i.val < c) :
    RecordInv c d i (e.loaded d i code mps) where
  address := h.address
  address0 := h.address0
  address1 := h.address1
  type := by simp [EndpointRecord.epType, EndpointRecord.loaded, ht]
  number := fun _ => rfl
  direction := fun _ => rfl
  packet := fun _ => hm
  slot := fun _ => hi

/-- After INIT a record is disabled, so only its addresses and its type code are constrained. -/
theorem RecordInv.initialised {c : Nat} {d : Direction} {i : Slot} {e : EndpointRecord} (h : RecordInv c d i e)
    (c' : Nat) : RecordInv c' d i e.initialised where
  address := h.address
  address0 := h.address0
  address1 := h.address1
  type := by simp [EndpointRecord.epType, EndpointRecord.initialised, epTypeOfCode]
  number := nofun
  direction := nofun
  packet := nofun
  slot := nofun

theorem RecordInv.zero (c : Nat) (d : Direction) (i : Slot) : RecordInv c d i EndpointRecord.zero where
  address := rfl
  address0 := rfl
  address1 := rfl
  type := by decide
  number := nofun
  direction := nofun
  packet := nofun
  slot := nofun

@[simp] theorem reset_ep (d : Direction) (i : Slot) : State.reset.ep d i = EndpointRecord.zero := by
  cases d <;> simp [State.ep, State.reset]

/-- Settles O8: nothing is configured, nothing is listed. -/
theorem invariantHoldsAtReset : Obligations.InvariantHoldsAtReset := by
  unfold Obligations.InvariantHoldsAtReset
  obtain ⟨hpm, hhost⟩ := reset_memories_wf
  exact
    { count := by decide
      notBusy := nofun
      address := rfl
      fres := rfl
      btable := nofun
      pmWf := hpm
      pmInside := nofun
      hostWf := hhost
      hostInside := nofun
      records := fun d i => by rw [reset_ep]; exact .zero _ d i }

/-! ### Commands -/

theorem initEffects_ep (c : BitVec 8) (s : State) (d : Direction) (i : Slot) :
    (initEffects c s).ep d i = (s.ep d i).initialised :=
  State.mapEps_ep { s with dev := { s.dev with state := .busy, count := c } } (·.initialised) d i

/-- INIT reaches the invariant's fixed values by writing them; the memories it leaves. -/
theorem Inv.initEffects {s : State} (h : Inv s) {c : BitVec 8} (hc : c.toNat ≤ Config.N) : Inv (initEffects c s) where
  count := hc
  notBusy := nofun
  address := rfl
  fres := rfl
  btable := fun _ => rfl
  pmWf := h.pmWf
  pmInside := h.pmInside
  hostWf := h.hostWf
  hostInside := h.hostInside
  records := fun d i => by rw [initEffects_ep]; exact (h.records d i).initialised _

theorem Inv.activateSlot {s : State} (h : Inv s) {d : Direction} {i : Slot} {ty : EpType} {code : BitVec 8} {mps : Len}
    (ht : epTypeOfCode code = some ty) (hm : mps ≠ 0) (hi : i.val < s.dev.count.toNat) :
    Inv (activateSlot d i ty code mps s) := by
  have hl : Inv (s.updEp d i (·.loaded d i code mps)) := h.updEp d i _ fun he => he.loaded ht hm hi
  unfold Machine.activateSlot
  exact ((hl.updReg i _).updTable i _).updLate i _

theorem Inv.deactivateSlot {s : State} (h : Inv s) (d : Direction) (i : Slot) : Inv (deactivateSlot d i s) := by
  unfold Machine.deactivateSlot
  refine ((h.updReg i _).updEp d i _ ?_).updLate i _
  exact fun he => he.congr rfl rfl rfl rfl rfl rfl rfl nofun

theorem Inv.stallSlot {s : State} (h : Inv s) (d : Direction) (i : Slot) : Inv (stallSlot d i s) :=
  ((h.updEp d i _ fun he => he.congr rfl rfl rfl rfl rfl rfl rfl id).updReg i _).updLate i _

theorem Inv.request {s t : State} (h : Inv s) {d : Direction} {n : Nat} {buf : HostAddr} {len : Len}
    (hx : request d n buf len s = .next t) : Inv t := by
  obtain ⟨_, i, _, _, u, hu, rfl⟩ := request_eq_next.mp hx
  exact ((h.updEp d i _ fun he => he.congr rfl rfl rfl rfl rfl rfl rfl id).schedule hu).respond _

theorem Inv.completeInSingle {s t : State} (h : Inv s) {i : Slot} (hx : completeInSingle i s = .next t) : Inv t := by
  have hc : Inv (inCompleted i s) :=
    (h.updReg i _).updEp .IN i _ fun he => he.congr rfl rfl rfl rfl rfl rfl rfl id
  rw [completeInSingle_eq] at hx
  split at hx
  case isTrue =>
    cases hx
    exact (hc.updEp .IN i _ fun he => he.congr rfl rfl rfl rfl rfl rfl rfl id).emit _
  case isFalse => exact hc.schedule hx

theorem Inv.completeOutSingle {s t : State} (h : Inv s) {i : Slot} (hx : completeOutSingle i s = .next t) : Inv t := by
  obtain ⟨_, hr, hx⟩ := completeOutSingle_eq_next.mp hx
  have hc : Inv (outCompleted i s) :=
    ((h.updReg i _).afterRead hr).updEp .OUT i _ fun he => he.congr rfl rfl rfl rfl rfl rfl rfl id
  rcases hx with ⟨_, rfl⟩ | ⟨_, hx⟩
  · exact (hc.updEp .OUT i _ fun he => he.congr rfl rfl rfl rfl rfl rfl rfl id).emit _
  · exact hc.schedule hx

/-- Every command keeps the invariant. -/
theorem Inv.exec {s t : State} (h : Inv s) {i : Instr} (hx : exec i s = .next t) : Inv t := by
  cases i
  case configure =>
    obtain ⟨_, i, _, _, he, rfl⟩ := execConfigure_eq_next.mp hx
    exact (h.updEp _ i _ fun hr => hr.configured he).respond _
  case write =>
    obtain ⟨_, ha, _, rfl⟩ := execWrite_eq_next.mp hx
    exact (h.afterWrite ha).respond _
  case read =>
    obtain ⟨_, _, hr, rfl⟩ := execRead_eq_next.mp hx
    exact (h.afterRead hr).respond _
  case activate =>
    obtain ⟨_, i, hi, hc, ⟨_, rfl⟩ | ⟨ty, ht, hm, rfl⟩⟩ := execActivate_eq_next.mp hx
    · exact h.respond _
    · exact (h.activateSlot ht hm (hi ▸ hc)).respond _
  case deactivate =>
    obtain ⟨_, i, _, _, rfl⟩ := execDeactivate_eq_next.mp hx
    exact (h.deactivateSlot _ i).respond _
  case stall =>
    obtain ⟨_, ⟨_, rfl⟩ | ⟨i, _, _, rfl⟩⟩ := execStall_eq_next.mp hx
    · exact h.respond _
    · exact (h.stallSlot _ i).respond _
  case startTransfer =>
    obtain ⟨_, i, _, _, u, hu, rfl⟩ := execStartTransfer_eq_next.mp hx
    exact (h.schedule hu).respond _
  case init =>
    obtain ⟨_, rfl⟩ | ⟨_, _, rfl⟩ | ⟨_, _, hc, rfl⟩ := execInit_eq_next.mp hx
    · exact h.respond _
    · exact h.respond _
    · exact (h.initEffects hc).respond _
  case enableInterrupts =>
    obtain ⟨_, rfl⟩ := execEnableInterrupts_eq_next.mp hx
    exact h.congr rfl rfl rfl rfl rfl fun _ _ => rfl
  case disableInterrupts =>
    obtain ⟨_, rfl⟩ := execDisableInterrupts_eq_next.mp hx
    exact h.congr rfl rfl rfl rfl rfl fun _ _ => rfl
  case start =>
    obtain ⟨_, rfl⟩ := execStart_eq_next.mp hx
    exact h.congr rfl rfl rfl rfl rfl fun _ _ => rfl
  case activateRemoteWakeup =>
    obtain ⟨_, rfl⟩ := execActivateRemoteWakeup_eq_next.mp hx
    exact h.congr rfl rfl rfl rfl rfl fun _ _ => rfl
  case deactivateRemoteWakeup =>
    obtain ⟨_, rfl⟩ := execDeactivateRemoteWakeup_eq_next.mp hx
    exact h.congr rfl rfl rfl rfl rfl fun _ _ => rfl
  case send => exact h.request hx
  case receive => exact h.request hx
  case completeIn =>
    obtain ⟨_, i, _, _, _, _, u, hu, rfl⟩ := execCompleteIn_eq_next.mp hx
    exact (h.completeInSingle hu).respond _
  case completeOut =>
    obtain ⟨_, i, _, _, _, _, u, hu, rfl⟩ := execCompleteOut_eq_next.mp hx
    exact (h.completeOutSingle hu).respond _

/-! ### The environment -/

theorem Inv.sendPacket {s : State} (h : Inv s) (i : Slot) : Inv (sendPacket i s) := (h.updReg i _).updLate i _

/-- The caller writes one byte at an address that exists (20_memory.md R54). -/
theorem Inv.callerWrite {s : State} (h : Inv s) (a : HostAddr) (v : Byte) : Inv (s.storeHost a.toNat [v]) :=
  have hm : MemoryBelow (storeBytes s.host a.toNat [v]) Config.hostSize := h.host.storeBytes _ _ (.inr a.isLt)
  { h with hostWf := hm.wf, hostInside := hm.inside }

theorem busReset_eq_next {s t : State} :
    busReset s = .next t ↔
      s.pullup = true ∧ t = { (s.mapRegs (·.afterReset)).endLate with istr := { s.istr with reset := true } } := by
  unfold busReset
  split <;> simp_all [@eq_comm _ _ t]

/-- Every input keeps the invariant. -/
theorem Inv.runInput {s t : State} (h : Inv s) {x : Input} (hx : runInput x s = .next t) : Inv t := by
  cases x
  case command =>
    obtain ⟨i, _, hx⟩ | ⟨_, _, rfl⟩ := runCommand_eq_next.mp hx
    · exact h.exec hx
    · exact h.respond _
  case wireIn =>
    obtain ⟨i, _, _, ⟨_, _, rfl⟩ | ⟨_, _, rfl⟩⟩ := wireIn_eq_next hx
    · exact h.emit _
    · exact (h.sendPacket i).emit _
  case wireOut =>
    obtain ⟨i, _, _, ⟨_, rfl⟩ | ⟨_, _, _, _, hf, rfl⟩⟩ := wireOut_eq_next hx
    · exact h.emit _
    · exact h.storePacket hf
  case lateWireIn =>
    obtain ⟨i, _, _, _, _, _, rfl⟩ := lateWireIn_eq_next hx
    exact (h.sendPacket i).emit _
  case lateWireOut =>
    obtain ⟨i, _, _, _, _, ⟨_, rfl⟩ | ⟨_, _, _, hf, rfl⟩⟩ := lateWireOut_eq_next hx
    · exact h.emit _
    · exact h.storePacket hf
  case busEvent | clearFlag =>
    cases hx
    exact h.congr rfl rfl rfl rfl rfl fun _ _ => rfl
  case busReset =>
    obtain ⟨_, rfl⟩ := busReset_eq_next.mp hx
    exact h.congr rfl rfl rfl rfl rfl fun _ _ => rfl
  case fatal =>
    cases hx
    exact { h with notBusy := nofun, btable := nofun }
  case callerWrite =>
    cases hx
    exact h.callerWrite _ _

/-- Settles O9: the outputs are withdrawn, then one input runs, or nothing happens. -/
theorem stepKeepsInvariant : Obligations.StepKeepsInvariant := by
  unfold Obligations.StepKeepsInvariant
  intro s t h hs
  obtain ⟨_, rfl⟩ | ⟨x, rest, _, hx⟩ := step_eq_next.mp hs
  · exact h
  · exact (h.take rest).runInput hx

end Sys2Proof.Machine
end

section
/-! Who writes the fields the whole machine guards: the device context, the pull-up, `stalled`, the buffering mode and
the addresses of a record, the completion flags, caller memory. A command that writes none of them is `Unguarded`; each
other input may write one of them, as `GuardedBy` says, and the obligations about the whole machine read that off. -/

namespace Sys2Proof.Machine

/-! ### Steps that write no guarded field -/

/-- Buffering mode and packet-memory addresses (10_state.md R19, R20). -/
def EndpointRecord.placement (e : EndpointRecord) : Buffering × PmAddr × PmAddr × PmAddr :=
  (e.buffering, e.address, e.address0, e.address1)

/-- No guarded field is written, but that a completion flag may be cleared. -/
structure Unguarded (s t : State) : Prop where
  dev : t.dev = s.dev
  pullup : t.pullup = s.pullup
  host : t.host = s.host
  stalled : ∀ d j, (t.ep d j).stalled = (s.ep d j).stalled
  placement : ∀ d j, (t.ep d j).placement = (s.ep d j).placement
  ctrTx : ∀ j, (t.reg j).ctrTx = true → (s.reg j).ctrTx = true
  ctrRx : ∀ j, (t.reg j).ctrRx = true → (s.reg j).ctrRx = true

namespace Unguarded

theorem refl (s : State) : Unguarded s s :=
  ⟨rfl, rfl, rfl, fun _ _ => rfl, fun _ _ => rfl, fun _ => id, fun _ => id⟩

section
variable {s t u : State} (h : Unguarded s t)
include h

theorem trans (h' : Unguarded t u) : Unguarded s u :=
  ⟨h'.dev.trans h.dev, h'.pullup.trans h.pullup, h'.host.trans h.host,
    fun d j => (h'.stalled d j).trans (h.stalled d j),
    fun d j => (h'.placement d j).trans (h.placement d j),
    fun j hj => h.ctrTx j (h'.ctrTx j hj),
    fun j hj => h.ctrRx j (h'.ctrRx j hj)⟩

theorem respond (r : Response) : Unguarded s (t.respond r) := ⟨h.1, h.2, h.3, h.4, h.5, h.6, h.7⟩

theorem emit (x : Signal) : Unguarded s (t.emit x) := ⟨h.1, h.2, h.3, h.4, h.5, h.6, h.7⟩

theorem updTable (i : Slot) (f : BdtEntry → BdtEntry) : Unguarded s (t.updTable i f) :=
  ⟨h.1, h.2, h.3, h.4, h.5, h.6, h.7⟩

theorem updLate (i : Slot) (f : LateWire → LateWire) : Unguarded s (t.updLate i f) :=
  ⟨h.1, h.2, h.3, h.4, h.5, h.6, h.7⟩

theorem updEp (d : Direction) (i : Slot) {f : EndpointRecord → EndpointRecord}
    (hs : ∀ e, (f e).stalled = e.stalled) (hp : ∀ e, (f e).placement = e.placement) :
    Unguarded s (t.updEp d i f) := by
  refine h.trans ⟨rfl, rfl, rfl, fun d' j => ?stalled, fun d' j => ?placement, fun _ => id, fun _ => id⟩
  case stalled =>
    rw [State.updEp_ep]
    split
    case isTrue hj => rw [hs, hj.1, hj.2]
    case isFalse => rfl
  case placement =>
    rw [State.updEp_ep]
    split
    case isTrue hj => rw [hp, hj.1, hj.2]
    case isFalse => rfl

theorem updReg (i : Slot) {f : EndpointRegister → EndpointRegister} (htx : ∀ r, (f r).ctrTx = true → r.ctrTx = true)
    (hrx : ∀ r, (f r).ctrRx = true → r.ctrRx = true) : Unguarded s (t.updReg i f) := by
  refine h.trans ⟨rfl, rfl, rfl, fun _ _ => rfl, fun _ _ => rfl, fun j => ?tx, fun j => ?rx⟩
  case tx =>
    rw [State.updReg_reg]
    split
    case isTrue hj => exact hj ▸ htx _
    case isFalse => exact id
  case rx =>
    rw [State.updReg_reg]
    split
    case isTrue hj => exact hj ▸ hrx _
    case isFalse => exact id

/-- The scheduler writes transfer fields, statuses, toggles and counts only (43_scheduler.md R142). -/
theorem schedule {d : Direction} {i : Slot} (hx : schedule d i t = .next u) : Unguarded s u := by
  have hk := schedule_keeps hx
  have hrecord : ∀ d' j, (u.ep d' j).withoutTransfer = (t.ep d' j).withoutTransfer := by
    intro d' j
    by_cases hj : d' = d ∧ j = i
    · rw [hj.1, hj.2, hk.record]
    · rw [hk.touches.records d' j hj]
  have hreg : ∀ j, (u.reg j).withoutScheduled = (t.reg j).withoutScheduled := by
    intro j
    by_cases hj : j = i
    · rw [hj, hk.register]
    · rw [hk.touches.regs j hj]
  exact h.trans
    { dev := hk.touches.globals.dev
      pullup := hk.touches.globals.pullup
      host := hk.host
      stalled := fun d' j => (congrArg EndpointRecord.stalled (hrecord d' j) :)
      placement := fun d' j => (congrArg EndpointRecord.placement (hrecord d' j) :)
      ctrTx := fun j hj => (congrArg EndpointRegister.ctrTx (hreg j)).symm.trans hj
      ctrRx := fun j hj => (congrArg EndpointRegister.ctrRx (hreg j)).symm.trans hj }

theorem request {d : Direction} {n : Nat} {buf : HostAddr} {len : Len} (hx : request d n buf len t = .next u) :
    Unguarded s u := by
  obtain ⟨_, i, _, _, v, hv, rfl⟩ := request_eq_next.mp hx
  exact ((h.updEp d i (by intro; rfl) (by intro; rfl)).schedule hv).respond _

end

theorem activateSlot (d : Direction) (i : Slot) (ty : EpType) (code : BitVec 8) (mps : Len) (s : State) :
    Unguarded s (activateSlot d i ty code mps s) := by
  unfold Machine.activateSlot
  refine ((((refl s).updEp d i (by intro; rfl) (by intro; rfl)).updReg i ?tx ?rx).updTable i _).updLate i _
  all_goals
    intro r
    cases (s.ep d i).buffering <;> cases d <;> exact id

theorem deactivateSlot (d : Direction) (i : Slot) (s : State) : Unguarded s (deactivateSlot d i s) := by
  unfold Machine.deactivateSlot
  refine (((refl s).updReg i ?tx ?rx).updEp d i (by intro; rfl) (by intro; rfl)).updLate i _
  all_goals
    intro r
    cases (s.ep d i).buffering <;> cases d <;> exact id

theorem completeInSingle {i : Slot} {s t : State} (hx : completeInSingle i s = .next t) : Unguarded s t := by
  have hc : Unguarded s (inCompleted i s) :=
    ((refl s).updReg i (by intro _ h; cases h) (by intro _; exact id)).updEp .IN i (by intro; rfl) (by intro; rfl)
  rw [completeInSingle_eq] at hx
  split at hx
  case isTrue =>
    cases hx
    exact (hc.updEp .IN i (by intro; rfl) (by intro; rfl)).emit _
  case isFalse => exact hc.schedule hx

/-- What a served OUT completion does after its read. -/
theorem completeOutSingle {i : Slot} {s t : State} (hx : completeOutSingle i s = .next t) :
    Unguarded (outCompleted i s) t := by
  obtain ⟨_, _, ⟨_, rfl⟩ | ⟨_, hx⟩⟩ := completeOutSingle_eq_next.mp hx
  · exact ((refl _).updEp .OUT i (by intro; rfl) (by intro; rfl)).emit _
  · exact (refl _).schedule hx

theorem mapRegs_afterReset (s : State) : Unguarded s (s.mapRegs (·.afterReset)) := by
  refine ⟨rfl, rfl, rfl, fun d j => by rw [State.mapRegs_ep], fun d j => by rw [State.mapRegs_ep], fun j hj => ?tx,
    fun j hj => ?rx⟩
  all_goals
    rw [State.mapRegs_reg] at hj
    exact hj

theorem busReset {s t : State} (hx : busReset s = .next t) : Unguarded s t := by
  obtain ⟨_, rfl⟩ := busReset_eq_next.mp hx
  obtain ⟨hdev, hpullup, hhost, hstalled, hplacement, htx, hrx⟩ := mapRegs_afterReset s
  exact ⟨hdev, hpullup, hhost, hstalled, hplacement, htx, hrx⟩

theorem afterWrite (p : OddWritePolicy) (r : Option Region) (buf : HostAddr) (a : PmAddr) (n : Nat) (s : State) :
    Unguarded s (afterWrite p r buf a n s) :=
  ⟨rfl, rfl, rfl, fun _ _ => by rw [afterWrite_ep], fun _ _ => by rw [afterWrite_ep],
    fun _ hj => by rwa [afterWrite_reg] at hj, fun _ hj => by rwa [afterWrite_reg] at hj⟩

end Unguarded

/-! ### Which input may write which guarded field -/

/-- The input is a command word that decodes to `c`. -/
def Input.Runs (x : Input) (c : Instr) : Prop := ∃ w, x = .command w ∧ decode w = .ok c

/-- The inputs that may write the byte of caller memory at `y` (20_memory.md R54, R55; 70_reset_and_hazards.md R218). -/
inductive WritesHost (s : State) (y : Nat) (x : Input) : Prop where
  | caller (a : HostAddr) (v : Byte) (hx : x = .callerWrite a v) (hy : a.toNat = y)
  | read (a : PmAddr) (buf : HostAddr) (n : BitVec 16) (hx : x.Runs (.read a buf n)) (hlow : buf.toNat ≤ y)
      (hhigh : y < buf.toNat + n.toNat)
  | completeOut (i : Slot) (g : Region) (hx : x.Runs (.completeOut i.val)) (hregion : (s.ep .OUT i).region = some g)
      (hy : g.holds y = true)

/-- What the input `x` may write of the guarded fields. -/
structure GuardedBy (x : Input) (s t : State) : Prop where
  dev : t.dev = s.dev ∨ (x = .fatal ∧ t.dev = { s.dev with state := .error }) ∨
    ∃ c, x.Runs (.init c true true) ∧ t.dev = { state := .ready, address := 0, count := c }
  pullup : t.pullup = s.pullup ∨ (x.Runs .start ∧ t.pullup = true)
  host : ∀ y, hostByte t y = hostByte s y ∨ WritesHost s y x
  stalled : ∀ d (j : Slot), (t.ep d j).stalled = (s.ep d j).stalled ∨
    (x.Runs (.stall ⟨d, j.val⟩) ∧ (t.ep d j).stalled = true)
  placement : ∀ d (j : Slot), (t.ep d j).placement = (s.ep d j).placement ∨
    ∃ target, x.Runs (.configure ⟨d, j.val⟩ target)
  ctrTx : ∀ j : Slot, (t.reg j).ctrTx = true → (s.reg j).ctrTx = true ∨ x = .wireIn j.val ∨ x = .lateWireIn j.val
  ctrRx : ∀ j : Slot, (t.reg j).ctrRx = true → (s.reg j).ctrRx = true ∨
    ∃ bytes, x = .wireOut j.val bytes ∨ x = .lateWireOut j.val bytes

theorem Unguarded.guardedBy {s t : State} (h : Unguarded s t) (x : Input) : GuardedBy x s t where
  dev := .inl h.dev
  pullup := .inl h.pullup
  host := fun y => .inl (by rw [hostByte, h.host, ← hostByte])
  stalled := fun d j => .inl (h.stalled d j)
  placement := fun d j => .inl (h.placement d j)
  ctrTx := fun j hj => .inl (h.ctrTx j hj)
  ctrRx := fun j hj => .inl (h.ctrRx j hj)

/-- What follows may write no guarded field. -/
theorem GuardedBy.trans_unguarded {x : Input} {s t u : State} (h : GuardedBy x s t) (h' : Unguarded t u) :
    GuardedBy x s u where
  dev := by rw [h'.dev]; exact h.dev
  pullup := by rw [h'.pullup]; exact h.pullup
  host := fun y => by rw [hostByte, h'.host, ← hostByte]; exact h.host y
  stalled := fun d j => by rw [h'.stalled]; exact h.stalled d j
  placement := fun d j => by rw [h'.placement]; exact h.placement d j
  ctrTx := fun j hj => h.ctrTx j (h'.ctrTx j hj)
  ctrRx := fun j hj => h.ctrRx j (h'.ctrRx j hj)

/-! ### Commands -/

section
variable {x : Input} {s t : State}

theorem guardedBy_configure {ea : EpAddr} {target : MemTarget} (hr : x.Runs (.configure ea target))
    (hx : exec (.configure ea target) s = .next t) : GuardedBy x s t := by
  obtain ⟨_, i, hi, _, _, rfl⟩ := execConfigure_eq_next.mp hx
  refine { (Unguarded.refl s).guardedBy x with
    stalled := fun d j => .inl ?stalled, placement := fun d j => ?placement }
  case stalled =>
    rw [State.respond_ep, State.updEp_ep]
    split
    case isTrue hj => rw [hj.1, hj.2]; cases target <;> rfl
    case isFalse => rfl
  case placement =>
    rw [State.respond_ep, State.updEp_ep]
    split
    case isTrue hj => exact .inr ⟨target, by rw [hj.1, hj.2, hi]; exact hr⟩
    case isFalse => exact .inl rfl

theorem guardedBy_read {a : PmAddr} {buf : HostAddr} {n : BitVec 16} (hr : x.Runs (.read a buf n))
    (hx : exec (.read a buf n) s = .next t) : GuardedBy x s t := by
  obtain ⟨_, _, _, rfl⟩ := execRead_eq_next.mp hx
  refine { (Unguarded.refl s).guardedBy x with host := fun y => ?host }
  rw [State.respond_hostByte, afterRead_hostByte]
  split
  case isTrue hy => exact .inr (.read a buf n hr hy.1 hy.2)
  case isFalse => exact .inl rfl

theorem guardedBy_stall {ea : EpAddr} (hr : x.Runs (.stall ea)) (hx : exec (.stall ea) s = .next t) :
    GuardedBy x s t := by
  obtain ⟨_, ⟨_, rfl⟩ | ⟨i, hi, _, rfl⟩⟩ := execStall_eq_next.mp hx
  · exact ((Unguarded.refl s).respond _).guardedBy x
  · have hrecord : GuardedBy x s (s.updEp ea.dir i (fun e => { e with stalled := true })) := by
      refine { (Unguarded.refl s).guardedBy x with
        stalled := fun d j => ?stalled, placement := fun d j => .inl ?placement }
      all_goals
        rw [State.updEp_ep]
        split
      case stalled.isTrue hj => exact .inr ⟨by rw [hj.1, hj.2, hi]; exact hr, rfl⟩
      case stalled.isFalse => exact .inl rfl
      case placement.isTrue hj => rw [hj.1, hj.2]; rfl
      case placement.isFalse => rfl
    refine hrecord.trans_unguarded ((((Unguarded.refl _).updReg i ?tx ?rx).updLate i _).respond _)
    all_goals
      intro r
      cases ea.dir <;> exact id

theorem initEffects_reg (c : BitVec 8) (s : State) (j : Slot) :
    (initEffects c s).reg j = (s.reg j).afterReset.clearCompletions := by
  have hepr : (initEffects c s).epr = ((s.mapRegs (·.afterReset)).mapRegs (·.clearCompletions)).epr := rfl
  rw [State.reg, hepr, ← State.reg, State.mapRegs_reg, State.mapRegs_reg]

theorem guardedBy_init {c : BitVec 8} {hp ip : Bool} (hr : x.Runs (.init c hp ip))
    (hx : exec (.init c hp ip) s = .next t) : GuardedBy x s t := by
  obtain ⟨_, rfl⟩ | ⟨_, _, rfl⟩ | ⟨rfl, rfl, _, rfl⟩ := execInit_eq_next.mp hx
  · exact ((Unguarded.refl s).respond _).guardedBy x
  · exact ((Unguarded.refl s).respond _).guardedBy x
  · have hep := initEffects_ep c s
    refine { (Unguarded.refl s).guardedBy x with
      dev := .inr (.inr ⟨c, hr, rfl⟩), stalled := fun d j => .inl ?stalled, placement := fun d j => .inl ?placement,
      ctrTx := fun j hj => ?tx, ctrRx := fun j hj => ?rx }
    case stalled => rw [State.respond_ep, hep]; rfl
    case placement => rw [State.respond_ep, hep]; rfl
    case tx =>
      rw [State.respond_reg, initEffects_reg] at hj
      cases hj
    case rx =>
      rw [State.respond_reg, initEffects_reg] at hj
      cases hj

theorem guardedBy_start (hr : x.Runs .start) (hx : exec .start s = .next t) : GuardedBy x s t := by
  obtain ⟨_, rfl⟩ := execStart_eq_next.mp hx
  exact { (Unguarded.refl s).guardedBy x with pullup := .inr ⟨hr, rfl⟩ }

theorem guardedBy_completeOut {n : Nat} (hr : x.Runs (.completeOut n)) (hx : exec (.completeOut n) s = .next t) :
    GuardedBy x s t := by
  obtain ⟨_, i, rfl, _, _, _, u, hu, rfl⟩ := execCompleteOut_eq_next.mp hx
  obtain ⟨_, hadmits, _⟩ := completeOutSingle_eq_next.mp hu
  have hflag : Unguarded s (s.updReg i fun r => { r with ctrRx := false }) :=
    (Unguarded.refl s).updReg i (by intro _; exact id) (by intro _ h; cases h)
  have hread : GuardedBy x s (afterRead (s.ep .OUT i).address (s.ep .OUT i).transferBuffer (s.table i).countRx.toNat
      (s.updReg i fun r => { r with ctrRx := false })) := by
    refine { hflag.guardedBy x with host := fun y => ?host }
    rw [afterRead_hostByte]
    split
    case isTrue hy =>
      obtain ⟨g, hg, hy⟩ := regionAdmits_holds hadmits hy.1 hy.2
      exact .inr (.completeOut i g hr hg hy)
    case isFalse => exact .inl rfl
  have hadvance : GuardedBy x s (outCompleted i s) :=
    hread.trans_unguarded ((Unguarded.refl _).updEp .OUT i (by intro; rfl) (by intro; rfl))
  exact hadvance.trans_unguarded ((Unguarded.completeOutSingle hu).respond _)

/-- Every command, by what it may write. -/
theorem guardedBy_exec {i : Instr} (hr : x.Runs i) (hx : exec i s = .next t) : GuardedBy x s t := by
  cases i
  case configure => exact guardedBy_configure hr hx
  case read => exact guardedBy_read hr hx
  case stall => exact guardedBy_stall hr hx
  case init => exact guardedBy_init hr hx
  case start => exact guardedBy_start hr hx
  case completeOut => exact guardedBy_completeOut hr hx
  all_goals refine Unguarded.guardedBy ?_ x
  case write =>
    obtain ⟨_, _, _, rfl⟩ := execWrite_eq_next.mp hx
    exact (Unguarded.afterWrite ..).respond _
  case activate =>
    obtain ⟨_, i, _, _, ⟨_, rfl⟩ | ⟨_, _, _, rfl⟩⟩ := execActivate_eq_next.mp hx
    · exact (Unguarded.refl s).respond _
    · exact (Unguarded.activateSlot ..).respond _
  case deactivate =>
    obtain ⟨_, i, _, _, rfl⟩ := execDeactivate_eq_next.mp hx
    exact (Unguarded.deactivateSlot ..).respond _
  case startTransfer =>
    obtain ⟨_, i, _, _, u, hu, rfl⟩ := execStartTransfer_eq_next.mp hx
    exact ((Unguarded.refl s).schedule hu).respond _
  case send => exact (Unguarded.refl s).request hx
  case receive => exact (Unguarded.refl s).request hx
  case completeIn =>
    obtain ⟨_, i, _, _, _, _, u, hu, rfl⟩ := execCompleteIn_eq_next.mp hx
    exact (Unguarded.completeInSingle hu).respond _
  case enableInterrupts =>
    obtain ⟨_, rfl⟩ := execEnableInterrupts_eq_next.mp hx
    exact ⟨rfl, rfl, rfl, fun _ _ => rfl, fun _ _ => rfl, fun _ => id, fun _ => id⟩
  case disableInterrupts =>
    obtain ⟨_, rfl⟩ := execDisableInterrupts_eq_next.mp hx
    exact ⟨rfl, rfl, rfl, fun _ _ => rfl, fun _ _ => rfl, fun _ => id, fun _ => id⟩
  case activateRemoteWakeup =>
    obtain ⟨_, rfl⟩ := execActivateRemoteWakeup_eq_next.mp hx
    exact ⟨rfl, rfl, rfl, fun _ _ => rfl, fun _ _ => rfl, fun _ => id, fun _ => id⟩
  case deactivateRemoteWakeup =>
    obtain ⟨_, rfl⟩ := execDeactivateRemoteWakeup_eq_next.mp hx
    exact ⟨rfl, rfl, rfl, fun _ _ => rfl, fun _ _ => rfl, fun _ => id, fun _ => id⟩

/-! ### The environment -/

/-- A wire step writes no guarded field but the completion flags. -/
theorem guardedBy_of_keptByWire (h : KeptByWire s t)
    (htx : ∀ j : Slot, (t.reg j).ctrTx = true → (s.reg j).ctrTx = true ∨ x = .wireIn j.val ∨ x = .lateWireIn j.val)
    (hrx : ∀ j : Slot, (t.reg j).ctrRx = true → (s.reg j).ctrRx = true ∨
      ∃ bytes, x = .wireOut j.val bytes ∨ x = .lateWireOut j.val bytes) : GuardedBy x s t where
  dev := .inl h.dev
  pullup := .inl h.pullup
  host := fun y => .inl (h.host y)
  stalled := fun d j => .inl (by rw [h.records])
  placement := fun d j => .inl (by rw [h.records])
  ctrTx := htx
  ctrRx := hrx

theorem guardedBy_sendPacket {i : Slot} (hx : x = .wireIn i.val ∨ x = .lateWireIn i.val) (y : Signal) :
    GuardedBy x s ((sendPacket i s).emit y) := by
  refine guardedBy_of_keptByWire ((keptByWire_sendPacket i s).emit y) (fun j hj => ?tx) (fun j hj => .inl ?rx)
  all_goals
    rw [State.emit_reg, sendPacket_reg] at hj
    split at hj
  case tx.isTrue h => exact .inr (h ▸ hx)
  case tx.isFalse => exact .inl hj
  case rx.isTrue h => exact h ▸ hj
  case rx.isFalse => exact hj

theorem guardedBy_storePacket {i : Slot} {bytes : List Byte}
    (hx : x = .wireOut i.val bytes ∨ x = .lateWireOut i.val bytes) : GuardedBy x s (storePacket i bytes s) := by
  refine guardedBy_of_keptByWire (keptByWire_storePacket i bytes s) (fun j hj => .inl ?tx) (fun j hj => ?rx)
  all_goals
    rw [storePacket_reg] at hj
    split at hj
  case rx.isTrue h => exact .inr ⟨bytes, h ▸ hx⟩
  case rx.isFalse => exact .inl hj
  case tx.isTrue h => exact h ▸ hj
  case tx.isFalse => exact hj

theorem guardedBy_fatal : GuardedBy .fatal s { s with dev := { s.dev with state := .error } } :=
  { (Unguarded.refl s).guardedBy .fatal with dev := .inr (.inl ⟨rfl, rfl⟩) }

theorem guardedBy_callerWrite (a : HostAddr) (v : Byte) :
    GuardedBy (.callerWrite a v) s (s.storeHost a.toNat [v]) := by
  refine { (Unguarded.refl s).guardedBy (.callerWrite a v) with host := fun y => ?host }
  rw [State.storeHost_hostByte]
  split
  case isTrue hy =>
    rw [List.length_singleton] at hy
    exact .inr (.caller a v rfl (by omega))
  case isFalse => exact .inl rfl

/-- Every input, by what it may write. -/
theorem guardedBy_runInput (hx : runInput x s = .next t) : GuardedBy x s t := by
  cases x
  case command w =>
    obtain ⟨i, hi, hx⟩ | ⟨_, _, rfl⟩ := runCommand_eq_next.mp hx
    · exact guardedBy_exec ⟨w, rfl, hi⟩ hx
    · exact ((Unguarded.refl s).respond _).guardedBy _
  case wireIn =>
    obtain ⟨i, rfl, _, ⟨_, _, rfl⟩ | ⟨_, _, rfl⟩⟩ := wireIn_eq_next hx
    · exact ((Unguarded.refl s).emit _).guardedBy _
    · exact guardedBy_sendPacket (.inl rfl) _
  case lateWireIn =>
    obtain ⟨i, rfl, _, _, _, _, rfl⟩ := lateWireIn_eq_next hx
    exact guardedBy_sendPacket (.inr rfl) _
  case wireOut =>
    obtain ⟨i, rfl, _, ⟨_, rfl⟩ | ⟨_, _, _, _, _, rfl⟩⟩ := wireOut_eq_next hx
    · exact ((Unguarded.refl s).emit _).guardedBy _
    · exact guardedBy_storePacket (.inl rfl)
  case lateWireOut =>
    obtain ⟨i, rfl, _, _, _, ⟨_, rfl⟩ | ⟨_, _, _, _, rfl⟩⟩ := lateWireOut_eq_next hx
    · exact ((Unguarded.refl s).emit _).guardedBy _
    · exact guardedBy_storePacket (.inr rfl)
  case busEvent | clearFlag =>
    cases hx
    refine Unguarded.guardedBy ?_ _
    exact ⟨rfl, rfl, rfl, fun _ _ => rfl, fun _ _ => rfl, fun _ => id, fun _ => id⟩
  case busReset => exact (Unguarded.busReset hx).guardedBy _
  case fatal =>
    cases hx
    exact guardedBy_fatal
  case callerWrite =>
    cases hx
    exact guardedBy_callerWrite _ _

end

/-- A step waits, or its first input is the one that may write. -/
theorem step_guarded {s t : State} (h : step s = .next t) :
    t = s ∨ ∃ x rest, s.inputs = x :: rest ∧ GuardedBy x s t := by
  obtain ⟨_, rfl⟩ | ⟨x, rest, hin, hx⟩ := step_eq_next.mp h
  · exact .inl rfl
  · obtain ⟨hdev, hpullup, hhost, hstalled, hplacement, htx, hrx⟩ := guardedBy_runInput hx
    refine .inr ⟨x, rest, hin, hdev, hpullup, fun y => ?_, hstalled, hplacement, htx, hrx⟩
    exact (hhost y).imp id fun hw => by
      cases hw
      case caller a v hx hy => exact .caller a v hx hy
      case read a buf n hx hlow hhigh => exact .read a buf n hx hlow hhigh
      case completeOut i g hx hg hy => exact .completeOut i g hx hg hy

/-! ### The obligations -/

/-- Settles O11: the pull-up is kept, or the input is START and it is set. -/
theorem pullUpRisesOnlyByStartAndStays : Obligations.PullUpRisesOnlyByStartAndStays := by
  unfold Obligations.PullUpRisesOnlyByStartAndStays
  intro s t h
  obtain rfl | ⟨x, rest, hin, hg⟩ := step_guarded h
  · exact ⟨id, fun hp hn => absurd hp (by simp [hn])⟩
  · rcases hg.pullup with hp | ⟨⟨w, rfl, hw⟩, hp⟩
    · exact ⟨hp.trans, fun ht hs => absurd (hp.symm.trans ht) (by simp [hs])⟩
    · exact ⟨fun _ => hp, fun _ _ => ⟨w, rest, hin, hw⟩⟩

/-- Settles O12: the flag is kept, or the input is STALL of the record and it is set. -/
theorem stalledFlagSetOnlyByStallAndStays : Obligations.StalledFlagSetOnlyByStallAndStays := by
  unfold Obligations.StalledFlagSetOnlyByStallAndStays
  intro s t d i h
  obtain rfl | ⟨x, rest, hin, hg⟩ := step_guarded h
  · exact ⟨id, fun hp hn => absurd hp (by simp [hn])⟩
  · rcases hg.stalled d i with hp | ⟨⟨w, rfl, hw⟩, hp⟩
    · exact ⟨hp.trans, fun ht hs => absurd (hp.symm.trans ht) (by simp [hs])⟩
    · exact ⟨fun _ => hp, fun _ _ => ⟨w, rest, hin, hw⟩⟩

/-- Settles O13: mode and addresses are kept, or the input is CONFIGURE of the record. -/
theorem bufferingWrittenOnlyByConfigure : Obligations.BufferingWrittenOnlyByConfigure := by
  unfold Obligations.BufferingWrittenOnlyByConfigure
  intro s t d i h hne
  obtain rfl | ⟨x, rest, hin, hg⟩ := step_guarded h
  · exact absurd rfl hne
  · rcases hg.placement d i with hp | ⟨target, w, rfl, hw⟩
    · exact absurd hp hne
    · exact ⟨w, rest, target, hin, hw⟩

/-- Settles O14: the device context is kept, or the input is `fatal` or an INIT with both pointers. -/
theorem deviceContextWrittenOnlyByInitAndFault : Obligations.DeviceContextWrittenOnlyByInitAndFault := by
  unfold Obligations.DeviceContextWrittenOnlyByInitAndFault
  intro s t h hne
  obtain rfl | ⟨x, rest, hin, hg⟩ := step_guarded h
  · exact absurd rfl hne
  · rcases hg.dev with hd | hd | ⟨c, ⟨w, hx, hw⟩, hd⟩
    · exact absurd hd hne
    · exact ⟨x, rest, hin, .inl hd⟩
    · exact ⟨x, rest, hin, .inr ⟨w, c, hx, hw, hd⟩⟩

/-- Settles O15: a flag that is set was set before, or the input is the wire step that sets it. -/
theorem completionFlagsSetOnlyByTheWire : Obligations.CompletionFlagsSetOnlyByTheWire := by
  unfold Obligations.CompletionFlagsSetOnlyByTheWire
  intro s t i h
  obtain rfl | ⟨x, rest, hin, hg⟩ := step_guarded h
  · exact ⟨fun ht hs => absurd ht (by simp [hs]), fun ht hs => absurd ht (by simp [hs])⟩
  · refine ⟨fun ht hs => ?tx, fun ht hs => ?rx⟩
    case tx =>
      rcases hg.ctrTx i ht with hp | rfl | rfl
      · exact absurd hp (by simp [hs])
      · exact ⟨rest, .inl hin⟩
      · exact ⟨rest, .inr hin⟩
    case rx =>
      rcases hg.ctrRx i ht with hp | ⟨bytes, rfl | rfl⟩
      · exact absurd hp (by simp [hs])
      · exact ⟨bytes, rest, .inl hin⟩
      · exact ⟨bytes, rest, .inr hin⟩

/-- Settles O17: a byte that changed was written, and `WritesHost` names the three inputs that may write it. -/
theorem callerMemoryWrittenOnlyInsideItsRegion : Obligations.CallerMemoryWrittenOnlyInsideItsRegion := by
  unfold Obligations.CallerMemoryWrittenOnlyInsideItsRegion
  intro s t y h hne
  obtain rfl | ⟨x, rest, hin, hg⟩ := step_guarded h
  · exact absurd rfl hne
  · refine ⟨x, rest, hin, ?_⟩
    rcases hg.host y with hp | hw
    · exact absurd hp hne
    · cases hw
      case caller a v hx hy => exact .inl ⟨a, v, hx, hy⟩
      case read a buf n hx hlow hhigh =>
        obtain ⟨w, hx, hw⟩ := hx
        exact .inr (.inl ⟨w, a, buf, n, hx, hw, hlow, hhigh⟩)
      case completeOut i g hx hg hy =>
        obtain ⟨w, hx, hw⟩ := hx
        exact .inr (.inr ⟨w, i, g, hx, hw, hg, hy⟩)

end Sys2Proof.Machine
end

section
/-! Power-on and INIT: what each leaves (10_state.md R47, 44_bringup.md R147, R148). -/

namespace Sys2Proof.Machine

@[simp] theorem reset_reg (i : Slot) : State.reset.reg i = EndpointRegister.zero := by
  simp [State.reg, State.reset]

@[simp] theorem reset_late (i : Slot) : State.reset.late i = LateWire.none := by
  simp [State.late, State.reset]

/-- With every enable clear no source reaches the output (10_state.md R39). -/
theorem irq_of_no_enables {s : State} (h : s.cntr = ControlRegister.zero) : irq s = false := by
  simp [irq, h, ControlRegister.zero]

/-- Settles O7: the arrays hold zeros, the rest is written in `State.reset`. -/
theorem powerOnState : Obligations.PowerOnState := by
  unfold Obligations.PowerOnState
  exact ⟨rfl, fun d i => reset_ep d i, fun i => reset_reg i, fun i => reset_late i, rfl, rfl, rfl, rfl, rfl,
    irq_of_no_enables rfl⟩

theorem initEffects_late (c : BitVec 8) (s : State) (i : Slot) : (initEffects c s).late i = LateWire.none := by
  have hlate : (initEffects c s).lateWire = s.endLate.lateWire := rfl
  rw [State.late, hlate, ← State.late, State.endLate_late]

/-- The reset pulse and the two writes of `fres` leave the control register as power-on does (44_bringup.md R148). -/
theorem initEffects_cntr (c : BitVec 8) (s : State) : (initEffects c s).cntr = ControlRegister.zero := rfl

/-- Settles O44: INIT past its checks is `initEffects`, read field by field. -/
theorem initBringsUpTheBlock : Obligations.InitBringsUpTheBlock := by
  unfold Obligations.InitBringsUpTheBlock
  intro s c hc
  exact ⟨_, exec_init_of_fits hc s, rfl, rfl, fun d i => initEffects_ep c s d i, fun i => initEffects_reg c s i,
    initEffects_cntr c s, rfl, fun i => initEffects_late c s i, rfl, irq_of_no_enables (initEffects_cntr c s), rfl,
    fun _ => rfl, fun _ => rfl, fun _ => rfl, rfl, rfl⟩

end Sys2Proof.Machine
end

section
/-! The gate on the slot (10_state.md R26), and CONFIGURE once more (40_registry.md R98). -/

namespace Sys2Proof.Machine

theorem gates_beyond {s : State} {n : Nat} (hr : s.dev.state = .ready) (hc : s.dev.count.toNat ≤ n)
    (k : Slot → Result) : requireReady s (withSlot s n k) = .refused .slotOutOfRange := by
  rw [requireReady_of hr, withSlot_beyond hc]

/-- Settles O20: each of the commands begins with the same two gates. -/
theorem slotBeyondTheCountIsRefused : Obligations.SlotBeyondTheCountIsRefused := by
  unfold Obligations.SlotBeyondTheCountIsRefused
  intro s ea hr hc
  exact ⟨exec_configure_beyond hr hc, fun _ _ => gates_beyond hr hc _, gates_beyond hr hc _, gates_beyond hr hc _,
    fun _ _ => gates_beyond hr hc _, fun _ _ => gates_beyond hr hc _, gates_beyond hr hc _, gates_beyond hr hc _⟩

/-- An update of a record that changes nothing the second time. -/
theorem State.updEp_updEp_of_idempotent {f : EndpointRecord → EndpointRecord} (hf : ∀ e, f (f e) = f e) (s : State)
    (d : Direction) (i : Slot) : (s.updEp d i f).updEp d i f = s.updEp d i f := by
  cases d
  case IN => simp [State.updEp, hf]
  case OUT => simp [State.updEp, hf]

theorem EndpointRecord.configured_configured (target : MemTarget) (e : EndpointRecord) :
    (e.configured target).configured target = e.configured target := by
  cases target <;> rfl

/-- Settles O19: the record is written as it already is, and the answer is the same. -/
theorem configureTwiceIsConfigureOnce : Obligations.ConfigureTwiceIsConfigureOnce := by
  unfold Obligations.ConfigureTwiceIsConfigureOnce
  intro s t ea target h
  obtain ⟨hr, i, hi, hc, he, rfl⟩ := execConfigure_eq_next.mp h
  have hagain := State.updEp_updEp_of_idempotent (f := (·.configured target))
    (EndpointRecord.configured_configured target) s ea.dir i
  exact execConfigure_eq_next.mpr ⟨hr, i, hi, hc, he, (congrArg (State.respond · .ok) hagain).symm⟩

end Sys2Proof.Machine
end

section
/-! The Packet-Memory Transfer Engine: WRITE and READ on admitted operands and their refusals (41_transfer_engine.md
R101 to R107), and the obligations. -/

namespace Sys2Proof.Machine

/-! ### When a request is admitted -/

theorem admitted_iff {a : PmAddr} {n : Nat} :
    admitted a n = true ↔ a.toNat % 2 = 0 ∧ a.toNat / 2 + (n + 1) / 2 ≤ Config.pmWords := by
  rw [admitted, fitsPacketMemory, ceilDiv2, Bool.and_eq_true, evenAddr_iff, decide_eq_true_eq]

theorem exec_write_of_admitted {s : State} {buf : HostAddr} {a : PmAddr} {n : BitVec 16} (hr : s.dev.state = .ready)
    (ha : admitted a n.toNat = true) (hb : n.toNat = 0 ∨ buf.toNat + n.toNat ≤ Config.hostSize) :
    exec (.write buf a n) s =
      .next ((afterWrite Config.oddWritePolicy (some ⟨buf, n.setWidth 32⟩) buf a n.toNat s).respond .ok) :=
  execWrite_eq_next.mpr ⟨hr, ha, (regionAdmits_own buf n).mpr hb, rfl⟩

theorem exec_read_of_admitted {s : State} {buf : HostAddr} {a : PmAddr} {n : BitVec 16} (hr : s.dev.state = .ready)
    (ha : admitted a n.toNat = true) (hb : n.toNat = 0 ∨ buf.toNat + n.toNat ≤ Config.hostSize) :
    exec (.read a buf n) s = .next ((afterRead a buf n.toNat s).respond .ok) :=
  execRead_eq_next.mpr ⟨hr, ha, (regionAdmits_own buf n).mpr hb, rfl⟩

theorem exec_writeRead_outOfRange {s : State} {buf : HostAddr} {a : PmAddr} {n : BitVec 16} (hr : s.dev.state = .ready)
    (ha : ¬admitted a n.toNat = true) :
    exec (.write buf a n) s = .refused .packetMemoryRange ∧ exec (.read a buf n) s = .refused .packetMemoryRange := by
  refine ⟨(requireReady_of hr _).trans ?write, (requireReady_of hr _).trans ?read⟩
  case write => rw [pmaWrite, if_neg ha, andThen_refused]
  case read => rw [pmaRead, if_neg ha, andThen_refused]

theorem exec_writeRead_outsideRegion {s : State} {buf : HostAddr} {a : PmAddr} {n : BitVec 16}
    (hr : s.dev.state = .ready) (ha : admitted a n.toNat = true)
    (hb : ¬regionAdmits (some ⟨buf, n.setWidth 32⟩) buf n.toNat = true) :
    exec (.write buf a n) s = .refused .outsideCallerRegion ∧
      exec (.read a buf n) s = .refused .outsideCallerRegion := by
  refine ⟨(requireReady_of hr _).trans ?write, (requireReady_of hr _).trans ?read⟩
  case write => rw [pmaWrite, if_pos ha, if_neg hb, andThen_refused]
  case read => rw [pmaRead, if_pos ha, if_neg hb, andThen_refused]

/-- Settles O25: the range check comes before the region check. -/
theorem inadmissibleRequestIsRefused : Obligations.InadmissibleRequestIsRefused := by
  unfold Obligations.InadmissibleRequestIsRefused
  intro s buf a n hr
  refine ⟨fun h => exec_writeRead_outOfRange hr ?range,
    fun he hf h0 hb => exec_writeRead_outsideRegion hr ?admitted ?region⟩
  case range => rw [admitted_iff]; omega
  case admitted => exact admitted_iff.mpr ⟨he, hf⟩
  case region => rw [regionAdmits_own]; omega

/-! ### WRITE -/

/-- Two bytes of a packet make its word, low byte first (20_memory.md R57). -/
theorem PacketHolds.pmWord {s t : State} {cursor : HostAddr} {a : PmAddr} {len i : Nat}
    (h : PacketHolds s t cursor a len) (ha : a.toNat % 2 = 0) (hi : 2 * i + 1 < len) :
    pmWord t (a.toNat / 2 + i) = hostByte s (cursor.toNat + 2 * i + 1) ++ hostByte s (cursor.toNat + 2 * i) := by
  have hlow : 2 * (a.toNat / 2 + i) = a.toNat + 2 * i := by omega
  rw [Machine.pmWord, hlow, Nat.add_assoc, h (2 * i + 1) hi, h (2 * i) (by omega), Nat.add_assoc]

/-- Settles O21: the packet holds the caller's bytes, and no byte outside its words is written. -/
theorem writeStoresCallerBytes : Obligations.WriteStoresCallerBytes := by
  unfold Obligations.WriteStoresCallerBytes
  intro s buf a n hr he hf hb
  have ha := admitted_iff.mpr ⟨he, hf⟩
  have hpacket := afterWrite_packetHolds ha Config.oddWritePolicy (some ⟨buf, n.setWidth 32⟩) buf s
  have houtside := afterWrite_keepsPmOutside ha Config.oddWritePolicy (some ⟨buf, n.setWidth 32⟩) buf s
  refine ⟨_, exec_write_of_admitted hr ha hb, rfl, fun i hi => hpacket.pmWord he hi,
    fun hodd => hpacket (n.toNat - 1) (by omega), houtside, fun x => ?host, fun d i => ?record, fun i => ?reg,
    fun i => ?table, ⟨rfl, rfl, rfl, rfl, rfl, rfl, rfl⟩, rfl⟩
  case host => rw [State.respond_hostByte, afterWrite_hostByte]
  case record => rw [State.respond_ep, afterWrite_ep]
  case reg => rw [State.respond_reg, afterWrite_reg]
  case table => rw [State.respond_table, afterWrite_table]

/-- The byte past an odd packet is the padding (20_memory.md R58). -/
theorem afterWrite_padByte {p : OddWritePolicy} {r : Option Region} {buf : HostAddr} {a : PmAddr} {n : Nat}
    (ha : admitted a n = true) (hn : n % 2 = 1) (s : State) :
    pmByte (afterWrite p r buf a n s) (a.toNat + n) = padByte p r (buf.toNat + n) s := by
  have hceil := two_ceilDiv2 n
  rw [afterWrite_pmByte, wordBase_of_admitted ha, if_pos (by omega), if_neg (by omega)]

/-- Settles O22: the high byte is the padding of the policy, the low byte the last of the packet. -/
theorem oddWriteFillsTheLastHighByte : Obligations.OddWriteFillsTheLastHighByte := by
  unfold Obligations.OddWriteFillsTheLastHighByte
  intro s t policy r buf a n hn h
  obtain ⟨ha, _, rfl⟩ := pmaWrite_eq_next.mp h
  refine ⟨?maskZero, ?overread, afterWrite_packetHolds ha _ _ _ _ (n - 1) (by omega)⟩
  case maskZero =>
    rintro rfl
    exact afterWrite_padByte ha hn s
  case overread =>
    rintro rfl hg
    exact (afterWrite_padByte ha hn s).trans (if_pos hg)

/-! ### READ -/

theorem afterRead_stores {a : PmAddr} {n : Nat} (ha : admitted a n = true) (buf : HostAddr) (s : State) {k : Nat}
    (hk : k < n) : hostByte (afterRead a buf n s) (buf.toNat + k) = pmByte s (a.toNat + k) := by
  rw [afterRead_hostByte, if_pos (by omega), wordBase_of_admitted ha, Nat.add_sub_cancel_left]

theorem afterRead_keepsHostOutside (a : PmAddr) (buf : HostAddr) (n : Nat) (s : State) :
    KeepsHostOutside s (afterRead a buf n s) buf.toNat n := by
  intro y hy
  rw [afterRead_hostByte, if_neg (by omega)]

/-- Settles O23: exactly the bytes of the request are stored. -/
theorem readReturnsPacketBytes : Obligations.ReadReturnsPacketBytes := by
  unfold Obligations.ReadReturnsPacketBytes
  intro s a buf n hr he hf hb
  have ha := admitted_iff.mpr ⟨he, hf⟩
  exact ⟨_, exec_read_of_admitted hr ha hb, rfl, fun k hk => afterRead_stores ha buf s hk,
    afterRead_keepsHostOutside a buf n.toNat s, fun _ => rfl, fun _ _ => rfl, fun _ => rfl, fun _ => rfl,
    ⟨rfl, rfl, rfl, rfl, rfl, rfl, rfl⟩, rfl⟩

/-! ### One after the other -/

/-- What a `write` put there a later `read` returns, while the words stay as they are (41_transfer_engine.md R106). -/
theorem read_after_write {p : OddWritePolicy} {r : Option Region} {s s2 : State} {buf : HostAddr} {a : PmAddr} {n : Nat}
    (ha : admitted a n = true)
    (hs2 : ∀ x, a.toNat ≤ x → x < a.toNat + 2 * ((n + 1) / 2) → pmByte s2 x = pmByte (afterWrite p r buf a n s) x)
    (buf' : HostAddr) {k : Nat} (hk : k < n) :
    hostByte (afterRead a buf' n s2) (buf'.toNat + k) = hostByte s (buf.toNat + k) := by
  rw [afterRead_stores ha buf' s2 hk, hs2 _ (by omega) (by omega)]
  exact afterWrite_packetHolds ha p r buf s k hk

/-- Settles O24: the read returns the packet, which holds the caller's bytes. -/
theorem writeThenReadReturnsTheBytes : Obligations.WriteThenReadReturnsTheBytes := by
  unfold Obligations.WriteThenReadReturnsTheBytes
  constructor
  · intro policy r r' s s1 s2 t buf buf' a n hwrite hs2 hread k hk
    obtain ⟨ha, _, rfl⟩ := pmaWrite_eq_next.mp hwrite
    obtain ⟨_, _, rfl⟩ := pmaRead_eq_next.mp hread
    exact read_after_write ha hs2 buf' hk
  · intro s buf buf' a n hr he hf hb hb'
    have ha := admitted_iff.mpr ⟨he, hf⟩
    refine ⟨_, _, exec_write_of_admitted hr ha (.inr hb), exec_read_of_admitted hr ha (.inr hb'), fun k hk => ?_⟩
    rw [State.respond_hostByte]
    exact read_after_write ha (fun _ _ _ => State.respond_pmByte ..) buf' hk

end Sys2Proof.Machine
end

section
/-! The Endpoint Lifecycle: ACTIVATE, DEACTIVATE and STALL on a named slot, whole (42_lifecycle.md R111 to R123). -/

namespace Sys2Proof.Machine

/-! ### What the late wire steps of one number keep -/

/-- A frame with late wire steps, of a command that wrote nothing else after them. -/
theorem OnlyTouches.updLate_respond {s t : State} {d : Direction} {i : Slot} (h : OnlyTouches s t d i)
    (f : LateWire → LateWire) (r : Response) : OnlyTouchesWire s ((t.updLate i f).respond r) d i :=
  (h.updLate f).respond r

/-! ### ACTIVATE -/

theorem epTypeOfCode_eq_none_iff (code : BitVec 8) : epTypeOfCode code = none ↔ 4 ≤ code.toNat := by
  revert code
  decide

theorem exec_activate_unrecognised {s : State} {ea : EpAddr} {i : Slot} {code : BitVec 8} (hn : Names s ea.num i)
    (hc : epTypeOfCode code = none) (mps : Len) :
    exec (.activate ea code mps) s = .next (s.respond .invalidEndpointType) :=
  execActivate_eq_next.mpr ⟨hn.ready, i, hn.number.symm, hn.number ▸ hn.below, .inl ⟨hc, rfl⟩⟩

theorem exec_activate_zero {s : State} {ea : EpAddr} {i : Slot} {code : BitVec 8} (hn : Names s ea.num i)
    (hc : epTypeOfCode code ≠ none) : exec (.activate ea code 0) s = .refused .zeroMaxPacket := by
  obtain ⟨ty, hty⟩ := Option.ne_none_iff_exists'.mp hc
  rw [exec_activate, execActivate, requireReady_of hn.ready, withSlot_of i hn.number hn.below, hty]
  exact if_pos rfl

/-- Settles O26: codes 4 to 255 name no type, and only a recognised one comes to the packet size. -/
theorem activateFailuresChangeNothing : Obligations.ActivateFailuresChangeNothing := by
  unfold Obligations.ActivateFailuresChangeNothing
  refine ⟨rfl, fun s ea i code hn => ⟨fun h mps => ?unrecognised, fun h => ?zero⟩⟩
  case unrecognised => exact exec_activate_unrecognised hn ((epTypeOfCode_eq_none_iff code).mpr h) mps
  case zero =>
    refine exec_activate_zero hn ?_
    rw [Ne, epTypeOfCode_eq_none_iff]
    omega

@[simp] theorem activateSlot_table_self (d : Direction) (i : Slot) (ty : EpType) (code : BitVec 8) (mps : Len)
    (s : State) : (activateSlot d i ty code mps s).table i = (s.table i).activated d (s.ep d i) := by
  simp [activateSlot]

@[simp] theorem activateSlot_late_self (d : Direction) (i : Slot) (ty : EpType) (code : BitVec 8) (mps : Len)
    (s : State) : (activateSlot d i ty code mps s).late i = (s.late i).activated d (s.ep d i).buffering := by
  simp [activateSlot]

/-- ACTIVATE on a named slot in terms of the fields it writes, in both buffering modes. -/
theorem exec_activate_sets {s : State} {ea : EpAddr} {i : Slot} {mps : Len} (ty : EpType) (hn : Names s ea.num i)
    (hm : mps ≠ 0) :
    ∃ t, exec (.activate ea (portTypeCode ty) mps) s = .next t ∧ t.response = some .ok ∧
      t.ep ea.dir i = (s.ep ea.dir i).loaded ea.dir i (portTypeCode ty) mps ∧
      t.reg i = (s.reg i).activated ea.dir i ty (s.ep ea.dir i).buffering ∧
      t.table i = (s.table i).activated ea.dir (s.ep ea.dir i) ∧
      t.late i = (s.late i).activated ea.dir (s.ep ea.dir i).buffering ∧
      OnlyTouchesWire s t ea.dir i ∧ KeepsPm s t ∧ KeepsHost s t ∧ t.signals = s.signals := by
  refine ⟨_, exec_activate_of_names ty hn hm, rfl, ?ep, ?reg, ?table, ?late, ?frame, fun _ => rfl, fun _ => rfl, rfl⟩
  case ep => rw [State.respond_ep, activateSlot_ep_self]
  case reg => rw [State.respond_reg, activateSlot_reg_self]
  case table => rw [State.respond_table, activateSlot_table_self]
  case late => rw [State.respond_late, activateSlot_late_self]
  case frame =>
    unfold activateSlot
    exact ((((OnlyTouches.refl s ea.dir i).updEp _).updReg _).updTable _).updLate_respond _ _

/-- Settles O27: in single mode each of the four `activated` writes its own direction. -/
theorem activateSingleSetsItsDirection : Obligations.ActivateSingleSetsItsDirection := by
  unfold Obligations.ActivateSingleSetsItsDirection
  intro s ⟨d, n⟩ i ty mps hn hm hb
  obtain ⟨t, hx, hresp, hep, hreg, htable, hlate, hframe⟩ := exec_activate_sets ty hn hm
  dsimp only at hb hep hreg htable hlate hframe ⊢
  rw [hb] at hreg hlate
  refine ⟨t, hx, hresp, hep, ?_, ?_, ?_, ?_, hframe⟩
  all_goals rintro rfl
  · exact ⟨hreg, by simp only [htable, BdtEntry.activated, hb]⟩
  · exact ⟨hreg, by simp only [htable, BdtEntry.activated, hb]⟩
  · exact hlate
  · exact hlate

/-- Settles O28: in double mode each of the four `activated` writes both directions. -/
theorem activateDoubleSetsBothDirections : Obligations.ActivateDoubleSetsBothDirections := by
  unfold Obligations.ActivateDoubleSetsBothDirections
  intro s ⟨d, n⟩ i ty mps hn hm hb
  obtain ⟨t, hx, hresp, hep, hreg, htable, hlate, hframe⟩ := exec_activate_sets ty hn hm
  dsimp only at hb hep hreg htable hlate hframe ⊢
  rw [hb] at hreg hlate
  refine ⟨t, hx, hresp, hep, ?reg, ?table, hlate, hframe⟩
  case reg =>
    rw [hreg]
    cases d
    case IN => simp [EndpointRegister.activated, EndpointRegister.activatedDouble, freshKind, freshStatTx]
    case OUT => simp [EndpointRegister.activated, EndpointRegister.activatedDouble, freshKind]
  case table => simp only [htable, BdtEntry.activated, hb]

/-! ### DEACTIVATE -/

@[simp] theorem deactivateSlot_ep_self (d : Direction) (i : Slot) (s : State) :
    (deactivateSlot d i s).ep d i = { s.ep d i with lifecycle := .disabled } := by
  simp [deactivateSlot]

@[simp] theorem deactivateSlot_late_self (d : Direction) (i : Slot) (s : State) :
    (deactivateSlot d i s).late i = (s.late i).deactivated s.pullup (s.reg i) d (s.ep d i).buffering := by
  simp [deactivateSlot]

/-- DEACTIVATE on a named slot in terms of the fields it writes, in both buffering modes. -/
theorem exec_deactivate_sets {s : State} {ea : EpAddr} {i : Slot} (hn : Names s ea.num i) :
    ∃ t, exec (.deactivate ea) s = .next t ∧ t.response = some .ok ∧
      t.ep ea.dir i = { s.ep ea.dir i with lifecycle := .disabled } ∧
      t.reg i = (s.reg i).deactivated ea.dir (s.ep ea.dir i).buffering ∧
      t.late i = (s.late i).deactivated s.pullup (s.reg i) ea.dir (s.ep ea.dir i).buffering ∧
      t.table i = s.table i ∧ OnlyTouchesWire s t ea.dir i ∧ KeepsPm s t ∧ KeepsHost s t ∧ t.signals = s.signals := by
  refine ⟨_, exec_deactivate_of_names hn, rfl, ?ep, ?reg, ?late, rfl, ?frame, fun _ => rfl, fun _ => rfl, rfl⟩
  case ep => rw [State.respond_ep, deactivateSlot_ep_self]
  case reg => rw [State.respond_reg, deactivateSlot_reg_self]
  case late => rw [State.respond_late, deactivateSlot_late_self]
  case frame =>
    unfold deactivateSlot
    exact (((OnlyTouches.refl s ea.dir i).updReg _).updEp _).updLate_respond _ _

/-- Settles O29: the mode decides between one direction and both. -/
theorem deactivateDisablesItsDirections : Obligations.DeactivateDisablesItsDirections := by
  unfold Obligations.DeactivateDisablesItsDirections
  intro s ⟨d, n⟩ hr
  refine ⟨fun hc => gates_beyond hr hc _, fun i hn => ?_⟩
  obtain ⟨t, hx, hresp, hep, hreg, hlate, hframe⟩ := exec_deactivate_sets hn
  dsimp only at hep hreg hlate hframe ⊢
  refine ⟨t, hx, hresp, hep, ?_, ?_, ?_, ?_, ?_, ?_, hframe⟩
  all_goals
    intro hb
    rw [hb] at hreg hlate
  · rintro rfl
    exact hreg
  · rintro rfl
    exact hreg
  · rw [hreg, EndpointRegister.deactivated]
  · rintro rfl
    exact hlate
  · rintro rfl
    exact hlate
  · exact hlate

/-! ### STALL -/

theorem exec_stall (ea : EpAddr) (s : State) : exec (.stall ea) s = stallWith true ea s := rfl

theorem stallWith_ignored {strictGt : Bool} {ea : EpAddr} {s : State} (hr : s.dev.state = .ready)
    (h : stallIgnored strictGt ea.num s.dev.count.toNat = true) :
    stallWith strictGt ea s = .next (s.respond .ok) := by
  rw [stallWith, requireReady_of hr, if_pos h]
  rfl

theorem stallIgnored_true_iff {n count : Nat} : stallIgnored true n count = true ↔ count < n := decide_eq_true_iff

theorem stallIgnored_false_iff {n count : Nat} : stallIgnored false n count = true ↔ count ≤ n := decide_eq_true_iff

/-- Off the configured count the two bounds agree (90_conflicts.md C1). -/
theorem stallIgnored_eq_of_ne {n count : Nat} (h : n ≠ count) :
    stallIgnored true n count = stallIgnored false n count := by
  rw [Bool.eq_iff_iff, stallIgnored_true_iff, stallIgnored_false_iff]
  omega

theorem stallWith_eq_of_ne {ea : EpAddr} {s : State} (h : ea.num ≠ s.dev.count.toNat) :
    stallWith true ea s = stallWith false ea s := by
  rw [stallWith, stallWith, stallIgnored_eq_of_ne h]

/-- Settles O32: the settings enter through `stallIgnored` alone. -/
theorem stallSettingsDifferOnlyAtTheCount : Obligations.StallSettingsDifferOnlyAtTheCount := by
  unfold Obligations.StallSettingsDifferOnlyAtTheCount
  exact fun s ea => ⟨fun h => stallWith_eq_of_ne h, fun hr h => stallWith_ignored hr (stallIgnored_false_iff.mpr h)⟩

theorem exec_stall_noSlot {ea : EpAddr} {s : State} (hr : s.dev.state = .ready) (hc : ea.num ≤ s.dev.count.toNat)
    (hN : Config.N ≤ ea.num) : exec (.stall ea) s = .refused .slotOutOfRange := by
  have hi : ¬stallIgnored true ea.num s.dev.count.toNat = true := by rw [stallIgnored_true_iff]; omega
  rw [exec_stall, stallWith, requireReady_of hr, if_neg hi, dif_neg (by omega)]

theorem exec_stall_of_slot {ea : EpAddr} {s : State} {i : Slot} (hr : s.dev.state = .ready) (hi : ea.num = i.val)
    (hc : i.val ≤ s.dev.count.toNat) :
    exec (.stall ea) s = .next ((stallSlot ea.dir i s).respond .ok) :=
  execStall_eq_next.mpr ⟨hr, .inr ⟨i, hi.symm, hi ▸ hc, rfl⟩⟩

@[simp] theorem stallSlot_ep_self (d : Direction) (i : Slot) (s : State) :
    (stallSlot d i s).ep d i = { s.ep d i with stalled := true } := by
  simp [stallSlot]

@[simp] theorem stallSlot_reg_self (d : Direction) (i : Slot) (s : State) :
    (stallSlot d i s).reg i = (s.reg i).stalled d := by
  simp [stallSlot]

@[simp] theorem stallSlot_late_self (d : Direction) (i : Slot) (s : State) :
    (stallSlot d i s).late i = (s.late i).aborted s.pullup (s.reg i) d := by
  simp [stallSlot]

/-- STALL of a slot in terms of the fields it writes. -/
theorem exec_stall_sets {s : State} {ea : EpAddr} {i : Slot} (hr : s.dev.state = .ready) (hi : ea.num = i.val)
    (hc : i.val ≤ s.dev.count.toNat) :
    ∃ t, exec (.stall ea) s = .next t ∧ t.response = some .ok ∧
      t.ep ea.dir i = { s.ep ea.dir i with stalled := true } ∧ t.reg i = (s.reg i).stalled ea.dir ∧
      t.late i = (s.late i).aborted s.pullup (s.reg i) ea.dir ∧
      t.table i = s.table i ∧ OnlyTouchesWire s t ea.dir i ∧ KeepsPm s t ∧ KeepsHost s t ∧ t.signals = s.signals := by
  refine ⟨_, exec_stall_of_slot hr hi hc, rfl, ?ep, ?reg, ?late, rfl, ?frame, fun _ => rfl, fun _ => rfl, rfl⟩
  case ep => rw [State.respond_ep, stallSlot_ep_self]
  case reg => rw [State.respond_reg, stallSlot_reg_self]
  case late => rw [State.respond_late, stallSlot_late_self]
  case frame => exact (((OnlyTouches.refl s ea.dir i).updEp _).updReg _).updLate_respond _ _

/-- Settles O31: above the bound nothing, without a slot a refusal, else the flag and one direction. -/
theorem stallForcesItsDirection : Obligations.StallForcesItsDirection := by
  unfold Obligations.StallForcesItsDirection
  intro s ⟨d, n⟩ hr
  refine ⟨fun hc => ?ignored, fun hc hN => exec_stall_noSlot hr hc hN, fun i hi hc => ?stalled,
    fun hc => stallWith_ignored hr (stallIgnored_false_iff.mpr hc), fun hc => ?settings⟩
  case ignored => exact stallWith_ignored hr (stallIgnored_true_iff.mpr hc)
  case settings => exact (stallWith_eq_of_ne (Nat.ne_of_lt hc)).symm
  case stalled =>
    obtain ⟨t, hx, hresp, hep, hreg, hlate, hframe⟩ := exec_stall_sets (ea := ⟨d, n⟩) hr hi hc
    dsimp only at hep hreg hlate hframe ⊢
    refine ⟨t, hx, hresp, hep, ?_, ?_, ?_, ?_, hframe⟩
    all_goals rintro rfl
    · exact hreg
    · exact hreg
    · exact hlate
    · exact hlate

end Sys2Proof.Machine
end

section
/-! The wire agent: the packet it sends, the packet it stores, its answers, and the late steps that STALL and DEACTIVATE
leave over (45_requests_completion.md R171 to R175, 70_reset_and_hazards.md R217). -/

namespace Sys2Proof.Machine

/-! ### When a wire step is enabled -/

theorem EndpointRegister.wireSingle_iff {r : EndpointRegister} :
    r.wireSingle = true ↔ r.epType = .control ∨ r.epType = .interrupt ∨ (r.epType = .bulk ∧ r.kind = false) := by
  cases h : r.epType <;> simp [EndpointRegister.wireSingle, h]

theorem EndpointRegister.statusOnly_iff {r : EndpointRegister} :
    r.statusOnly = true ↔ r.epType = .control ∧ r.kind = true := by
  simp [EndpointRegister.statusOnly]

theorem wireFits_iff {a : PmAddr} {n : Nat} :
    wireFits a n = true ↔ n = 0 ∨ a.toNat / 2 + (n + 1) / 2 ≤ Config.pmWords := by
  rw [wireFits, fitsPacketMemory, ceilDiv2, Bool.or_eq_true, beq_iff_eq, decide_eq_true_eq]

theorem handshakeOf_eq_none_iff {v : Status} : handshakeOf v = none ↔ v = .valid := by
  cases v <;> simp [handshakeOf]

theorem withWire_of {s : State} (i : Slot) (hp : s.pullup = true) (k : Slot → Result) : withWire s i.val k = k i := by
  rw [withWire, dif_pos i.isLt, if_pos hp]

/-- Without a left-over step there is none, pull-up or not. -/
theorem withWire_refused {s : State} {i : Slot} {k : Slot → Result} (h : k i = .refused .wireStepNotEnabled) :
    withWire s i.val k = .refused .wireStepNotEnabled := by
  rw [withWire, dif_pos i.isLt]
  split
  case isTrue => exact h
  case isFalse => rfl

/-! ### The packet sent: R172 -/

/-- `u` is `s` after the host collected `data` from the IN direction of slot `i`. -/
structure PacketSent (i : Slot) (s u : State) (data : List Byte) : Prop where
  signals : u.signals = s.signals ++ [.txPacket i.val data (s.reg i).dtogTx]
  length : data.length = (s.table i).countTx.toNat
  holds : ∀ k, k < data.length → data[k]? = some (pmByte s (2 * ((s.table i).addrTx.toNat / 2) + k))
  reg : u.reg i = { s.reg i with dtogTx := !(s.reg i).dtogTx, statTx := .nak, ctrTx := true }
  rest : u = { s with epr := u.epr, lateWire := u.lateWire, signals := u.signals }
  otherRegs : KeepsOtherRegs s u i
  late : u.late i = { s.late i with tx := false }
  otherLate : ∀ j, j ≠ i → u.late j = s.late j

theorem sendPacket_late (i j : Slot) (s : State) :
    (sendPacket i s).late j = if j = i then (s.late i).ended .IN else s.late j :=
  State.updLate_late _ i j _

theorem packetSent_sendPacket (i : Slot) (s : State) :
    PacketSent i s ((sendPacket i s).emit (.txPacket i.val (txData (s.table i) s) (s.reg i).dtogTx))
      (txData (s.table i) s) where
  signals := rfl
  length := length_loadBytes ..
  holds := fun k hk => getElem?_loadBytes _ _ _ k (by rwa [txData, length_loadBytes] at hk)
  reg := by rw [State.emit_reg, sendPacket_reg, if_pos rfl]; rfl
  rest := rfl
  otherRegs := fun j hj => by rw [State.emit_reg, sendPacket_reg, if_neg hj]
  late := by rw [State.emit_late, sendPacket_late, if_pos rfl]; rfl
  otherLate := fun j hj => by rw [State.emit_late, sendPacket_late, if_neg hj]

theorem serveIn_of_single {i : Slot} {s : State} (hw : (s.reg i).wireSingle = true) :
    serveIn wireDb i s = wireInSingle i s := if_pos hw

theorem serveIn_sends {i : Slot} {s : State} (hw : (s.reg i).wireSingle = true)
    (hf : wireFits (s.table i).addrTx (s.table i).countTx.toNat = true) :
    ∃ u data, serveIn wireDb i s = .next u ∧ PacketSent i s u data := by
  refine ⟨_, _, ?_, packetSent_sendPacket i s⟩
  rw [serveIn_of_single hw]
  exact if_pos hf

theorem wireIn_of_valid {i : Slot} {s : State} (hp : s.pullup = true) (hv : (s.reg i).statTx = .valid) :
    wireIn i.val s = serveIn wireDb i s := by
  rw [wireIn, wireInWith, withWire_of i hp, hv]
  rfl

theorem lateWireIn_of_left {i : Slot} {s : State} (hp : s.pullup = true) (hl : (s.late i).tx = true)
    (hv : (s.reg i).statTx ≠ .valid) : lateWireIn i.val s = serveIn wireDb i s := by
  rw [lateWireIn, lateWireInWith, withWire_of i hp, if_pos ⟨hl, hv⟩]

theorem lateWireIn_of_none {i : Slot} {s : State} (hl : (s.late i).tx = false) :
    lateWireIn i.val s = .refused .wireStepNotEnabled := by
  unfold lateWireIn lateWireInWith
  exact withWire_refused (if_neg fun h => absurd h.1 (by simp [hl]))

/-- Settles O53: a valid status leads to `serveIn`, which sends. -/
theorem wireInSendsTheArmedPacket : Obligations.WireInSendsTheArmedPacket := by
  unfold Obligations.WireInSendsTheArmedPacket
  intro s i hp hv hmode hfits
  obtain ⟨u, data, hx, hs⟩ := serveIn_sends (EndpointRegister.wireSingle_iff.mpr hmode) (wireFits_iff.mpr hfits)
  exact ⟨u, data, (wireIn_of_valid hp hv).trans hx, hs.signals, hs.length, hs.holds, hs.reg, hs.rest, hs.otherRegs,
    hs.late, hs.otherLate⟩

/-! ### The packet stored: R174 -/

/-- `u` is `s` after the host delivered `bytes` to the OUT direction of slot `i`. -/
structure PacketStored (i : Slot) (bytes : List Byte) (s u : State) : Prop where
  holds : ∀ k, k < bytes.length → bytes[k]? = some (pmByte u (2 * ((s.table i).addrRx.toNat / 2) + k))
  outside : KeepsPmOutside s u (2 * ((s.table i).addrRx.toNat / 2)) (2 * ((bytes.length + 1) / 2))
  table : u.table i = { s.table i with countRx := BitVec.ofNat 10 bytes.length }
  reg : u.reg i = { s.reg i with dtogRx := !(s.reg i).dtogRx, statRx := .nak, ctrRx := true }
  late : u.late i = { s.late i with rx := false, statusOnly := false }
  touches : OnlyTouchesWire s u .OUT i
  ep : u.ep .OUT i = s.ep .OUT i
  host : KeepsHost s u
  signals : u.signals = s.signals

theorem storePacket_pmByte (i : Slot) (bytes : List Byte) (s : State) (y : Nat) :
    pmByte (storePacket i bytes s) y =
      if wordBase (s.table i).addrRx ≤ y ∧ y < wordBase (s.table i).addrRx + 2 * ceilDiv2 bytes.length then
        ((rxBytes bytes s)[y - wordBase (s.table i).addrRx]?).getD 0
      else pmByte s y := by
  rw [← length_rxBytes bytes s]
  rw [storePacket, State.updLate_pmByte, State.updReg_pmByte, State.updTable_pmByte, State.addDraws_pmByte,
    State.storePm_pmByte]

theorem getElem?_rxBytes {bytes : List Byte} {k : Nat} (hk : k < bytes.length) (s : State) :
    (rxBytes bytes s)[k]? = bytes[k]? := by
  unfold rxBytes
  split
  case isTrue => exact List.getElem?_append_left hk
  case isFalse => rfl

theorem packetStored_storePacket (i : Slot) (bytes : List Byte) (s : State) :
    PacketStored i bytes s (storePacket i bytes s) where
  holds := fun k hk => by
    have hceil := two_ceilDiv2 bytes.length
    rw [← wordBase, storePacket_pmByte, if_pos (by omega), Nat.add_sub_cancel_left, getElem?_rxBytes hk,
      List.getElem?_eq_getElem hk]
    rfl
  outside := fun y hy => by
    rw [← wordBase, ← ceilDiv2] at hy
    rw [storePacket_pmByte, if_neg (by omega)]
  table := by rw [storePacket_table, if_pos rfl]; rfl
  reg := by rw [storePacket_reg, if_pos rfl]; rfl
  late := (State.updLate_late_self ..).trans rfl
  touches := by
    have hmemory : OnlyTouches s ((s.storePm (wordBase (s.table i).addrRx) (rxBytes bytes s)).addDraws
        (bytes.length % 2)) .OUT i :=
      (OnlyTouches.refl s .OUT i).congr ⟨rfl, rfl, rfl, rfl, rfl, rfl, rfl⟩
        (fun _ _ => (State.addDraws_ep ..).trans (State.storePm_ep ..))
        (fun _ => (State.addDraws_reg ..).trans (State.storePm_reg ..))
        (fun _ => (State.addDraws_table ..).trans (State.storePm_table ..))
    unfold storePacket
    exact ((hmemory.updTable _).updReg _).updLate _
  ep := by rw [storePacket, State.updLate_ep, State.updReg_ep, State.updTable_ep, State.addDraws_ep, State.storePm_ep]
  host := (keptByWire_storePacket i bytes s).host
  signals := rfl

theorem serveOut_of_single {i : Slot} {bytes : List Byte} {s : State} (hw : (s.reg i).wireSingle = true) :
    serveOut wireDb i bytes s =
      if (s.reg i).statusOnly && !bytes.isEmpty then .next (s.emit (.handshake i.val .OUT .stalled))
      else wireOutSingle i bytes s := if_pos hw

theorem serveOut_stores {i : Slot} {bytes : List Byte} {s : State} (hw : (s.reg i).wireSingle = true)
    (hstage : bytes = [] ∨ ¬(s.reg i).statusOnly = true) (hm : bytes.length ≤ (s.ep .OUT i).maxPacketSize.toNat)
    (hc : bytes.length < Config.countLimit) (hf : wireFits (s.table i).addrRx bytes.length = true) :
    serveOut wireDb i bytes s = .next (storePacket i bytes s) := by
  have hdata : ¬((s.reg i).statusOnly && !bytes.isEmpty) = true := by
    rcases hstage with rfl | h
    · simp
    · simp [h]
  rw [serveOut_of_single hw, if_neg hdata, wireOutSingle, if_neg (by omega), if_neg (by omega), if_pos hf]

theorem wireOut_of_valid {i : Slot} {bytes : List Byte} {s : State} (hp : s.pullup = true)
    (hv : (s.reg i).statRx = .valid) : wireOut i.val bytes s = serveOut wireDb i bytes s := by
  rw [wireOut, wireOutWith, withWire_of i hp, hv]
  rfl

theorem lateWireOut_of_left {i : Slot} {bytes : List Byte} {s : State} (hp : s.pullup = true)
    (hl : (s.late i).takesOut bytes = true) (hv : (s.reg i).statRx ≠ .valid) :
    lateWireOut i.val bytes s = serveOut wireDb i bytes s := by
  rw [lateWireOut, lateWireOutWith, withWire_of i hp, if_pos ⟨hl, hv⟩]

theorem lateWireOut_of_none {i : Slot} {bytes : List Byte} {s : State} (hl : (s.late i).takesOut bytes = false) :
    lateWireOut i.val bytes s = .refused .wireStepNotEnabled := by
  unfold lateWireOut lateWireOutWith
  exact withWire_refused (if_neg fun h => absurd h.1 (by simp [hl]))

/-- Settles O54: a valid status leads to `serveOut`, which stores. -/
theorem wireOutStoresThePacket : Obligations.WireOutStoresThePacket := by
  unfold Obligations.WireOutStoresThePacket
  intro s i bytes hp hv hmode hstage hm hc hfits
  have hx := serveOut_stores (EndpointRegister.wireSingle_iff.mpr hmode)
    (hstage.imp id fun h => mt EndpointRegister.statusOnly_iff.mp h) hm hc
    (wireFits_iff.mpr (hfits.imp (fun h => by rw [h]; rfl) id))
  have hs := packetStored_storePacket i bytes s
  exact ⟨_, (wireOut_of_valid hp hv).trans hx, hs.holds, hs.outside, hs.table, hs.reg, hs.late, hs.touches, hs.ep,
    hs.host, hs.signals⟩

/-! ### Answers: R173, R175 -/

theorem wireIn_answers {i : Slot} {s : State} (hp : s.pullup = true) {h : Handshake}
    (hv : handshakeOf (s.reg i).statTx = some h) : wireIn i.val s = .next (s.emit (.handshake i.val .IN h)) := by
  rw [wireIn, wireInWith, withWire_of i hp, hv]

theorem wireOut_answers {i : Slot} {s : State} (bytes : List Byte) (hp : s.pullup = true) {h : Handshake}
    (hv : handshakeOf (s.reg i).statRx = some h) :
    wireOut i.val bytes s = .next (s.emit (.handshake i.val .OUT h)) := by
  rw [wireOut, wireOutWith, withWire_of i hp, hv]

/-- A status that is not Valid has its own answer. -/
theorem exists_handshake {v : Status} (hv : v ≠ .valid) :
    ∃ h, handshakeOf v = some h ∧ (h = .notReady ↔ v = .nak) ∧ (h = .stalled ↔ v = .stall) := by
  cases v
  case valid => exact absurd rfl hv
  all_goals exact ⟨_, rfl, by decide, by decide⟩

/-- A data packet in the status stage (45_requests_completion.md R175). -/
theorem serveOut_statusStage {i : Slot} {bytes : List Byte} {s : State} (ht : (s.reg i).epType = .control)
    (hk : (s.reg i).kind = true) (hb : bytes ≠ []) :
    serveOut wireDb i bytes s = .next (s.emit (.handshake i.val .OUT .stalled)) := by
  have hw : (s.reg i).wireSingle = true := EndpointRegister.wireSingle_iff.mpr (.inl ht)
  have hs : (s.reg i).statusOnly = true := EndpointRegister.statusOnly_iff.mpr ⟨ht, hk⟩
  rw [serveOut_of_single hw, if_pos (by simp [hs, hb])]

/-- Settles O55: the status has an answer, and so has the status stage. -/
theorem wireAnswersChangeNothing : Obligations.WireAnswersChangeNothing := by
  unfold Obligations.WireAnswersChangeNothing
  intro s i bytes hp
  refine ⟨fun hv => ?inAnswer, fun hv => ?outAnswer, fun hv ht hk hb => ?statusStage⟩
  case inAnswer =>
    obtain ⟨h, hh, hmeaning⟩ := exists_handshake hv
    exact ⟨h, wireIn_answers hp hh, hmeaning⟩
  case outAnswer =>
    obtain ⟨h, hh, hmeaning⟩ := exists_handshake hv
    exact ⟨h, wireOut_answers bytes hp hh, hmeaning⟩
  case statusStage => exact (wireOut_of_valid hp hv).trans (serveOut_statusStage ht hk hb)

/-! ### Late wire steps: R217 -/

/-- `q` is `r` with the status of direction `d` taken from Valid: flags, type and kind are as they were. -/
structure EndpointRegister.Taken (d : Direction) (r q : EndpointRegister) : Prop where
  status : q.status d ≠ .valid
  ctrTx : q.ctrTx = r.ctrTx
  ctrRx : q.ctrRx = r.ctrRx
  epType : q.epType = r.epType
  kind : q.kind = r.kind

/-- Of a Valid direction `d` of `r`, `l` holds exactly the step that was enabled. -/
structure LateWire.Left (d : Direction) (pullup : Bool) (r : EndpointRegister) (l : LateWire) : Prop where
  tx : d = .IN → r.statTx = .valid → l.tx = (pullup && r.wireSingle)
  rx : d = .OUT → r.statRx = .valid → l.rx = (pullup && r.wireSingle)
  statusOnly : d = .OUT → r.statRx = .valid → l.statusOnly = (pullup && r.statusOnly)

theorem EndpointRegister.taken_stalled (d : Direction) (r : EndpointRegister) : Taken d r (r.stalled d) := by
  cases d <;> exact ⟨nofun, rfl, rfl, rfl, rfl⟩

theorem EndpointRegister.taken_deactivated (d : Direction) (b : Buffering) (r : EndpointRegister) :
    Taken d r (r.deactivated d b) := by
  cases b
  case single => cases d <;> exact ⟨nofun, rfl, rfl, rfl, rfl⟩
  case double => cases d <;> exact ⟨nofun, rfl, rfl, rfl, rfl⟩

theorem LateWire.left_aborted (d : Direction) (pullup : Bool) (r : EndpointRegister) (l : LateWire) :
    Left d pullup r (l.aborted pullup r d) := by
  cases d
  case IN => exact ⟨fun _ hv => if_pos hv, nofun, nofun⟩
  case OUT => exact ⟨nofun, fun _ hv => if_pos hv, fun _ hv => if_pos hv⟩

theorem LateWire.left_deactivated (d : Direction) (b : Buffering) (pullup : Bool) (r : EndpointRegister)
    (l : LateWire) : Left d pullup r (l.deactivated pullup r d b) := by
  cases b
  case single => exact left_aborted d pullup r l
  case double => exact ⟨fun _ hv => if_pos hv, fun _ hv => if_pos hv, fun _ hv => if_pos hv⟩

/-- What STALL and DEACTIVATE of direction `d` leave of slot `i` for the wire. -/
structure StatusTaken (d : Direction) (i : Slot) (s t : State) : Prop where
  reg : (s.reg i).Taken d (t.reg i)
  late : (t.late i).Left d s.pullup (s.reg i)
  pullup : t.pullup = s.pullup
  table : t.table i = s.table i
  maxPacketSize : (t.ep .OUT i).maxPacketSize = (s.ep .OUT i).maxPacketSize
  pm : KeepsPm s t

theorem State.updEp_maxPacketSize {f : EndpointRecord → EndpointRecord}
    (hf : ∀ e, (f e).maxPacketSize = e.maxPacketSize) (s : State) (d d' : Direction) (i j : Slot) :
    ((s.updEp d i f).ep d' j).maxPacketSize = (s.ep d' j).maxPacketSize := by
  rw [State.updEp_ep]
  split
  case isTrue h => rw [hf, h.1, h.2]
  case isFalse => rfl

/-- Both commands complete on a named slot and take the status the same way. -/
theorem exec_takes_status {s : State} {c : Instr} {ea : EpAddr} {i : Slot} (hn : Names s ea.num i)
    (hc : c = .stall ea ∨ c = .deactivate ea) : ∃ t, exec c s = .next t ∧ StatusTaken ea.dir i s t := by
  rcases hc with rfl | rfl
  · refine ⟨_, exec_stall_of_slot hn.ready hn.number (Nat.le_of_lt hn.below), ?reg, ?late, rfl, rfl, ?size,
      fun _ => rfl⟩
    case reg => rw [State.respond_reg, stallSlot_reg_self]; exact EndpointRegister.taken_stalled _ _
    case late => rw [State.respond_late, stallSlot_late_self]; exact LateWire.left_aborted _ _ _ _
    case size =>
      exact State.updEp_maxPacketSize (f := fun e => { e with stalled := true }) (fun _ => rfl) s ea.dir .OUT i i
  · refine ⟨_, exec_deactivate_of_names hn, ?reg, ?late, rfl, rfl, ?size, fun _ => rfl⟩
    case reg => rw [State.respond_reg, deactivateSlot_reg_self]; exact EndpointRegister.taken_deactivated _ _ _
    case late => rw [State.respond_late, deactivateSlot_late_self]; exact LateWire.left_deactivated _ _ _ _ _
    case size =>
      exact State.updEp_maxPacketSize (f := fun e => { e with lifecycle := .disabled }) (fun _ => rfl) s ea.dir .OUT i i

namespace StatusTaken
variable {d : Direction} {i : Slot} {s t : State} (h : StatusTaken d i s t)
include h

theorem wireSingle : (t.reg i).wireSingle = (s.reg i).wireSingle := by
  rw [EndpointRegister.wireSingle, EndpointRegister.wireSingle, h.reg.epType, h.reg.kind]

theorem statusOnly : (t.reg i).statusOnly = (s.reg i).statusOnly := by
  rw [EndpointRegister.statusOnly, EndpointRegister.statusOnly, h.reg.epType, h.reg.kind]

/-- The enabled IN step is still there, and sends its packet. -/
theorem lateWireIn_sends (hd : d = .IN) (hp : s.pullup = true) (hw : (s.reg i).wireSingle = true)
    (hv : (s.reg i).statTx = .valid) (hf : wireFits (s.table i).addrTx (s.table i).countTx.toNat = true) :
    ∃ u data, lateWireIn i.val t = .next u ∧ PacketSent i t u data := by
  have hleft : (t.late i).tx = true := by rw [h.late.tx hd hv, hp, hw]; rfl
  have hstatus := h.reg.status
  subst hd
  rw [lateWireIn_of_left (h.pullup.trans hp) hleft hstatus]
  exact serveIn_sends (h.wireSingle.trans hw) (h.table ▸ hf)

/-- The enabled OUT step is still there, and stores its packet. -/
theorem lateWireOut_stores (hd : d = .OUT) (hp : s.pullup = true) (hw : (s.reg i).wireSingle = true)
    (hv : (s.reg i).statRx = .valid) {bytes : List Byte} (hstage : bytes = [] ∨ ¬(s.reg i).statusOnly = true)
    (hm : bytes.length ≤ (s.ep .OUT i).maxPacketSize.toNat) (hc : bytes.length < Config.countLimit)
    (hf : wireFits (s.table i).addrRx bytes.length = true) :
    lateWireOut i.val bytes t = .next (storePacket i bytes t) := by
  have hleft : (t.late i).takesOut bytes = true := by
    rw [LateWire.takesOut, h.late.rx hd hv, h.late.statusOnly hd hv, hp, hw]
    rcases hstage with rfl | hstage
    · simp
    · simp [hstage]
  have hstatus := h.reg.status
  subst hd
  rw [lateWireOut_of_left (h.pullup.trans hp) hleft hstatus]
  exact serveOut_stores (h.wireSingle.trans hw) (h.statusOnly ▸ hstage) (h.maxPacketSize ▸ hm) hc (h.table ▸ hf)

/-- A step that was not enabled is in no later state that holds what the command left. -/
theorem late_of_not_enabled (hv : (s.reg i).status d = .valid) (he : ¬(s.pullup = true ∧ (s.reg i).wireSingle = true))
    {u : State} (hu : u.late i = t.late i) :
    (d = .IN → lateWireIn i.val u = .refused .wireStepNotEnabled) ∧
      (d = .OUT → ∀ bytes, lateWireOut i.val bytes u = .refused .wireStepNotEnabled) := by
  have hno : (s.pullup && (s.reg i).wireSingle) = false := by
    rwa [← Bool.and_eq_true, Bool.not_eq_true] at he
  constructor
  · rintro rfl
    exact lateWireIn_of_none (by rw [hu, h.late.tx rfl hv, hno])
  · rintro rfl bytes
    exact lateWireOut_of_none (by rw [hu, LateWire.takesOut, h.late.rx rfl hv, hno, Bool.false_and])

/-- Nor is a data packet of a status stage. -/
theorem late_of_statusStage (hd : d = .OUT) (hv : (s.reg i).statRx = .valid) (hp : s.pullup = true)
    (hs : (s.reg i).statusOnly = true) {bytes : List Byte} (hb : bytes ≠ []) {u : State} (hu : u.late i = t.late i) :
    lateWireOut i.val bytes u = .refused .wireStepNotEnabled := by
  refine lateWireOut_of_none ?_
  rw [hu, LateWire.takesOut, h.late.statusOnly hd hv, hp, hs]
  simp [hb]

end StatusTaken

/-- Settles O57: what both commands leave over is `StatusTaken`, which holds the enabled step and no other. -/
theorem stallAndDeactivateWithdrawNoWireStep : Obligations.StallAndDeactivateWithdrawNoWireStep := by
  unfold Obligations.StallAndDeactivateWithdrawNoWireStep
  constructor
  · intro s c ea i bytes hn hc hp hmode
    have hw := EndpointRegister.wireSingle_iff.mpr hmode
    obtain ⟨t, hx, ht⟩ := exec_takes_status hn hc
    refine ⟨t, hx, ht.reg.status, ht.reg.ctrTx, ht.reg.ctrRx, fun hd hv hfits => ?sent,
      fun hd hv hstage hm hl hfits => ?stored⟩
    case sent =>
      obtain ⟨u, data, hu, hs⟩ := ht.lateWireIn_sends hd hp hw hv (wireFits_iff.mpr hfits)
      refine ⟨u, data, hu, hs.signals, ht.table ▸ hs.length, fun k hk => ?_, hs.reg, hs.rest, hs.otherRegs,
        lateWireIn_of_none (by rw [hs.late])⟩
      rw [hs.holds k hk, ht.table, ht.pm]
    case stored =>
      have hu := ht.lateWireOut_stores hd hp hw hv (hstage.imp id fun h => mt EndpointRegister.statusOnly_iff.mp h) hm hl
        (wireFits_iff.mpr (hfits.imp (fun h => by rw [h]; rfl) id))
      have hs := packetStored_storePacket i bytes t
      exact ⟨_, hu, ht.table ▸ hs.holds, ht.table ▸ hs.outside, hs.table, hs.reg, hs.touches, hs.ep, hs.host,
        hs.signals, lateWireOut_of_none (by rw [hs.late]; rfl)⟩
  · intro s c ea i hn hc hv
    obtain ⟨t, hx, ht⟩ := exec_takes_status hn hc
    refine ⟨t, hx, fun u hu => ⟨fun he => ?notEnabled, fun hp hty hk hd bytes hb => ?statusStage⟩⟩
    case notEnabled =>
      rw [← EndpointRegister.wireSingle_iff] at he
      exact ht.late_of_not_enabled hv he hu
    case statusStage =>
      rw [hd] at hv
      exact ht.late_of_statusStage hd hv hp (EndpointRegister.statusOnly_iff.mpr ⟨hty, hk⟩) hb hu

end Sys2Proof.Machine
end

section
/-! The other environment steps, each with exactly its effect (60_exceptions.md R187, R192, R193;
70_reset_and_hazards.md R218). -/

namespace Sys2Proof.Machine

/-- One byte is stored, and no other is written. -/
theorem storeHost_byte (s : State) (x : Nat) (v : Byte) :
    hostByte (s.storeHost x [v]) x = v ∧ KeepsHostOutside s (s.storeHost x [v]) x 1 := by
  refine ⟨?same, fun y hy => ?other⟩
  case same =>
    rw [State.storeHost_hostByte, if_pos ⟨Nat.le_refl x, by simp⟩]
    simp
  case other =>
    rw [State.storeHost_hostByte, if_neg]
    rw [List.length_singleton]
    omega

theorem busReset_of_pullup {s : State} (hp : s.pullup = true) :
    busReset s = .next { (s.mapRegs (·.afterReset)).endLate with istr := { s.istr with reset := true } } := if_pos hp

theorem busReset_without_pullup {s : State} (hp : s.pullup = false) : busReset s = .refused .busResetNotEnabled :=
  if_neg (by simp [hp])

/-- Settles O56: the events write one field each; the memory and the bus reset by their own lemmas. -/
theorem environmentEventsHaveTheirEffect : Obligations.EnvironmentEventsHaveTheirEffect := by
  unfold Obligations.EnvironmentEventsHaveTheirEffect
  intro s
  refine ⟨rfl, rfl, rfl, rfl, rfl, rfl, rfl, rfl, rfl, rfl, rfl, rfl, rfl, rfl, fun a v => ?callerWrite,
    fun hp => busReset_without_pullup hp, fun hp => ?busReset⟩
  case callerWrite =>
    obtain ⟨hsame, hother⟩ := storeHost_byte s a.toNat v
    exact ⟨_, rfl, hsame, hother, rfl⟩
  case busReset =>
    exact ⟨_, busReset_of_pullup hp, rfl, fun i => State.endLate_late (s.mapRegs (·.afterReset)) i,
      fun i => State.mapRegs_reg s (·.afterReset) i⟩

end Sys2Proof.Machine
end

section
/-! The Transfer Scheduler: the OUT double-buffer paths (43_scheduler.md R138 to R141), what every path leaves in the
register (R127, R142), repeated bulk steps (R133), and the buffers a step writes (20_memory.md R59). -/

namespace Sys2Proof.Machine

/-! ### The OUT double-buffer paths -/

theorem scheduleOut_bulk {i : Slot} {s : State} (hb : (s.ep .OUT i).buffering = .double)
    (ht : (s.ep .OUT i).epType = some .bulk) : scheduleOut i s = outDoubleBulk i s := by
  simp [scheduleOut, hb, ht]

theorem scheduleOut_isochronous {i : Slot} {s : State} (hb : (s.ep .OUT i).buffering = .double)
    (ht : (s.ep .OUT i).epType = some .isochronous) : scheduleOut i s = outDoubleIso i s := by
  simp [scheduleOut, hb, ht]

/-- Any other type is the silent no-op (43_scheduler.md R141). -/
theorem scheduleOut_otherType {i : Slot} {s : State} (hb : (s.ep .OUT i).buffering = .double)
    (hbulk : (s.ep .OUT i).epType ≠ some .bulk) (hiso : (s.ep .OUT i).epType ≠ some .isochronous) :
    scheduleOut i s = s := by
  unfold scheduleOut
  simp only [hb]
  split
  case h_1 h => exact absurd h hbulk
  case h_2 h => exact absurd h hiso
  all_goals rfl

/-- Both buffers hold bytes of the host and none is free: the release is due (43_scheduler.md R139). -/
def ReleaseDue (i : Slot) (s : State) : Prop :=
  (s.ep .OUT i).transferCount ≠ 0 ∧ (s.reg i).dtogRx = (s.reg i).dtogTx

theorem releaseDue_iff {i : Slot} {s : State} :
    (decide ((s.ep .OUT i).transferCount ≠ 0) && (s.reg i).dtogRx == (s.reg i).dtogTx) = true ↔ ReleaseDue i s := by
  rw [Bool.and_eq_true, decide_eq_true_eq, beq_iff_eq, ReleaseDue]

theorem outDoubleBulk_of_due {i : Slot} {s : State} (h : ReleaseDue i s) :
    outDoubleBulk i s = (releaseBuffer i s).setStatRx i .valid :=
  congrArg (State.setStatRx · i .valid) (if_pos (releaseDue_iff.mpr h))

theorem outDoubleBulk_of_not_due {i : Slot} {s : State} (h : ¬ReleaseDue i s) :
    outDoubleBulk i s = s.setStatRx i .valid :=
  congrArg (State.setStatRx · i .valid) (if_neg (mt releaseDue_iff.mp h))

@[simp] theorem releaseBuffer_reg_self (i : Slot) (s : State) :
    (releaseBuffer i s).reg i = { s.reg i with dtogTx := !(s.reg i).dtogTx } := State.updReg_reg_self ..

@[simp] theorem releaseBuffer_ep (i j : Slot) (d : Direction) (s : State) : (releaseBuffer i s).ep d j = s.ep d j := rfl

theorem outDoubleBulk_ep (i : Slot) (s : State) : (outDoubleBulk i s).ep .OUT i = s.ep .OUT i := by
  by_cases h : ReleaseDue i s
  · rw [outDoubleBulk_of_due h, State.setStatRx_ep, releaseBuffer_ep]
  · rw [outDoubleBulk_of_not_due h, State.setStatRx_ep]

/-- Every OUT step completes and moves no byte. -/
theorem exec_startTransfer_out {s : State} {n : Nat} {i : Slot} (hn : Names s n i) :
    exec (.startTransfer ⟨.OUT, n⟩) s = .next ((scheduleOut i s).respond .ok) ∧
      ((scheduleOut i s).respond .ok).table i = s.table i ∧ OnlyTouches s ((scheduleOut i s).respond .ok) .OUT i ∧
      KeepsPm s ((scheduleOut i s).respond .ok) ∧ KeepsHost s ((scheduleOut i s).respond .ok) ∧
      ((scheduleOut i s).respond .ok).signals = s.signals := by
  obtain ⟨hpm, hbdt⟩ := scheduleOut_keeps i s
  obtain ⟨hanswer, htouches, hhost, hsignals⟩ := exec_startTransfer_completes (d := .OUT) hn rfl
  refine ⟨hanswer, ?table, htouches, fun x => ?pm, hhost, hsignals⟩
  case table => rw [State.respond_table, State.table, hbdt, ← State.table]
  case pm => rw [State.respond_pmByte, pmByte, hpm, ← pmByte]

/-- Settles O39: one path for each type. -/
theorem outDoubleStepByType : Obligations.OutDoubleStepByType := by
  unfold Obligations.OutDoubleStepByType
  rintro s n i _ hn rfl hb
  obtain ⟨hanswer, hframe⟩ := exec_startTransfer_out hn
  refine ⟨_, hanswer, rfl, fun ht => ⟨?bulkRecord, fun hdue => ?due, fun hdue => ?notDue⟩,
    fun ht => ⟨?isoRecord, ?isoReg⟩, fun ht => ?other, hframe⟩
  case bulkRecord => rw [State.respond_ep, scheduleOut_bulk hb ht, outDoubleBulk_ep]
  case due =>
    rw [State.respond_reg, scheduleOut_bulk hb ht, outDoubleBulk_of_due hdue, State.setStatRx_reg_self,
      releaseBuffer_reg_self]
  case notDue =>
    rw [State.respond_reg, scheduleOut_bulk hb ht, outDoubleBulk_of_not_due hdue, State.setStatRx_reg_self]
  case isoRecord =>
    rw [State.respond_ep, scheduleOut_isochronous hb ht, outDoubleIso, State.setStatRx_ep, State.updEp_ep_self]
  case isoReg =>
    rw [State.respond_reg, scheduleOut_isochronous hb ht, outDoubleIso, State.setStatRx_reg_self, State.updEp_reg]
  case other =>
    rw [scheduleOut_otherType hb (by rcases ht with h | h <;> simp [h]) (by rcases ht with h | h <;> simp [h])]
    rfl

/-! ### The register after any path -/

theorem scheduleIn_reg {i : Slot} {s t : State} (h : scheduleIn i s = .next t) :
    ∃ k, t.reg i = { s.reg i with kind := k, statTx := .valid } := by
  rcases scheduleIn_cases h with ⟨_, h⟩ | ⟨_, _, _, h⟩ | ⟨_, _, _, h⟩ | ⟨_, _, h⟩
  · obtain ⟨_, _, _, rfl⟩ := inSingle_eq_next.mp h
    exact ⟨(s.reg i).kind, by simp⟩
  · obtain ⟨_, _, _, _, _, rfl⟩ := inDoubleFill_eq_next.mp h
    exact ⟨true, afterDoubleFill_reg i s⟩
  · obtain ⟨_, _, _, rfl⟩ := inAutoSwitch_eq_next.mp h
    exact ⟨false, by simp⟩
  · obtain ⟨_, _, _, rfl⟩ := inDoubleIso_eq_next.mp h
    exact ⟨(s.reg i).kind, by simp⟩

/-- The fall-through no-op of the OUT side (43_scheduler.md R141). -/
def FallsThrough (e : EndpointRecord) : Prop :=
  e.buffering = .double ∧ e.epType ≠ some .bulk ∧ e.epType ≠ some .isochronous

/-- The release of a buffer happens on one path only (43_scheduler.md R138, R139). -/
def Releases (i : Slot) (s : State) : Prop :=
  (s.ep .OUT i).buffering = .double ∧ (s.ep .OUT i).epType = some .bulk ∧ ReleaseDue i s

theorem scheduleOut_reg (i : Slot) (s : State) :
    (FallsThrough (s.ep .OUT i) ∧ (scheduleOut i s).reg i = s.reg i) ∨
    (∃ k, (scheduleOut i s).reg i = { s.reg i with kind := k, statRx := .valid }) ∨
    (Releases i s ∧ (scheduleOut i s).reg i = { s.reg i with dtogTx := !(s.reg i).dtogTx, statRx := .valid }) := by
  cases hb : (s.ep .OUT i).buffering
  case single =>
    rw [scheduleOut_single hb, outSingle_reg]
    exact .inr (.inl ⟨_, rfl⟩)
  case double =>
    by_cases hbulk : (s.ep .OUT i).epType = some .bulk
    · rw [scheduleOut_bulk hb hbulk]
      by_cases hdue : ReleaseDue i s
      · rw [outDoubleBulk_of_due hdue, State.setStatRx_reg_self, releaseBuffer_reg_self]
        exact .inr (.inr ⟨⟨hb, hbulk, hdue⟩, rfl⟩)
      · rw [outDoubleBulk_of_not_due hdue, State.setStatRx_reg_self]
        exact .inr (.inl ⟨_, rfl⟩)
    · by_cases hiso : (s.ep .OUT i).epType = some .isochronous
      · rw [scheduleOut_isochronous hb hiso, outDoubleIso, State.setStatRx_reg_self]
        exact .inr (.inl ⟨_, rfl⟩)
      · rw [scheduleOut_otherType hb hbulk hiso]
        exact .inl ⟨⟨hb, hbulk, hiso⟩, rfl⟩

/-- The slot a completed START_TRANSFER stepped is the one its number names. -/
theorem exec_startTransfer_inv {s t : State} {d : Direction} {n : Nat} {i : Slot} (hi : n = i.val)
    (h : exec (.startTransfer ⟨d, n⟩) s = .next t) :
    Names s n i ∧ ∃ u, schedule d i s = .next u ∧ t = u.respond .ok := by
  obtain ⟨hr, j, hj, hc, u, hu, rfl⟩ := execStartTransfer_eq_next.mp h
  obtain rfl : j = i := Fin.ext (hj.trans hi)
  exact ⟨⟨hr, hi, hi ▸ hc⟩, u, hu, rfl⟩

/-- Settles O40: every register of `scheduleIn_reg` and `scheduleOut_reg` but the fall-through one is Valid. -/
theorem everySchedulingPathEndsValid : Obligations.EverySchedulingPathEndsValid := by
  unfold Obligations.EverySchedulingPathEndsValid
  intro s t ⟨d, n⟩ i hi h hfall
  obtain ⟨_, u, hu, rfl⟩ := exec_startTransfer_inv hi h
  cases d
  case IN =>
    obtain ⟨k, hreg⟩ := scheduleIn_reg hu
    rw [State.respond_reg, hreg]
    rfl
  case OUT =>
    obtain rfl : scheduleOut i s = u := Host.Outcome.next.inj hu
    rw [State.respond_reg]
    obtain ⟨hf, _⟩ | ⟨k, hreg⟩ | ⟨_, hreg⟩ := scheduleOut_reg i s
    · exact absurd ⟨rfl, hf⟩ hfall
    · rw [hreg]; rfl
    · rw [hreg]; rfl

/-- What the register says of the other direction and of the toggle of the IN side, after any path. -/
theorem schedule_other_status {s t : State} {d : Direction} {i : Slot} (h : schedule d i s = .next t) :
    (t.reg i).status (otherDirection d) = (s.reg i).status (otherDirection d) ∧
      ((t.reg i).dtogTx ≠ (s.reg i).dtogTx → d = .OUT ∧ Releases i s) := by
  cases d
  case IN =>
    obtain ⟨k, hreg⟩ := scheduleIn_reg h
    rw [hreg]
    exact ⟨rfl, fun hne => absurd rfl hne⟩
  case OUT =>
    obtain rfl : scheduleOut i s = t := Host.Outcome.next.inj h
    obtain ⟨_, hreg⟩ | ⟨k, hreg⟩ | ⟨hrelease, hreg⟩ := scheduleOut_reg i s
    · rw [hreg]
      exact ⟨rfl, fun hne => absurd rfl hne⟩
    · rw [hreg]
      exact ⟨rfl, fun hne => absurd rfl hne⟩
    · rw [hreg]
      exact ⟨rfl, fun _ => ⟨rfl, hrelease⟩⟩

/-- Settles O41: the frame of every path, and the two registers. -/
theorem schedulerWritesOnlyItsFields : Obligations.SchedulerWritesOnlyItsFields := by
  unfold Obligations.SchedulerWritesOnlyItsFields
  intro s t ⟨d, n⟩ i hi h
  obtain ⟨hn, u, hu, rfl⟩ := exec_startTransfer_inv hi h
  obtain ⟨_, htouches, hhost, _⟩ := exec_startTransfer_completes hn hu
  obtain ⟨_, _, _, _, hreg, haddr, hrecord⟩ := schedule_keeps hu
  obtain ⟨hstatus, htoggle⟩ := schedule_other_status hu
  refine ⟨rfl, htouches, hhost, (congrArg EndpointRegister.epType hreg :), (congrArg EndpointRegister.dtogRx hreg :),
    (congrArg EndpointRegister.ctrTx hreg :), (congrArg EndpointRegister.ctrRx hreg :),
    (congrArg EndpointRecord.stalled hrecord :), (congrArg EndpointRecord.lifecycle hrecord :), hstatus,
    fun hne => ?toggle, (congrArg Prod.fst haddr :), (congrArg Prod.snd haddr :), fun hd => ?out⟩
  case toggle =>
    obtain ⟨hd, hb, ht, hcount, htoggles⟩ := htoggle hne
    exact ⟨hd, hb, ht, hcount, htoggles⟩
  case out =>
    dsimp only at hd
    subst hd
    obtain rfl : scheduleOut i s = u := Host.Outcome.next.inj hu
    obtain ⟨_, htable, _, hpm, _⟩ := exec_startTransfer_out hn
    exact ⟨hpm, htable⟩

/-! ### Repeated bulk steps: R133 -/

/-- The bytes of the transfer no packet has been made of yet (43_scheduler.md R131, R132). -/
def bytesLeft (i : Slot) (s : State) : Nat := (s.ep .IN i).remainingLengthSecondary.toNat

/-- One bulk double-buffered IN step from `s` to `u`. -/
structure BulkStep (n : Nat) (i : Slot) (s u : State) : Prop where
  names : Names u n i
  buffering : (u.ep .IN i).buffering = .double
  epType : (u.ep .IN i).epType = some .bulk
  maxPacketSize : (u.ep .IN i).maxPacketSize = (s.ep .IN i).maxPacketSize
  balance : armedBytes i u + bytesLeft i u = bytesLeft i s
  progress : bytesLeft i u ≤ bytesLeft i s - (s.ep .IN i).maxPacketSize.toNat
  last : bytesLeft i s ≤ (s.ep .IN i).maxPacketSize.toNat →
    bytesLeft i u = 0 ∧ (u.reg i).kind = false ∧ (u.reg i).statTx = .valid

theorem countOf_toNat {n : Nat} (h : n < Config.countLimit) : (countOf n).toNat = n := by
  rw [countOf, BitVec.toNat_ofNat]
  exact Nat.mod_eq_of_lt h

/-- The two buffers of a double fill hold the packet and the second packet, whichever is which. -/
theorem afterDoubleFill_armedBytes {i : Slot} {s : State} (hl : (s.ep .IN i).maxPacketSize.toNat < Config.countLimit) :
    armedBytes i ((afterDoubleFill i s).respond .ok) =
      (s.ep .IN i).maxPacketSize.toNat + secondLength (s.ep .IN i) := by
  have hl2 : secondLength (s.ep .IN i) < Config.countLimit := Nat.lt_of_le_of_lt (Nat.min_le_left ..) hl
  rw [armedBytes, State.respond_reg, State.respond_table, afterDoubleFill_reg, afterDoubleFill_table]
  cases (s.reg i).dtogTx
  case false => simp [countOf_toNat hl, countOf_toNat hl2]
  case true => simp [countOf_toNat hl, countOf_toNat hl2, Nat.add_comm]

theorem afterDoubleFill_bytesLeft (i : Slot) (s : State) :
    bytesLeft i ((afterDoubleFill i s).respond .ok) =
      bytesLeft i s - (s.ep .IN i).maxPacketSize.toNat - secondLength (s.ep .IN i) := by
  rw [bytesLeft, State.respond_ep, afterDoubleFill_ep, satSub_toNat, satSub_toNat, bytesLeft]

theorem bulkStep_of_exec {s u : State} {n : Nat} {i : Slot} (hn : Names s n i)
    (hb : (s.ep .IN i).buffering = .double) (ht : (s.ep .IN i).epType = some .bulk)
    (h : exec (.startTransfer ⟨.IN, n⟩) s = .next u) : BulkStep n i s u := by
  obtain ⟨_, t, hs, rfl⟩ := exec_startTransfer_inv hn.number h
  have hk := schedule_keeps hs
  have hnames : Names (t.respond .ok) n i :=
    ⟨hk.touches.globals.dev ▸ hn.ready, hn.number, hk.touches.globals.dev ▸ hn.below⟩
  have hbuffering : (t.ep .IN i).buffering = .double := (congrArg EndpointRecord.buffering hk.record :).trans hb
  have htype : (t.ep .IN i).epType = some .bulk := (congrArg EndpointRecord.epType hk.record :).trans ht
  have hsize := (congrArg EndpointRecord.maxPacketSize hk.record :)
  rcases scheduleIn_cases hs with ⟨h1, _⟩ | ⟨_, _, hmore, hs⟩ | ⟨_, _, hlast, hs⟩ | ⟨_, h1, _⟩
  · rw [hb] at h1
    cases h1
  · obtain ⟨hl, _, _, _, _, hfill⟩ := inDoubleFill_eq_next.mp hs
    obtain rfl : t = afterDoubleFill i s := hfill
    have hsecond := secondLength_eq (s.ep .IN i)
    refine ⟨hnames, hbuffering, htype, hsize, ?balance, ?progress, fun h => absurd hmore (Nat.not_lt.mpr h)⟩
    case balance =>
      rw [afterDoubleFill_armedBytes hl, afterDoubleFill_bytesLeft, bytesLeft]
      omega
    case progress =>
      rw [afterDoubleFill_bytesLeft]
      omega
  · obtain ⟨hl, _, _, rfl⟩ := inAutoSwitch_eq_next.mp hs
    refine ⟨hnames, hbuffering, htype, hsize, ?balance, ?progress, fun h => ?last⟩
    case balance => simp [armedBytes, bytesLeft, countOf_toNat hl]
    case progress => simp [bytesLeft]
    case last => simp [bytesLeft]
  · rw [ht] at h1
    cases h1

/-- Settles O42, by induction on the number of commands: each takes its packets from what is left, and once one packet
covers it the step switches. -/
theorem bulkDoubleBufferedBytesAddUp : Obligations.BulkDoubleBufferedBytesAddUp := by
  unfold Obligations.BulkDoubleBufferedBytesAddUp
  intro s t n i k
  induction k generalizing s with
  | zero =>
    intro _ _ _ h
    cases h
    exact ⟨Nat.zero_add _, fun h => absurd h (by omega)⟩
  | succ k ih =>
    intro hn hb ht h
    obtain ⟨u, hu, h⟩ := andThen_eq_next.mp h
    obtain ⟨hn', hb', ht', hsize, hbalance, hprogress, hlast⟩ := bulkStep_of_exec hn hb ht hu
    obtain ⟨hsum, hdone⟩ := ih u hn' hb' ht' h
    refine ⟨?sum, fun _ hcover => ?done⟩
    case sum =>
      unfold bytesLeft at hbalance
      rw [armedTotal, hu]
      dsimp only
      omega
    case done =>
      unfold bytesLeft at hprogress hlast
      cases k with
      | zero =>
        cases h
        rw [Nat.one_mul] at hcover
        obtain ⟨hzero, hkind, hstat⟩ := hlast hcover
        exact ⟨BitVec.eq_of_toNat_eq hzero, hkind, hstat⟩
      | succ k =>
        refine hdone (by omega) ?_
        rw [hsize]
        rw [Nat.succ_mul] at hcover
        omega

/-! ### The buffers a step writes: 20_memory.md R59 -/

/-- The byte at `x` lies in the buffer. -/
def Buffer.Covers (b : Buffer) (s : State) (x : Nat) : Prop := b.base s ≤ x ∧ x < b.base s + b.size s

theorem Buffer.base_of_single {b : Buffer} {s : State} (h : (b.record s).buffering = .single) :
    b.base s = (b.record s).address.toNat := by
  rw [Buffer.base, h]

theorem Buffer.base_of_double {b : Buffer} {s : State} (h : (b.record s).buffering = .double) :
    b.base s = ((b.record s).bufferAddress b.second).toNat := by
  rw [Buffer.base, h]

/-- Two buffers that are apart cover no byte together. -/
theorem Buffer.not_covers_of_apart {b : Buffer} {s : State} {y m x : Nat} (h : Apart (b.base s) (b.size s) y m)
    (hlow : y ≤ x) (hhigh : x < y + m) : ¬b.Covers s x := by
  unfold Apart at h
  unfold Buffer.Covers
  omega

/-- A packet no longer than the packet size stays inside a buffer of that size. -/
theorem afterWrite_inside {a : PmAddr} {len m x : Nat} (ha : admitted a len = true) (hlen : len ≤ m)
    (hx : ¬(a.toNat ≤ x ∧ x < a.toNat + roundUpEven m)) (p : OddWritePolicy) (r : Option Region) (cursor : HostAddr)
    (s : State) : pmByte (afterWrite p r cursor a len s) x = pmByte s x := by
  refine afterWrite_keepsPmOutside ha p r cursor s x ?_
  unfold roundUpEven ceilDiv2 at hx
  unfold ceilDiv2
  omega

/-- An IN step writes inside the buffers of its own record. -/
theorem scheduleIn_keepsPm {i : Slot} {s t : State} (h : scheduleIn i s = .next t) {x : Nat}
    (hx : ∀ k : Bool, ((s.ep .IN i).buffering = .single → k = false) → ¬(Buffer.mk .IN i k).Covers s x) :
    pmByte t x = pmByte s x := by
  have hdouble : (s.ep .IN i).buffering = .double → ∀ k, ¬(((s.ep .IN i).bufferAddress k).toNat ≤ x ∧
      x < ((s.ep .IN i).bufferAddress k).toNat + roundUpEven (s.ep .IN i).maxPacketSize.toNat) := by
    intro hb k hk
    refine hx k (by simp [hb]) ?_
    rw [Buffer.Covers, Buffer.base_of_double (b := ⟨.IN, i, k⟩) hb]
    exact hk
  rcases scheduleIn_cases h with ⟨hb, h⟩ | ⟨hb, _, _, h⟩ | ⟨hb, _, hlast, h⟩ | ⟨hb, _, h⟩
  · obtain ⟨_, ha, _, rfl⟩ := inSingle_eq_next.mp h
    rw [State.setStatTx_pmByte, State.setCount_pmByte]
    refine afterWrite_inside ha (Nat.min_le_left ..) (fun hk => hx false (fun _ => rfl) ?_) _ _ _ s
    rw [Buffer.Covers, Buffer.base_of_single (b := ⟨.IN, i, false⟩) hb]
    exact hk
  · obtain ⟨_, ha, _, ha2, _, rfl⟩ := inDoubleFill_eq_next.mp h
    rw [State.setStatTx_pmByte, State.updEp_pmByte, afterWrite_inside ha2 (Nat.min_le_left ..) (hdouble hb _),
      State.setCount_pmByte, afterFirstFill, afterWrite_inside ha (Nat.le_refl _) (hdouble hb _),
      State.setCount_pmByte, State.setKind_pmByte]
  · obtain ⟨_, ha, _, rfl⟩ := inAutoSwitch_eq_next.mp h
    rw [State.setStatTx_pmByte, State.updEp_pmByte, afterWrite_inside ha hlast (hdouble hb false),
      State.setCount_pmByte, State.setKind_pmByte]
  · obtain ⟨_, ha, _, rfl⟩ := inDoubleIso_eq_next.mp h
    rw [State.setStatTx_pmByte, State.updEp_pmByte, afterWrite_inside ha (Nat.min_le_left ..) (hdouble hb _),
      State.setCount_pmByte]

/-- A step on a configured record leaves every range that is apart from its record's buffers in use. -/
theorem schedule_keepsPm_apart {s t : State} {d : Direction} {i : Slot} (h : schedule d i s = .next t)
    (hl : (s.ep d i).lifecycle = .configured) {y m x : Nat}
    (hapart : ∀ b : Buffer, b.dir = d → b.slot = i → b.inUse s → Apart (b.base s) (b.size s) y m)
    (hlow : y ≤ x) (hhigh : x < y + m) : pmByte t x = pmByte s x := by
  cases d
  case IN =>
    exact scheduleIn_keepsPm h fun k hk =>
      Buffer.not_covers_of_apart (hapart ⟨.IN, i, k⟩ rfl rfl ⟨hl, hk⟩) hlow hhigh
  case OUT =>
    obtain rfl : scheduleOut i s = t := Host.Outcome.next.inj h
    rw [pmByte, (scheduleOut_keeps i s).1, ← pmByte]

/-- Settles O60: under `Partitioned` the other buffers and the table's range are apart from the record's own. -/
theorem partitionedStepLeavesOtherBuffers : Obligations.PartitionedStepLeavesOtherBuffers := by
  unfold Obligations.PartitionedStepLeavesOtherBuffers
  intro s t ⟨d, n⟩ i hpart hi hl h
  obtain ⟨_, u, hu, rfl⟩ := exec_startTransfer_inv hi h
  refine ⟨fun b x hb hother hlow hhigh => ?buffers, fun x hlow hhigh => ?table⟩
  case buffers =>
    refine schedule_keepsPm_apart hu hl (fun c hd hs hc => ?_) hlow hhigh
    exact hpart.apart c b hc hb fun heq => hother ⟨heq ▸ hd, heq ▸ hs⟩
  case table => exact schedule_keepsPm_apart hu hl (fun c _ _ hc => hpart.table c hc) hlow hhigh

end Sys2Proof.Machine
end

section
/-! Requests and completions on a named record (45_requests_completion.md R161 to R170): SEND and RECEIVE as one scheduling
step from the booked record, COMPLETE_IN and COMPLETE_OUT as one from the advanced record, or as the signal. -/

namespace Sys2Proof.Machine

/-! ### SEND -/

/-- The region of a request admits every packet of it whose host addresses exist (20_memory.md R55). -/
theorem regionAdmits_request {buf : HostAddr} {length : Len} {len : Nat} (hl : len ≤ length.toNat)
    (hb : len = 0 ∨ buf.toNat + len ≤ Config.hostSize) : regionAdmits (some ⟨buf, length⟩) buf len = true := by
  simp only [regionAdmits, Bool.or_eq_true, Bool.and_eq_true, beq_iff_eq, decide_eq_true_eq]
  omega

/-- The frame of a step that begins with an update of the record. -/
theorem OnlyTouches.of_updEp {s t : State} {d : Direction} {i : Slot} {f : EndpointRecord → EndpointRecord}
    (h : OnlyTouches (s.updEp d i f) t d i) : OnlyTouches s t d i :=
  ((OnlyTouches.refl s d i).updEp f).trans h

/-- Settles O48: by O47 the command is one START_TRANSFER of the booked record, and by O33 that arms the packet. -/
theorem sendArmsItsFirstPacket : Obligations.SendArmsItsFirstPacket := by
  unfold Obligations.SendArmsItsFirstPacket
  rintro s n i _ buf length len hn rfl hb hlen hl he hf hhost
  have hep : (s.updEp .IN i (·.requested buf length)).ep .IN i = (s.ep .IN i).requested buf length :=
    State.updEp_ep_self ..
  have hadmitted : PacketAdmitted ((s.ep .IN i).requested buf length) buf (s.ep .IN i).address len :=
    ⟨admitted_iff.mpr ⟨he, hf⟩, regionAdmits_request (hlen ▸ Nat.min_le_right ..) hhost⟩
  obtain ⟨_, _, hdone⟩ := inSingleStepArmsOnePacket _ n i _ len (hn.updEp .IN i _) hep.symm hb hlen
  obtain ⟨t, hx, hresp, hpacket, houtside, htable, hreg, hrecord, htouches, hkeeps, hsignals⟩ := hdone hl hadmitted
  exact ⟨t, (request_of_names hn .IN buf length).trans hx, hresp, hpacket, houtside, htable, hreg, hrecord,
    htouches.of_updEp, hkeeps, hsignals⟩

/-! ### RECEIVE -/

theorem scheduleOut_single_reg {i : Slot} {s : State} (hb : (s.ep .OUT i).buffering = .single) :
    (scheduleOut i s).reg i =
      { s.reg i with
        kind := decide ((s.ep .OUT i).remainingLength = 0 ∧ (s.ep .OUT i).epType = some .control),
        statRx := .valid } := by
  rw [scheduleOut_single hb, outSingle_reg, statusStage_eq]

theorem scheduleOut_single_ep {i : Slot} {s : State} (hb : (s.ep .OUT i).buffering = .single) :
    (scheduleOut i s).ep .OUT i =
      { s.ep .OUT i with
        remainingLength :=
          if (s.ep .OUT i).maxPacketSize < (s.ep .OUT i).remainingLength then
            (s.ep .OUT i).remainingLength - (s.ep .OUT i).maxPacketSize
          else 0 } := by
  rw [scheduleOut_single hb, outSingle_ep, preDecremented_eq]

/-- A fresh transfer has transferred nothing, so no release is due on any type but Isochronous. -/
theorem scheduleOut_fresh {i : Slot} {s : State} (hb : (s.ep .OUT i).buffering = .double)
    (ht : (s.ep .OUT i).epType ≠ some .isochronous) (hcount : (s.ep .OUT i).transferCount = 0) :
    scheduleOut i s = if (s.ep .OUT i).epType = some .bulk then s.setStatRx i .valid else s := by
  split
  case isTrue hbulk => rw [scheduleOut_bulk hb hbulk, outDoubleBulk_of_not_due fun h => h.1 hcount]
  case isFalse hbulk => exact scheduleOut_otherType hb hbulk ht

/-- Settles O49: by O47 the command is one OUT step of the booked record, whose register and record each path gives. -/
theorem receiveBooksAndArms : Obligations.ReceiveBooksAndArms := by
  unfold Obligations.ReceiveBooksAndArms
  rintro s n i _ buf length hn rfl
  have hep : (s.updEp .OUT i (·.requested buf length)).ep .OUT i = (s.ep .OUT i).requested buf length :=
    State.updEp_ep_self ..
  obtain ⟨hx, htable, htouches, hpm, hhost, hsignals⟩ :=
    exec_startTransfer_out (hn.updEp .OUT i (·.requested buf length))
  refine ⟨_, (request_of_names hn .OUT buf length).trans hx, rfl, fun hb => ?single, fun hb ht => ?isochronous,
    fun hb ht => ?other, htable, htouches.of_updEp, hpm, hhost, hsignals⟩
  case single =>
    rw [State.respond_reg, State.respond_ep, scheduleOut_single_reg (by rw [hep]; exact hb),
      scheduleOut_single_ep (by rw [hep]; exact hb), hep]
    exact ⟨rfl, rfl⟩
  case isochronous =>
    rw [State.respond_reg, State.respond_ep,
      scheduleOut_isochronous (by rw [hep]; exact hb) (by rw [hep]; exact ht), outDoubleIso, State.setStatRx_reg_self,
      State.setStatRx_ep, State.updEp_ep_self, hep]
    exact ⟨rfl, rfl⟩
  case other =>
    rw [State.respond_reg, State.respond_ep,
      scheduleOut_fresh (by rw [hep]; exact hb) (by rw [hep]; exact ht) (by rw [hep]; rfl), hep]
    split
    case isTrue hbulk => exact ⟨(State.setStatRx_reg_self ..).trans (if_pos hbulk).symm, hep⟩
    case isFalse hbulk => exact ⟨(if_neg hbulk).symm, hep⟩

/-! ### COMPLETE_IN -/

section
variable {s : State} {n : Nat} {i : Slot}

theorem exec_completeIn_of_names (hn : Names s n i) (hb : (s.ep .IN i).buffering = .single)
    (hf : (s.reg i).ctrTx = true) : exec (.completeIn n) s = andThen (completeInSingle i s) answerOk := by
  refine (requireReady_of hn.ready _).trans ?_
  rw [withSlot_of i hn.number hn.below]
  simp only [hb]
  exact if_pos hf

theorem exec_completeIn_double (hn : Names s n i) (hb : (s.ep .IN i).buffering = .double) :
    exec (.completeIn n) s = .refused .dbCompletionOpen := by
  refine (requireReady_of hn.ready _).trans ?_
  rw [withSlot_of i hn.number hn.below]
  simp only [hb]
  rfl

theorem exec_completeIn_notPending (hn : Names s n i) (hb : (s.ep .IN i).buffering = .single)
    (hf : (s.reg i).ctrTx = false) : exec (.completeIn n) s = .refused .noCompletionPending := by
  refine (requireReady_of hn.ready _).trans ?_
  rw [withSlot_of i hn.number hn.below]
  simp only [hb]
  exact if_neg (by simp [hf])

/-- The last packet: nothing is left after it. -/
theorem exec_completeIn_last (hn : Names s n i) (hb : (s.ep .IN i).buffering = .single) (hf : (s.reg i).ctrTx = true)
    (h0 : ((s.ep .IN i).sent (s.table i).countTx.toNat).remainingLength = 0) :
    exec (.completeIn n) s =
      .next ((((inCompleted i s).updEp .IN i (·.released)).emit (.inDone i.val)).respond .ok) := by
  rw [exec_completeIn_of_names hn hb hf, completeInSingle_eq, if_pos h0]
  rfl

/-- More is left: one scheduling step from the advanced record. -/
theorem exec_completeIn_more (hn : Names s n i) (hb : (s.ep .IN i).buffering = .single) (hf : (s.reg i).ctrTx = true)
    (h0 : ((s.ep .IN i).sent (s.table i).countTx.toNat).remainingLength ≠ 0) :
    exec (.completeIn n) s = exec (.startTransfer ⟨.IN, n⟩) (inCompleted i s) := by
  have hn' : Names (inCompleted i s) n i := ⟨hn.ready, hn.number, hn.below⟩
  rw [exec_completeIn_of_names hn hb hf, completeInSingle_eq, if_neg h0, exec_startTransfer_of_names .IN hn']

end

theorem inCompleted_ep (i : Slot) (s : State) :
    (inCompleted i s).ep .IN i = (s.ep .IN i).sent (s.table i).countTx.toNat := State.updEp_ep_self ..

theorem inCompleted_reg (i : Slot) (s : State) : (inCompleted i s).reg i = { s.reg i with ctrTx := false } :=
  State.updReg_reg_self s i fun r => { r with ctrTx := false }

theorem inCompleted_touches (i : Slot) (s : State) : OnlyTouches s (inCompleted i s) .IN i :=
  ((OnlyTouches.refl s .IN i).updReg _).updEp _

theorem sent_remainingLength_eq_zero_iff {e : EndpointRecord} {m : Nat} :
    (e.sent m).remainingLength = 0 ↔ e.remainingLength.toNat ≤ m := by
  rw [← BitVec.toNat_inj]
  show (satSub e.remainingLength m).toNat = 0 ↔ _
  rw [satSub_toNat]
  omega

/-- Settles O50: nothing left is the signal; else O33 at the advanced record. -/
theorem completeInServesTheCompletion : Obligations.CompleteInServesTheCompletion := by
  unfold Obligations.CompleteInServesTheCompletion
  rintro s n i _ sent len hn rfl hb hf rfl hlen
  have hep := inCompleted_ep i s
  have hn' : Names (inCompleted i s) n i := ⟨hn.ready, hn.number, hn.below⟩
  have hlen' : len = min ((s.ep .IN i).sent (s.table i).countTx.toNat).maxPacketSize.toNat
      ((s.ep .IN i).sent (s.table i).countTx.toNat).remainingLength.toNat := by
    rw [hlen]
    exact congrArg _ (satSub_toNat ..).symm
  obtain ⟨htooLong, hrefused, hdone⟩ := inSingleStepArmsOnePacket _ n i _ len hn' hep.symm hb hlen'
  have hmore : (s.table i).countTx.toNat < (s.ep .IN i).remainingLength.toNat →
      exec (.completeIn n) s = exec (.startTransfer ⟨.IN, n⟩) (inCompleted i s) := fun h =>
    exec_completeIn_more hn hb hf (mt sent_remainingLength_eq_zero_iff.mp (Nat.not_le.mpr h))
  refine ⟨fun h => ?last, fun h hl => ?tooLong, fun h hl ha => ?refused, fun h hl ha => ?next⟩
  case last =>
    have h0 := sent_remainingLength_eq_zero_iff.mpr h
    refine ⟨_, exec_completeIn_last hn hb hf h0, rfl, rfl, inCompleted_reg i s, rfl, ?record,
      (((inCompleted_touches i s).updEp _).emit _).respond _, fun _ => rfl, fun _ => rfl⟩
    rw [State.respond_ep, State.emit_ep, State.updEp_ep_self, hep, EndpointRecord.released, h0]
    rfl
  case tooLong => rw [hmore h, htooLong hl]
  case refused =>
    rw [hmore h]
    exact hrefused hl ha
  case next =>
    obtain ⟨t, hx, hresp, hpacket, houtside, htable, hreg, hrecord, htouches, hkeeps, hsignals⟩ := hdone hl ha
    rw [inCompleted_reg] at hreg
    exact ⟨t, (hmore h).trans hx, hresp, hsignals, hreg, htable, hrecord, hpacket, houtside,
      (inCompleted_touches i s).trans htouches, hkeeps⟩

/-! ### COMPLETE_OUT -/

section
variable {s : State} {n : Nat} {i : Slot}

theorem exec_completeOut_of_names (hn : Names s n i) (hb : (s.ep .OUT i).buffering = .single)
    (hf : (s.reg i).ctrRx = true) : exec (.completeOut n) s = andThen (completeOutSingle i s) answerOk := by
  refine (requireReady_of hn.ready _).trans ?_
  rw [withSlot_of i hn.number hn.below]
  simp only [hb]
  exact if_pos hf

theorem exec_completeOut_double (hn : Names s n i) (hb : (s.ep .OUT i).buffering = .double) :
    exec (.completeOut n) s = .refused .dbCompletionOpen := by
  refine (requireReady_of hn.ready _).trans ?_
  rw [withSlot_of i hn.number hn.below]
  simp only [hb]
  rfl

theorem exec_completeOut_notPending (hn : Names s n i) (hb : (s.ep .OUT i).buffering = .single)
    (hf : (s.reg i).ctrRx = false) : exec (.completeOut n) s = .refused .noCompletionPending := by
  refine (requireReady_of hn.ready _).trans ?_
  rw [withSlot_of i hn.number hn.below]
  simp only [hb]
  exact if_neg (by simp [hf])

end

/-- Settles O52: the mode is looked at first, then the flag. -/
theorem unservableCompletionIsRefused : Obligations.UnservableCompletionIsRefused := by
  unfold Obligations.UnservableCompletionIsRefused
  exact fun s n i hn => ⟨exec_completeIn_double hn, exec_completeIn_notPending hn, exec_completeOut_double hn,
    exec_completeOut_notPending hn⟩

theorem outCompleted_ep (i : Slot) (s : State) :
    (outCompleted i s).ep .OUT i = (s.ep .OUT i).advanced (s.table i).countRx.toNat := State.updEp_ep_self ..

theorem outCompleted_reg (i : Slot) (s : State) : (outCompleted i s).reg i = { s.reg i with ctrRx := false } :=
  State.updReg_reg_self s i fun r => { r with ctrRx := false }

theorem outCompleted_touches (i : Slot) (s : State) : OnlyTouches s (outCompleted i s) .OUT i :=
  (((OnlyTouches.refl s .OUT i).updReg _).afterRead _ _ _).updEp _

/-- What the read of a served completion leaves in caller memory. -/
theorem outCompleted_host {i : Slot} {s : State} (ha : admitted (s.ep .OUT i).address (s.table i).countRx.toNat = true) :
    (∀ k, k < (s.table i).countRx.toNat →
      hostByte (outCompleted i s) ((s.ep .OUT i).transferBuffer.toNat + k) =
        pmByte s ((s.ep .OUT i).address.toNat + k)) ∧
    KeepsHostOutside s (outCompleted i s) (s.ep .OUT i).transferBuffer.toNat (s.table i).countRx.toNat :=
  ⟨fun _ hk => afterRead_stores ha _ _ hk, afterRead_keepsHostOutside _ _ _ _⟩

theorem completeOutSingle_refused {i : Slot} {s : State}
    (h : ¬PacketAdmitted (s.ep .OUT i) (s.ep .OUT i).transferBuffer (s.ep .OUT i).address (s.table i).countRx.toNat) :
    PacketRefused (completeOutSingle i s) :=
  PacketRefused.andThen (pmaRead_not_admitted h) _

theorem exec_completeOut_refused {s : State} {n : Nat} {i : Slot} (hn : Names s n i)
    (hb : (s.ep .OUT i).buffering = .single) (hf : (s.reg i).ctrRx = true)
    (h : ¬PacketAdmitted (s.ep .OUT i) (s.ep .OUT i).transferBuffer (s.ep .OUT i).address (s.table i).countRx.toNat) :
    PacketRefused (exec (.completeOut n) s) := by
  rw [exec_completeOut_of_names hn hb hf]
  exact (completeOutSingle_refused h).andThen _

section
variable {s : State} {n : Nat} {i : Slot} (hn : Names s n i) (hb : (s.ep .OUT i).buffering = .single)
  (hf : (s.reg i).ctrRx = true)
  (ha : PacketAdmitted (s.ep .OUT i) (s.ep .OUT i).transferBuffer (s.ep .OUT i).address (s.table i).countRx.toNat)
include hn hb hf ha

/-- The last packet: nothing is left after it. -/
theorem exec_completeOut_last (h0 : (s.ep .OUT i).remainingLength = 0) :
    exec (.completeOut n) s =
      .next ((((outCompleted i s).updEp .OUT i (·.released)).emit
        (.outDone i.val ((s.ep .OUT i).advanced (s.table i).countRx.toNat).transferCount)).respond .ok) := by
  rw [exec_completeOut_of_names hn hb hf, completeOutSingle_eq_next.mpr ⟨ha.1, ha.2, .inl ⟨h0, rfl⟩⟩]
  rfl

/-- More is left: one scheduling step from the advanced record. -/
theorem exec_completeOut_more (h0 : (s.ep .OUT i).remainingLength ≠ 0) :
    exec (.completeOut n) s = exec (.startTransfer ⟨.OUT, n⟩) (outCompleted i s) := by
  have hn' : Names (outCompleted i s) n i := ⟨hn.ready, hn.number, hn.below⟩
  rw [exec_completeOut_of_names hn hb hf, completeOutSingle_eq_next.mpr ⟨ha.1, ha.2, .inr ⟨h0, rfl⟩⟩,
    exec_startTransfer_of_names .OUT hn']
  rfl

end

/-- Settles O51: nothing left is the signal; else the OUT step at the advanced record, outside its status stage. -/
theorem completeOutServesTheCompletion : Obligations.CompleteOutServesTheCompletion := by
  unfold Obligations.CompleteOutServesTheCompletion
  rintro s n i _ _ hn rfl hb hf rfl
  refine ⟨fun ha => exec_completeOut_refused hn hb hf ha, fun ha => ?_⟩
  have hep := outCompleted_ep i s
  obtain ⟨hbytes, houtside⟩ := outCompleted_host ha.1
  by_cases h0 : (s.ep .OUT i).remainingLength = 0
  · refine ⟨_, exec_completeOut_last hn hb hf ha h0, rfl, hbytes, houtside, fun _ => ⟨rfl, outCompleted_reg i s, ?last⟩,
      fun h => absurd h0 h, rfl, (((outCompleted_touches i s).updEp _).emit _).respond _, fun _ => rfl⟩
    case last =>
      rw [State.respond_ep, State.emit_ep, State.updEp_ep_self, hep]
      rfl
  · have hn' : Names (outCompleted i s) n i := ⟨hn.ready, hn.number, hn.below⟩
    have hb' : ((outCompleted i s).ep .OUT i).buffering = .single := by rw [hep]; exact hb
    obtain ⟨hx, htable, htouches, hpm, hhost, hsignals⟩ := exec_startTransfer_out hn'
    refine ⟨_, (exec_completeOut_more hn hb hf ha h0).trans hx, rfl, fun k hk => (hhost _).trans (hbytes k hk),
      fun y hy => (hhost y).trans (houtside y hy), fun h => absurd h h0, fun _ => ⟨hsignals, ?reg, ?record⟩, htable,
      (outCompleted_touches i s).trans htouches, hpm⟩
    case reg =>
      rw [State.respond_reg, scheduleOut_single_reg hb', outCompleted_reg, hep]
      have hstage : ¬(((s.ep .OUT i).advanced (s.table i).countRx.toNat).remainingLength = 0 ∧
          ((s.ep .OUT i).advanced (s.table i).countRx.toNat).epType = some .control) := fun h => h0 h.1
      rw [decide_eq_false hstage]
    case record =>
      rw [State.respond_ep, scheduleOut_single_ep hb', hep]
      rfl

end Sys2Proof.Machine
end

section
/-! Two steps together: a packet from the caller to the host, and from the host to the caller (45_requests_completion.md
R161, R168, R172, R174; 20_memory.md R57). -/

namespace Sys2Proof.Machine

/-- Two steps of the machine, each by what it answers. -/
theorem run_two {s t u : State} (h1 : step s = .next t) (h2 : step t = .next u) :
    Host.Core.run Sys2Proof.core 2 s = .next u := by
  have hstep1 : Sys2Proof.core.step s = .next t := h1
  have hstep2 : Sys2Proof.core.step t = .next u := h2
  show Host.Core.run Sys2Proof.core (0 + 1 + 1) s = .next u
  simp only [Host.Core.run, hstep1, hstep2]

/-- A queued command word that was encoded runs its instruction. -/
theorem step_of_encoded {s : State} {c : Instr} {rest : List Input} (hin : s.inputs = .command (encode c) :: rest)
    (hw : WellFormed c) : step s = exec c (s.take rest) := by
  rw [step_of_inputs hin]
  exact runCommand_of_decode (decode_of_reads (reads_encode hw)) _

theorem Names.fits {s : State} {n : Nat} {i : Slot} (hn : Names s n i) : numberFits n = true := by
  have hi : i.val < 8 := i.isLt
  rw [numberFits_iff, hn.number]
  omega

/-- Settles O58: SEND arms the packet (O48), and the collection sends what is armed (O53). -/
theorem sentPacketReachesTheHost : Obligations.SentPacketReachesTheHost := by
  unfold Obligations.SentPacketReachesTheHost
  rintro s n i _ buf length len hn hin rfl hb hlen hl he hf hhost hp haddr hmode
  have hn0 : Names (s.take [.wireIn n]) n i := ⟨hn.ready, hn.number, hn.below⟩
  obtain ⟨t, hx, -, hpacket, -, htable, hreg, -, htouches, -⟩ :=
    sendArmsItsFirstPacket _ n i _ buf length len hn0 rfl hb hlen hl he hf hhost
  have hsend : step s = .next t := (step_of_encoded hin hn.fits).trans hx
  have hcount : (t.table i).countTx.toNat = len := by
    have hfield : (t.table i).countTx = countOf len := (congrArg BdtEntry.countTx htable :)
    rw [hfield, countOf_toNat hl]
  have haddr' : (t.table i).addrTx = (s.ep .IN i).address := by rw [htable]; exact haddr
  have hinputs : t.inputs = [.wireIn i.val] := htouches.globals.inputs.trans (by rw [hn.number]; rfl)
  obtain ⟨u, data, hu, hsignals, hlength, hbytes, hreg', -⟩ :=
    wireInSendsTheArmedPacket (t.take []) i (htouches.globals.pullup.trans hp) (by rw [State.take_reg, hreg])
      (by rw [State.take_reg, hreg]; exact hmode)
      (by rw [State.take_table, hcount, haddr']; exact .inr hf)
  have hcollect : step t = .next u := (step_of_inputs hinputs).trans hu
  rw [State.take_table, hcount] at hlength
  rw [State.take_reg, hreg] at hreg'
  refine ⟨u, data, run_two hsend hcollect, ?signals, hlength, fun k hk => ?bytes, by rw [hreg'], by rw [hreg'],
    by rw [hreg']; rfl⟩
  case signals => rw [hsignals, State.take_reg, hreg, hn.number]; rfl
  case bytes =>
    have heven : 2 * ((s.ep .IN i).address.toNat / 2) = (s.ep .IN i).address.toNat := by omega
    rw [hbytes k (by omega), State.take_table, haddr', heven, State.take_pmByte]
    exact congrArg some (hpacket k hk)

/-- Settles O59: the delivery stores the packet (O54), and COMPLETE_OUT reads it out (O51). -/
theorem receivedPacketReachesTheCaller : Obligations.ReceivedPacketReachesTheCaller := by
  unfold Obligations.ReceivedPacketReachesTheCaller
  rintro s n i _ bytes hn hin rfl hb hm ha hl hp haddr hv hmode hstage
  obtain ⟨heven, hfits⟩ := admitted_iff.mp ha.1
  have hdeliver := wireOutStoresThePacket (s.take [.command (encode (.completeOut n))]) i bytes hp hv hmode hstage hm hl
    (.inr (by rw [State.take_table, haddr]; exact hfits))
  obtain ⟨t, hx, hstored, -, htable, hreg, -, htouches, hep, hhost, -⟩ := hdeliver
  have hglobals := htouches.rest.globals
  have hdev : t.dev = s.dev := hglobals.dev
  have hnt : Names (t.take []) n i := ⟨hdev ▸ hn.ready, hn.number, hdev ▸ hn.below⟩
  have hep' : s.ep .OUT i = (t.take []).ep .OUT i := hep.symm
  have hcount : (t.table i).countRx.toNat = bytes.length := by
    have hfield : (t.table i).countRx = countOf bytes.length := (congrArg BdtEntry.countRx htable :)
    rw [hfield, countOf_toNat hl]
  rw [← hn.number] at hx
  have hreceive : step s = .next t := (step_of_inputs hin).trans hx
  have hflag : (t.reg i).ctrRx = true := (congrArg EndpointRegister.ctrRx hreg :)
  obtain ⟨-, hdone⟩ :=
    completeOutServesTheCompletion (t.take []) n i (s.ep .OUT i) bytes.length hnt hep' hb hflag hcount.symm
  obtain ⟨u, hu, -, hread, houtside, hlast, hmore, -⟩ := hdone ha
  have hinputs : t.inputs = [.command (encode (.completeOut n))] := hglobals.inputs
  have hcomplete : step t = .next u := (step_of_encoded hinputs hn.fits).trans hu
  refine ⟨u, run_two hreceive hcomplete, fun k hk => ?bytes, fun y hy => (houtside y hy).trans (hhost y), ?count, ?flag,
    fun h0 => ?signal⟩
  case bytes =>
    have heven' : 2 * ((s.ep .OUT i).address.toNat / 2) = (s.ep .OUT i).address.toNat := by omega
    rw [hstored k hk, State.take_table, haddr, heven', hread k hk, State.take_pmByte]
  case count =>
    by_cases h0 : (s.ep .OUT i).remainingLength = 0
    · rw [(hlast h0).2.2]
    · rw [(hmore h0).2.2]
  case flag =>
    by_cases h0 : (s.ep .OUT i).remainingLength = 0
    · rw [(hlast h0).2.1]
    · rw [(hmore h0).2.1]
  case signal =>
    rw [(hlast h0).1, hn.number]
    rfl

end Sys2Proof.Machine
end
